-- ==== Sys2Proof/Word.lean ====
section
/-! DEFINITION. The word types of the ICE decode core (00_scope R4, R7) and the names of its byte spaces (20_memory R40). -/

namespace Sys2Proof

/-- One byte, a value 0..255 (00_scope R7). -/
abbrev Byte := BitVec 8

/-- One unsigned 32-bit value, `W32` of 00_scope R7. -/
abbrev Word := BitVec 32

/-- `Bytes8`, one block of the block cipher, byte 0 at the lowest address (00_scope R7, 42_cipher R137). -/
abbrev Block := Fin 8 → Byte

/-- The 256 bytes of the entropy block (10_state R19). -/
abbrev Entropy := Fin 256 → Byte

/-- The four byte-addressed address spaces (20_memory R40). -/
inductive Space where
  | buf
  | out
  | hist
  | ent
  deriving DecidableEq, Repr

end Sys2Proof
end

