-- ==== Sys2Proof/Config.lean ====
section
/-! DEFINITION. What an implementation fixes (the model arguments of 00_scope R4) and the free values (93_implementation_defined U1 to U4). Every constant here is opaque: a proof holds for every value of it. -/

namespace Sys2Proof

/-- `BUF_MAX`, the capacity of `BUF` in bytes, any value up to 2^32 - 1 (00_scope R4, D3; log 9). -/
opaque Config.bufMax : Word

/-- `OUT_MAX`, the capacity of `OUT` in bytes, any value up to 2^32 - 1 (00_scope R4, D3; log 9). -/
opaque Config.outMax : Word

/-- `BC_Dec`, the block function: a 32-bit key and an 8-byte block to an 8-byte block (42_cipher R134, D16; log 10). -/
opaque Config.bcDec : Word → Block → Block

/-- `KD_SEED_CONST` (43_key_derivation R153, D17; log 11). -/
opaque Config.kdSeedConst : Word

/-- `KD_MixA` (43_key_derivation R154, D17; log 11). -/
opaque Config.kdMixA : Entropy → Word → Word

/-- `KD_MixB` (43_key_derivation R156, D17; log 11). -/
opaque Config.kdMixB : Entropy → Word → Word

/-- `KD_MixFinal` (43_key_derivation R157, D17; log 11). -/
opaque Config.kdMixFinal : Entropy → Word → Word

/-- `KD_IterCount`, applied to the seed (43_key_derivation R155, D17; log 11). -/
opaque Config.kdIterCount : Word → Nat

/-- FREE VALUE. What a byte of a space holds that nothing has written since the given epoch of that space began
(10_state R16 to R19, 93 U1, U2; logs 1 and 2). -/
opaque Config.unwritten : (epoch : Nat) → Space → (addr : Nat) → Byte

/-- FREE VALUE. `ip` after a fault of `PRSDEC` (60_exceptions R208, 93 U4; log 4). -/
opaque Config.freeIp : Nat → Word

/-- FREE VALUE. `ctl` after a fault of `PRSDEC` (60_exceptions R208, 93 U4; log 4). -/
opaque Config.freeCtl : Nat → Byte

/-- FREE VALUE. `bi` after a fault of `PRSDEC`, within its range 0..8 (60_exceptions R208, 93 U4; log 4). -/
opaque Config.freeBi : Nat → Fin 9

/-- FREE VALUE. What a host read of a key register returns while `KVALID = 0` (10_state R20, 93 U3; log 3). -/
opaque Config.freeKey : Nat → Word

end Sys2Proof
end

