-- ==== Sys2Proof/Syntax.lean ====
section
/-! DEFINITION. The instructions: the five PRS instruction forms (30_encoding R61 to R65) and the nine host commands (30_encoding R70), one constructor per row of spec/opcode_table.json. -/

namespace Sys2Proof

/-- One row of the opcode table. The fields are the encoding's own fields; what they mean is in Machine/Operands.lean. -/
inductive Instr where
  /-- `LIT`: the literal byte `d` (30_encoding R61). -/
  | lit (d : Byte)
  /-- `SHORT`: the size bits `a`, `b` and the offset byte `o` (30_encoding R62). -/
  | short (a b : Bool) (o : Byte)
  /-- `LONG.S`: `byte0 = l ++ z` with `z` nonzero, `byte1 = h` (30_encoding R63). -/
  | longS (l : BitVec 5) (z : BitVec 3) (h : Byte)
  /-- `LONG.L`: `byte0 = l ++ 000`, `byte1 = h` (not both zero), `byte2 = n` (30_encoding R64). -/
  | longL (l : BitVec 5) (h n : Byte)
  /-- `EOS` (30_encoding R65). -/
  | eos
  /-- `NOP`, command code 0x00 (30_encoding R70). -/
  | nop
  /-- `RESET`, command code 0x01 (70_reset_and_hazards R231). -/
  | reset
  /-- `PRSDEC`, command code 0x10 (41_prs_decoder R100). -/
  | prsdec
  /-- `XORPASS`, command code 0x20 (42_cipher R132). -/
  | xorpass
  /-- `BCDEC.STD`, command code 0x21 (42_cipher R135). -/
  | bcdecStd
  /-- `BCDEC.CMP`, command code 0x22 (42_cipher R136). -/
  | bcdecCmp
  /-- `GRPDEC`, command code 0x23 (44_container_sequence R170). -/
  | grpdec
  /-- `HDRDEC`, command code 0x24 (44_container_sequence R171). -/
  | hdrdec
  /-- `KDERIVE`, command code 0x30 (43_key_derivation R158). -/
  | kderive
  deriving DecidableEq, Repr

/-- Is the instruction one of the PRS bitstream (30_encoding R60 to R65)? The others are host commands (R70). -/
def Instr.isPrs : Instr → Bool
  | .lit _ => true
  | .short _ _ _ => true
  | .longS _ _ _ => true
  | .longL _ _ _ => true
  | .eos => true
  | .nop => false
  | .reset => false
  | .prsdec => false
  | .xorpass => false
  | .bcdecStd => false
  | .bcdecCmp => false
  | .grpdec => false
  | .hdrdec => false
  | .kderive => false

end Sys2Proof
end

