-- ==== Sys2Proof/WellFormed.lean ====
section
/-! DEFINITION. Which terms of Instr are instructions the encoding can spell: the constraints of 30_encoding R63 and R64. -/

namespace Sys2Proof

/-- `LONG.S` has a nonzero size field (30_encoding R63); `LONG.L` does not have both offset bytes zero, since those spell
`EOS` (30_encoding R64, R65). Every other field takes every value. -/
def Instr.wf : Instr → Bool
  | .lit _ => true
  | .short _ _ _ => true
  | .longS _ z _ => z != 0
  | .longL l h _ => !(l == 0 && h == 0)
  | .eos => true
  | .nop => true
  | .reset => true
  | .prsdec => true
  | .xorpass => true
  | .bcdecStd => true
  | .bcdecCmp => true
  | .grpdec => true
  | .hdrdec => true
  | .kderive => true

end Sys2Proof
end

