-- ==== Sys2Proof/Decode.lean ====
section
/-! DEFINITION. Decoding: the bit reader (41_prs_decoder R102, R103), the decode tree of the PRS stream (30_encoding R66),
the command codes (30_encoding R70); and after it the encoder and the canonical packing (30_encoding R61 to R65, R70, R72). -/

namespace Sys2Proof

/-- Why a decoder gives no instruction. `inputUnderrun`: a byte is needed and the stream has none (41_prs_decoder R102).
`illegalCommand`: a command code that 30_encoding R70 does not list. -/
inductive DecodeError where
  | inputUnderrun
  | illegalCommand
  deriving DecidableEq, Repr

/-- The engine's fetch position (10_state R12, R13): the bytes not yet fetched, how many were fetched since the position was
taken, the latched control byte and the index of its next bit. -/
structure Reader where
  rest : List Byte
  used : Nat
  ctl : Byte
  bi : Fin 9
  deriving DecidableEq, Repr

/-- The position at the start of a stream: no control byte latched (41_prs_decoder R100). -/
def Reader.start (bytes : List Byte) : Reader :=
  { rest := bytes, used := 0, ctl := 0, bi := 8 }

/-- `Fetch()` (41_prs_decoder R102). -/
def Reader.fetch (r : Reader) : Except DecodeError (Byte × Reader) :=
  match r.rest with
  | [] => .error .inputUnderrun
  | b :: bs => .ok (b, { r with rest := bs, used := r.used + 1 })

/-- Bit `bi` of the latched control byte, `bi` moving on (the second line of 41_prs_decoder R103). -/
def Reader.deliver (r : Reader) : Bool × Reader :=
  (r.ctl.getLsbD r.bi.val, { r with bi := r.bi + 1 })

/-- `CtlBit()`, with the lazy refill (41_prs_decoder R103). -/
def Reader.ctlBit (r : Reader) : Except DecodeError (Bool × Reader) :=
  if r.bi = 8 then
    match r.fetch with
    | .error e => .error e
    | .ok (c, q) => .ok ({ q with ctl := c, bi := 0 } : Reader).deliver
  else .ok r.deliver

/-- The data byte of `LIT` (30_encoding R61). -/
def decodeLit (r : Reader) : Except DecodeError (Instr × Reader) := do
  let (d, r) ← r.fetch
  .ok (.lit d, r)

/-- The size bits and the offset byte of `SHORT` (30_encoding R62): both bits always, before the byte. -/
def decodeShort (r : Reader) : Except DecodeError (Instr × Reader) := do
  let (a, r) ← r.ctlBit
  let (b, r) ← r.ctlBit
  let (o, r) ← r.fetch
  .ok (.short a b o, r)

/-- The data bytes of `LONG` and `EOS` (30_encoding R63 to R65): the End-of-stream test after `byte1`, then `byte2` only if
the size field (bits 2:0 of `byte0`) is zero. -/
def decodeLong (r : Reader) : Except DecodeError (Instr × Reader) := do
  let (byte0, r) ← r.fetch
  let (byte1, r) ← r.fetch
  if byte0 = 0 ∧ byte1 = 0 then .ok (.eos, r)
  else if byte0.extractLsb' 0 3 = 0 then
    let (byte2, r) ← r.fetch
    .ok (.longL (byte0.extractLsb' 3 5) byte1 byte2, r)
  else .ok (.longS (byte0.extractLsb' 3 5) (byte0.extractLsb' 0 3) byte1, r)

/-- The decode tree of a PRS stream (30_encoding R66, 41_prs_decoder R101). -/
def decodePrs (r : Reader) : Except DecodeError (Instr × Reader) := do
  let (c0, r) ← r.ctlBit
  if c0 then decodeLit r
  else
    let (c1, r) ← r.ctlBit
    if c1 then decodeLong r else decodeShort r

/-- The next `n` instructions of a stream, and where the reader stops. -/
def decodeMany : Nat → Reader → Except DecodeError (List Instr × Reader)
  | 0, r => .ok ([], r)
  | n + 1, r => do
    let (i, r) ← decodePrs r
    let (is, r) ← decodeMany n r
    .ok (i :: is, r)

/-- The command codes (30_encoding R70). -/
def decodeCmd (code : Byte) : Except DecodeError Instr :=
  if code = 0x00 then .ok .nop
  else if code = 0x01 then .ok .reset
  else if code = 0x10 then .ok .prsdec
  else if code = 0x20 then .ok .xorpass
  else if code = 0x21 then .ok .bcdecStd
  else if code = 0x22 then .ok .bcdecCmp
  else if code = 0x23 then .ok .grpdec
  else if code = 0x24 then .ok .hdrdec
  else if code = 0x30 then .ok .kderive
  else .error .illegalCommand

/-- What an instruction is spelled with: a command code, or control bits in consumption order and data bytes in fetch order. -/
inductive Encoding where
  | command (code : Byte)
  | prs (bits : List Bool) (data : List Byte)
  deriving DecidableEq, Repr

/-- The encoding of each instruction (30_encoding R61 to R65 and R70). -/
def encode : Instr → Encoding
  | .lit d => .prs [true] [d]
  | .short a b o => .prs [false, false, a, b] [o]
  | .longS l z h => .prs [false, true] [l ++ z, h]
  | .longL l h n => .prs [false, true] [l ++ (0 : BitVec 3), h, n]
  | .eos => .prs [false, true] [0, 0]
  | .nop => .command 0x00
  | .reset => .command 0x01
  | .prsdec => .command 0x10
  | .xorpass => .command 0x20
  | .bcdecStd => .command 0x21
  | .bcdecCmp => .command 0x22
  | .grpdec => .command 0x23
  | .hdrdec => .command 0x24
  | .kderive => .command 0x30

/-- One thing the assembler places: a control bit or a whole byte (30_encoding R72). -/
inductive Item where
  | bit (v : Bool)
  | byte (b : Byte)
  deriving DecidableEq, Repr

/-- The items of an encoding in placing order: control bits, then data bytes (30_encoding R72). A command code is one byte. -/
def Encoding.items : Encoding → List Item
  | .command code => [.byte code]
  | .prs bits data => bits.map .bit ++ data.map .byte

/-- The control bits among the items, in order. -/
def itemBits : List Item → List Bool
  | [] => []
  | .bit v :: is => v :: itemBits is
  | .byte _ :: is => itemBits is

/-- The control byte whose bit `i` is the `i`-th of the given bits, 0 beyond their end (30_encoding R72: "Unused high bits of
the last control byte stay 0"). -/
def controlByte (bits : List Bool) : Byte :=
  BitVec.ofFnLE fun i => bits.getD i.val false

/-- Canonical packing (30_encoding R72), `cn` bits of the current control byte being placed. The control byte stands where its
first bit is placed; its value is written at once, from the bits placed later. -/
def packItems : Nat → List Item → List Byte
  | _, [] => []
  | cn, .bit v :: is =>
    if cn = 8 then controlByte (itemBits (.bit v :: is)) :: packItems 1 is else packItems (cn + 1) is
  | cn, .byte b :: is => b :: packItems cn is

/-- The assembler: a list of PRS instructions to the bytes of a stream (30_encoding R72). -/
def assemble (prog : List Instr) : List Byte :=
  packItems 8 (prog.flatMap fun i => (encode i).items)

/-- `k` bytes of a number, the lowest first. -/
def bytesOfNat : Nat → Nat → List Byte
  | 0, _ => []
  | k + 1, w => BitVec.ofNat 8 w :: bytesOfNat k (w / 256)

/-- The length of the longest instruction in bytes, its control byte counted (30_encoding R66). -/
abbrev longestInstr : Nat := 4

/-- The bytes of a PRS instruction that the table numbers as `w` in `nbits` bits (log 19). In whole bytes, `w` is the stream as
`BUF` holds it, control byte first. Otherwise `nbits` is the length of the row's bit pattern (9, 12, 18 or 26): its leftmost
`nbits % 8` bits are the control bits and the rest the data bytes, the first byte leftmost (30_encoding section 2). Zeros follow
up to the longest instruction. -/
def tableBytes (nbits w : Nat) : List Byte :=
  if nbits % 8 = 0 then bytesOfNat longestInstr (w % 2 ^ nbits)
  else
    let nbytes := nbits / 8
    let bits := (List.range (nbits % 8)).map fun i => Nat.testBit w (nbits - 1 - i)
    let data := (bytesOfNat nbytes w).reverse
    (packItems 8 (bits.map .bit ++ data.map .byte) ++ bytesOfNat longestInstr 0).take longestInstr

/-- What the decoder reads from an opcode-table row's word: in 8 bits a command code, in any other number of bits a PRS
instruction at a fresh control byte (log 19). -/
def decodeTableWord (nbits w : Nat) : Option Instr :=
  if nbits = 8 then (decodeCmd (BitVec.ofNat 8 w)).toOption
  else (decodePrs (Reader.start (tableBytes nbits w))).toOption.map Prod.fst

end Sys2Proof
end

