-- ==== Sys2Proof/Machine/State.lean ====
section
/-! DEFINITION. The complete state of one core instance (10_state R10), the host's pending moves beside it, the state at
reset (10_state R31, 70_reset_and_hazards R230), and the reasons a step can stop. -/

namespace Sys2Proof.Machine

/-- `STATUS.STATE` (10_state R23). -/
inductive CoreState where
  | idle
  | busy
  | done
  | fault
  deriving DecidableEq, Repr

/-- `STATUS.END` (10_state R23); the code 3 never occurs. -/
inductive EndKind where
  | none
  | eos
  | full
  deriving DecidableEq, Repr

/-- The fault causes of 60_exceptions R200. -/
inductive Cause where
  | none
  | corruptData
  | inputUnderrun
  | badLength
  | illegalCommand
  | keyInvalid
  deriving DecidableEq, Repr

/-- `KEY[0..4]` under the names of 10_state R20. -/
structure KeySet where
  /-- `KEY[0]`, the header key. -/
  kh : Word
  /-- `KEY[1]`, the group-1 primary key. -/
  k1a : Word
  /-- `KEY[2]`, the group-1 secondary key. -/
  k1b : Word
  /-- `KEY[3]`, the group-2 primary key. -/
  k2a : Word
  /-- `KEY[4]`, the group-2 secondary key. -/
  k2b : Word
  deriving DecidableEq, Repr

/-- The buffers the host may reach (20_memory R40); `HIST` is not among them (10_state R16). -/
inductive HostMem where
  | buf
  | out
  | ent
  deriving DecidableEq, Repr

/-- One move of the host or of the reset pin: an input of the core (10_state R10; log 6). -/
inductive HostOp where
  /-- Write a register by its number (10_state R22 to R26). -/
  | writeReg (reg : Nat) (value : Word)
  /-- Read a register by its number (10_state R22 to R26). -/
  | readReg (reg : Nat)
  /-- Write one byte of a buffer (20_memory R40). -/
  | writeByte (m : HostMem) (addr : Nat) (b : Byte)
  /-- Read one byte of a buffer (20_memory R40). -/
  | readByte (m : HostMem) (addr : Nat)
  /-- No move for the length of one step. -/
  | wait
  /-- Hardware reset (70_reset_and_hazards R230), possible at any time (93 U20). -/
  | hardReset
  deriving DecidableEq, Repr

/-- The machine stops with a fault of the MODEL. (The core's own faults, 60_exceptions R200, are next states.) -/
inductive Fault where
  /-- Raised by a host access to a buffer address at or beyond the buffer's capacity: 20_memory R40 gives the buffer no such
  address. Safe. -/
  | noSuchAddress (m : HostMem) (addr : Nat)
  deriving DecidableEq, Repr

/-- No meaning is given. -/
inductive Refusal where
  /-- Raised by exec for an instruction that has no meaning yet. Safe. -/
  | notModelled (mnemonic : String)
  /-- Raised by a host write of a buffer byte while `STATE = FAULT`, which 70_reset_and_hazards R240 forbids and for which it
  gives no result. Safe. -/
  | hostWriteWhileFaulted (m : HostMem) (addr : Nat)
  deriving DecidableEq, Repr

/-- The state. Memories are lists of (address, byte) with rising addresses; a byte that is not listed has not been written. -/
structure State where
  /-- `ip`, the input position, the engine's program counter (10_state R12). -/
  ip : Word
  /-- `ip0`, the value `ip` had when the running instruction began (41_prs_decoder R101; log 13). -/
  ipStart : Word
  /-- `ctl`, the control byte latch (10_state R13). -/
  ctl : Byte
  /-- `bi`, the control bit index, 0..8 (10_state R13). -/
  bi : Fin 9
  /-- `wc`, the write cursor, 0..8190, `HIST_LEN` being 8191 (00_scope R4, 10_state R14). -/
  wc : Fin 8191
  /-- `op`, the output position (10_state R15). -/
  op : Word
  /-- `HIST` (10_state R16). -/
  hist : List Host.Cell
  /-- `BUF` (10_state R17). -/
  buf : List Host.Cell
  /-- `OUT` (10_state R18). -/
  out : List Host.Cell
  /-- `ENT` (10_state R19). -/
  ent : List Host.Cell
  /-- `KEY[0..4]` (10_state R20). -/
  keys : KeySet
  /-- `STATUS.KVALID` (10_state R20, R23). -/
  kvalid : Bool
  /-- `BUF_LEN` (10_state R22). -/
  bufLen : Word
  /-- `OUT_LEN` (10_state R22). -/
  outLen : Word
  /-- `KSEL` (10_state R22). -/
  ksel : BitVec 3
  /-- `KEYIMM` (10_state R22). -/
  keyimm : Word
  /-- `SHIFT` (10_state R22). -/
  shift : BitVec 5
  /-- `KD_SIZE` (10_state R22). -/
  kdSize : Word
  /-- `GSEL` (10_state R22). -/
  gsel : BitVec 1
  /-- `STATUS.STATE` (10_state R23). -/
  st : CoreState
  /-- `STATUS.END` (10_state R23). -/
  ending : EndKind
  /-- `CAUSE` (10_state R24). -/
  cause : Cause
  /-- `FADDR` (10_state R25). -/
  faddr : Word
  /-- The host's pending moves, the next one first (log 6). -/
  host : List HostOp
  /-- What the host's last read returned (log 6). -/
  hostData : Word
  /-- Which power-on contents `BUF`, `OUT` and `ENT` have (log 5). -/
  memEpoch : Nat
  /-- Which unspecified contents `HIST` has (log 5). -/
  histEpoch : Nat
  /-- The counter the free values are drawn with (log 5). -/
  freeCtr : Nat
  deriving DecidableEq, Repr

/-- The machine right after hardware reset (10_state R31, 70_reset_and_hazards R230). The memories list nothing: their contents
are unspecified (logs 1 and 2). The key registers hold no value while `kvalid` is false (log 3). -/
def State.reset : State where
  ip := 0
  ipStart := 0
  ctl := 0
  bi := 8
  wc := ⟨0, by decide⟩
  op := 0
  hist := []
  buf := []
  out := []
  ent := []
  keys := { kh := 0, k1a := 0, k1b := 0, k2a := 0, k2b := 0 }
  kvalid := false
  bufLen := 0
  outLen := 0
  ksel := 5
  keyimm := 0
  shift := 16
  kdSize := 0
  gsel := 0
  st := .idle
  ending := .none
  cause := .none
  faddr := 0
  host := []
  hostData := 0
  memEpoch := 0
  histEpoch := 0
  freeCtr := 0

end Sys2Proof.Machine
end

