-- ==== Sys2Proof/Machine/Flags.lean ====
section
/-! DEFINITION. The status view: the codes of `STATUS.STATE`, `STATUS.END` and `CAUSE`, the assembled `STATUS` register, and
the two level outputs (10_state R21, R23, R24; 60_exceptions R200, R211). The core has no arithmetic flag (10_state R21). -/

namespace Sys2Proof.Machine

/-- The code of `STATUS.STATE` (10_state R23). -/
def CoreState.code : CoreState → BitVec 2
  | .idle => 0
  | .busy => 1
  | .done => 2
  | .fault => 3

/-- The code of `STATUS.END` (10_state R23). -/
def EndKind.code : EndKind → BitVec 2
  | .none => 0
  | .eos => 1
  | .full => 2

/-- The code of `CAUSE` (60_exceptions R200). -/
def Cause.code : Cause → Byte
  | .none => 0
  | .corruptData => 1
  | .inputUnderrun => 2
  | .badLength => 3
  | .illegalCommand => 4
  | .keyInvalid => 5

/-- `STATUS` as the host reads it: `STATE` in bits 1:0, `END` in 3:2, `KVALID` in bit 4, bits 7:5 zero (10_state R23). -/
def statusReg (s : State) : Byte :=
  (0 : BitVec 3) ++ (BitVec.ofBool s.kvalid ++ (s.ending.code ++ s.st.code))

/-- The level output `done` (60_exceptions R211). -/
def doneLine (s : State) : Bool := s.st = .done

/-- The level output `fault` (60_exceptions R211). -/
def faultLine (s : State) : Bool := s.st = .fault

/-- Does a `CMD` or operand write take effect? Only in `IDLE` and `DONE` (10_state R22, R26). -/
def accepts (s : State) : Bool := s.st = .idle || s.st = .done

end Sys2Proof.Machine
end

