-- ==== Sys2Proof/Machine/Operands.lean ====
section
/-! DEFINITION. Operand forms: offsets and sizes of the back-references (30_encoding R67), the key operand (42_cipher R133), and
the word arithmetic of 00_scope R7. -/

namespace Sys2Proof.Machine

/-- `SHORT.offset = o - 256` (30_encoding R67). -/
def shortOffset (o : Byte) : Int := (o.toNat : Int) - 256

/-- `SHORT.size = 2 + 2a + b` (30_encoding R67). -/
def shortSize (a b : Bool) : Nat := 2 + 2 * a.toNat + b.toNat

/-- `LONG.offset = (byte1 << 5) + (byte0 >> 3) - 8192`, `l` being `byte0 >> 3` (30_encoding R67). -/
def longOffset (l : BitVec 5) (h : Byte) : Int := ((h.toNat <<< 5 + l.toNat : Nat) : Int) - 8192

/-- `LONG.S.size = s + 2` (30_encoding R67). -/
def longShortSize (z : BitVec 3) : Nat := z.toNat + 2

/-- `LONG.L.size = byte2 + 10` (30_encoding R67). -/
def longLongSize (n : Byte) : Nat := n.toNat + 10

/-- The address of the byte `off` places from the cursor, by the floor modulus (20_memory R43). -/
def histIndex (w : Fin 8191) (off : Int) : Fin 8191 :=
  ⟨(((w.val : Int) + off) % 8191).toNat, by omega⟩

/-- The cursor one byte on (10_state R14). -/
def cursorNext (w : Fin 8191) : Fin 8191 :=
  ⟨(w.val + 1) % 8191, Nat.mod_lt _ (by decide)⟩

/-- `KEY[i]` (10_state R20). There are five; no caller asks for a number above 4. -/
def keyAt (k : KeySet) : Nat → Word
  | 0 => k.kh
  | 1 => k.k1a
  | 2 => k.k1b
  | 3 => k.k2a
  | _ => k.k2b

/-- A fault about to be raised: the cause and the information word of `raise X(info)` (60_exceptions R205). -/
abbrev Trap := Cause × Word

/-- `SelKey()`, the key operand of `XORPASS`, `BCDEC.STD` and `BCDEC.CMP` (42_cipher R133). -/
def selKey (s : State) : Except Trap Word :=
  if s.ksel.toNat ≤ 4 then
    if s.kvalid then .ok (keyAt s.keys s.ksel.toNat) else .error (.keyInvalid, s.ksel.zeroExtend 32)
  else if s.ksel = 5 then .ok s.keyimm
  else .error (.illegalCommand, s.ksel.zeroExtend 32)

/-- The two keys of `GRPDEC`: `KEY[1 + 2*GSEL]` and `KEY[2 + 2*GSEL]` (44_container_sequence R170). -/
def groupKeys (s : State) : Except Trap (Word × Word) :=
  let i := 1 + 2 * s.gsel.toNat
  if s.kvalid then .ok (keyAt s.keys i, keyAt s.keys (i + 1)) else .error (.keyInvalid, BitVec.ofNat 32 i)

/-- The key of `HDRDEC`: `KEY[0]` (44_container_sequence R171). -/
def headerKey (s : State) : Except Trap Word :=
  if s.kvalid then .ok s.keys.kh else .error (.keyInvalid, 0)

/-- `rotl32` (00_scope R7). -/
def rotl32 (x : Word) (n : Nat) : Word := (x <<< n) ||| (x >>> (32 - n))

/-- `be32` (00_scope R7). -/
def be32 (b0 b1 b2 b3 : Byte) : Word := b0 ++ (b1 ++ (b2 ++ b3))

end Sys2Proof.Machine
end

