-- ==== Sys2Proof/Machine/Ops.lean ====
section
/-! DEFINITION. The named operations over memory and registers: reads and writes of the byte spaces (20_memory), fault entry
and the way out of it (60_exceptions R205, 70_reset_and_hazards R231), `Emit` and `Copy` (41_prs_decoder R108, R110), the
engine's fetch position, and the frame every command runs in. -/

namespace Sys2Proof.Machine

/-! ## Memory -/

/-- The byte listed at an address, if one is. -/
def Memory.get : List Host.Cell → Nat → Option Byte
  | [], _ => none
  | (a, b) :: m, x => if a = x then some b else Memory.get m x

/-- List a byte at an address, keeping the addresses rising. -/
def Memory.set : List Host.Cell → Nat → Byte → List Host.Cell
  | [], x, v => [(x, v)]
  | (a, b) :: m, x, v =>
    if x < a then (x, v) :: (a, b) :: m
    else if x = a then (x, v) :: m
    else (a, b) :: Memory.set m x v

/-- The canonical form: strictly rising addresses. An unlisted address has no stored byte, so every listed byte differs from
what an unlisted address holds. -/
abbrev Memory.wf (m : List Host.Cell) : Prop := m.Pairwise fun p q => p.1 < q.1

/-- Every listed address is below the size of the space. -/
abbrev Memory.within (size : Nat) (m : List Host.Cell) : Prop := ∀ p ∈ m, p.1 < size

/-- What an address reads as: its listed byte, else the free value of unwritten memory (10_state R16 to R19; logs 1 and 2). -/
def Memory.read (epoch : Nat) (sp : Space) (m : List Host.Cell) (a : Nat) : Byte :=
  (Memory.get m a).getD (Config.unwritten epoch sp a)

/-- `BUF[a]`. -/
def readBuf (s : State) (a : Nat) : Byte := Memory.read s.memEpoch .buf s.buf a

/-- `OUT[a]`. -/
def readOut (s : State) (a : Nat) : Byte := Memory.read s.memEpoch .out s.out a

/-- `ENT[a]`. -/
def readEnt (s : State) (a : Nat) : Byte := Memory.read s.memEpoch .ent s.ent a

/-- `HIST[a]`. -/
def readHist (s : State) (a : Fin 8191) : Byte := Memory.read s.histEpoch .hist s.hist a.val

/-- `BUF[a] <- b`. -/
def writeBuf (a : Nat) (b : Byte) (s : State) : State := { s with buf := Memory.set s.buf a b }

/-- Block `i` of `BUF`: `BUF[8i .. 8i+7]` (42_cipher R137). -/
def readBlock (s : State) (i : Nat) : Block := fun j => readBuf s (8 * i + j.val)

/-- `MemWrite(BUF, 8i, 8, b)` (42_cipher R137). -/
def writeBlock (i : Nat) (b : Block) (s : State) : State :=
  { s with buf := (List.finRange 8).foldl (fun m j => Memory.set m (8 * i + j.val) (b j)) s.buf }

/-- The 256 bytes of `ENT` (10_state R19). -/
def entropy (s : State) : Entropy := fun i => readEnt s i.val

/-- The contents of `HIST` become unspecified (10_state R16, R31; log 2). -/
def forgetHist (s : State) : State := { s with hist := [], histEpoch := s.histEpoch + 1 }

/-! ## Fault entry and the way out -/

/-- `raise X(info)`: fault entry (60_exceptions R205). -/
def raise (t : Trap) (s : State) : State :=
  { s with cause := t.1, faddr := t.2, st := .fault, ending := .none }

/-- A fault of `PRSDEC`, at its start or in one of its steps: fault entry with the information word of 10_state R25, after which
`ip`, `ctl` and `bi` are unspecified (60_exceptions R208; log 4), and so is `HIST`, since the run has ended (10_state R16;
log 2). `op`, `OUT` and `BUF` stay. -/
def raisePrs (c : Cause) (info : Word) (s : State) : State :=
  { forgetHist (raise (c, info) s) with
    ip := Config.freeIp s.freeCtr
    ctl := Config.freeCtl s.freeCtr
    bi := Config.freeBi s.freeCtr
    freeCtr := s.freeCtr + 1 }

/-- Every register of the core at its reset value; `BUF`, `OUT` and `ENT` as they are; `HIST` unspecified
(70_reset_and_hazards R231). The host's fields and the model's counters are no registers of the core (log 6). -/
def resetRegisters (s : State) : State :=
  { State.reset with
    buf := s.buf
    out := s.out
    ent := s.ent
    host := s.host
    hostData := s.hostData
    memEpoch := s.memEpoch
    histEpoch := s.histEpoch + 1
    freeCtr := s.freeCtr }

/-- Hardware reset (70_reset_and_hazards R230): as `RESET`, and the contents of `BUF`, `OUT` and `ENT` become unspecified. -/
def hardReset (s : State) : State :=
  { resetRegisters s with buf := [], out := [], ent := [], memEpoch := s.memEpoch + 1 }

/-! ## The PRS engine -/

/-- The bytes `BUF[a .. a+n-1]`, lowest address first. -/
def bytesFrom (s : State) : Nat → Nat → List Byte
  | 0, _ => []
  | n + 1, a => readBuf s a :: bytesFrom s n (a + 1)

/-- The engine's fetch position: the unfetched bytes of the stream, `ctl` and `bi` (10_state R12, R13). -/
def fetchPosition (s : State) : Reader :=
  { rest := bytesFrom s (s.bufLen.toNat - s.ip.toNat) s.ip.toNat
    used := 0
    ctl := s.ctl
    bi := s.bi }

/-- Move past a decoded instruction: `ip`, `ctl` and `bi` are where the reader stopped, and `ip0` is remembered
(41_prs_decoder R101 to R103; log 13). -/
def advance (r : Reader) (s : State) : State :=
  { s with ipStart := s.ip, ip := s.ip + BitVec.ofNat 32 r.used, ctl := r.ctl, bi := r.bi }

/-- `Emit(b)` (41_prs_decoder R108). -/
def emit (b : Byte) (s : State) : State :=
  { s with
    out := Memory.set s.out s.op.toNat b
    op := s.op + 1#32
    hist := Memory.set s.hist s.wc.val b
    wc := cursorNext s.wc }

/-- One byte of a back-reference: `b <- HIST[(wc + offset) mod 8191]; Emit(b)` (41_prs_decoder R110). -/
def copyByte (off : Int) (s : State) : State := emit (readHist s (histIndex s.wc off)) s

/-- `n` bytes of a back-reference, each read after the one before is written (41_prs_decoder R110). -/
def copyBytes (off : Int) : Nat → State → State
  | 0, s => s
  | n + 1, s => copyByte off (copyBytes off n s)

/-- How many bytes a back-reference of this size copies: clamped at the end of the output (41_prs_decoder R115). -/
def clampSize (size : Nat) (s : State) : Nat := min size (s.outLen.toNat - s.op.toNat)

/-- `Copy(offset, size)`: the range check, then the clamped copy (41_prs_decoder R110, R111, R115). -/
def copy (off : Int) (size : Nat) (s : State) : State :=
  if (s.op.toNat : Int) < -off then raisePrs .corruptData s.ipStart s
  else copyBytes off (clampSize size s) s

/-- The engine stops: `STATUS.STATE <- DONE; STATUS.END <- e` (41_prs_decoder R101, R107). `HIST` is unspecified from here on
(10_state R16; log 2). -/
def finishPrs (e : EndKind) (s : State) : State := { forgetHist s with st := .done, ending := e }

/-- `PRSDEC` starts: the engine's registers at their start values, `HIST` unspecified (41_prs_decoder R100). -/
def startPrs (s : State) : State :=
  { forgetHist s with
    st := .busy, ending := .none
    ip := 0, ipStart := 0, ctl := 0, bi := 8, wc := ⟨0, by decide⟩, op := 0 }

/-! ## Commands -/

/-- A command takes effect in `IDLE` and `DONE` only (10_state R26). -/
def whenAccepted (f : State → State) (s : State) : State := if accepts s then f s else s

/-- `STATUS.STATE <- BUSY; STATUS.END <- NONE` (42_cipher R139). -/
def beginCommand (s : State) : State := { s with st := .busy, ending := .none }

/-- `STATUS.STATE <- DONE` (42_cipher R139). -/
def endCommand (s : State) : State := { s with st := .done }

/-- The common frame of the cipher commands (42_cipher R139): the capacity check, the key operands, the command's own length
check, then the body; every fault before anything is changed. -/
def cipherFrame {κ : Type} (keyOperands : State → Except Trap κ) (lengthBad : State → Bool) (body : κ → State → State)
    (s : State) : State :=
  if Config.bufMax.toNat < s.bufLen.toNat then raise (.badLength, s.bufLen) s
  else
    match keyOperands s with
    | .error t => raise t s
    | .ok k =>
      if lengthBad s then raise (.badLength, s.bufLen) s
      else endCommand (body k (beginCommand s))

end Sys2Proof.Machine
end

