-- ==== Sys2Proof/Machine/Cipher.lean ====
section
/-! DEFINITION. The cipher primitives and the commands over them: `XORPASS`, `BCDEC.STD`, `BCDEC.CMP` (42_cipher), `GRPDEC` and
`HDRDEC` (44_container_sequence R170, R171). -/

namespace Sys2Proof.Machine

/-- `XorKeyByte(key, shift)` (42_cipher R130). -/
def xorKeyByte (key : Word) (shift : Nat) : Byte := ((key >>> shift) ^^^ key).truncate 8

/-- `XorDec(b, kb)`, with its fixed points at zero and at the key byte (42_cipher R131). -/
def xorDec (kb b : Byte) : Byte := if b = 0 ∨ b = kb then b else b ^^^ kb

/-- `for i in 0 .. n-1: BUF[i] <- XorDec(BUF[i], kb)` (42_cipher R132). -/
def xorPass (kb : Byte) : Nat → State → State
  | 0, s => s
  | n + 1, s =>
    let t := xorPass kb n s
    writeBuf n (xorDec kb (readBuf t n)) t

/-- `for i in 0 .. n-1: MemWrite(BUF, 8i, 8, f(MemRead(BUF, 8i, 8)))` (42_cipher R135 to R137). -/
def blockPass (f : Block → Block) : Nat → State → State
  | 0, s => s
  | n + 1, s =>
    let t := blockPass f n s
    writeBlock n (f (readBlock t n)) t

/-- The number of whole blocks of the buffer, `BUF_LEN div 8` (42_cipher R137). -/
def wholeBlocks (s : State) : Nat := s.bufLen.toNat / 8

/-- The body of `XORPASS` (42_cipher R132). -/
def xorBody (key : Word) (s : State) : State := xorPass (xorKeyByte key s.shift.toNat) s.bufLen.toNat s

/-- One block-cipher pass with a key: every whole block, trailing bytes untouched (42_cipher R135, R136). -/
def blockBody (key : Word) (s : State) : State := blockPass (Config.bcDec key) (wholeBlocks s) s

/-- No length check beyond the frame's. -/
def anyLength (_ : State) : Bool := false

/-- Standard mode requires a multiple of 8 (42_cipher R135). -/
def notWholeBlocks (s : State) : Bool := s.bufLen.toNat % 8 != 0

/-- `XORPASS` (42_cipher R132). -/
def execXorpass (s : State) : Host.Outcome State Fault Refusal :=
  .next (whenAccepted (cipherFrame selKey anyLength xorBody) s)

/-- `BCDEC.STD`, standard mode (42_cipher R135). -/
def execBcdecStd (s : State) : Host.Outcome State Fault Refusal :=
  .next (whenAccepted (cipherFrame selKey notWholeBlocks blockBody) s)

/-- `BCDEC.CMP`, compatibility mode (42_cipher R136). -/
def execBcdecCmp (s : State) : Host.Outcome State Fault Refusal :=
  .next (whenAccepted (cipherFrame selKey anyLength blockBody) s)

/-- `XOR_SHIFT_GROUP` (00_scope R4). -/
abbrev groupShift : Nat := 16

/-- `SECOND_PASS_MAX` (00_scope R4). -/
abbrev secondPassMax : Nat := 102400

/-- `HDR_BLOCK_LEN` (00_scope R4). -/
abbrev headerBlockLen : Nat := 48

/-- `GRPDEC` refuses a buffer that takes the second pass and is no whole number of blocks (44_container_sequence R170). -/
def groupLengthBad (s : State) : Bool :=
  0 < s.bufLen.toNat && s.bufLen.toNat ≤ secondPassMax && s.bufLen.toNat % 8 != 0

/-- The passes of `GRPDEC` over the block function `bc`: the XOR pass with key1, a compatibility pass with key1, and up to
102400 bytes a standard pass with key2 (44_container_sequence R170). -/
def groupPasses (bc : Word → Block → Block) (k : Word × Word) (s : State) : State :=
  let s0 := xorPass (xorKeyByte k.1 groupShift) s.bufLen.toNat s
  let s1 := blockPass (bc k.1) (wholeBlocks s) s0
  if s.bufLen.toNat ≤ secondPassMax then blockPass (bc k.2) (wholeBlocks s) s1 else s1

/-- The body of `GRPDEC`: an empty buffer is left as it is (44_container_sequence R170). -/
def groupBody (k : Word × Word) (s : State) : State :=
  if 0 < s.bufLen.toNat then groupPasses Config.bcDec k s else s

/-- `GRPDEC` (44_container_sequence R170). -/
def execGrpdec (s : State) : Host.Outcome State Fault Refusal :=
  .next (whenAccepted (cipherFrame groupKeys groupLengthBad groupBody) s)

/-- `HDRDEC` takes exactly 48 bytes (44_container_sequence R171). -/
def headerLengthBad (s : State) : Bool := s.bufLen.toNat != headerBlockLen

/-- The body of `HDRDEC`: the six blocks of the header in standard mode (44_container_sequence R171). -/
def headerBody (key : Word) (s : State) : State := blockPass (Config.bcDec key) (headerBlockLen / 8) s

/-- `HDRDEC` (44_container_sequence R171). -/
def execHdrdec (s : State) : Host.Outcome State Fault Refusal :=
  .next (whenAccepted (cipherFrame headerKey headerLengthBad headerBody) s)

end Sys2Proof.Machine
end

