-- ==== Sys2Proof/Machine/Control.lean ====
section
/-! DEFINITION. The meanings of `NOP`, `RESET` and `PRSDEC` (30_encoding R70, 70_reset_and_hazards R231, 41_prs_decoder R100). -/

namespace Sys2Proof.Machine

/-- `NOP`: no effect at all (30_encoding R70). -/
def execNop (s : State) : Host.Outcome State Fault Refusal := .next s

/-- `RESET`: accepted in `IDLE`, `DONE` and `FAULT` (70_reset_and_hazards R231); no effect in `BUSY` (10_state R26). -/
def execReset (s : State) : Host.Outcome State Fault Refusal :=
  .next (if s.st = .busy then s else resetRegisters s)

/-- The start of `PRSDEC`: the two capacity checks, then the engine starts (41_prs_decoder R100, 60_exceptions R207). A failed
check is a fault of `PRSDEC` (41_prs_decoder R118), after which `ip`, `ctl` and `bi` are unspecified (60_exceptions R208;
log 14). -/
def beginPrsdec (s : State) : State :=
  if Config.bufMax.toNat < s.bufLen.toNat then raisePrs .badLength s.bufLen s
  else if Config.outMax.toNat < s.outLen.toNat then raisePrs .badLength s.outLen s
  else startPrs s

/-- `PRSDEC` (41_prs_decoder R100): this step starts the engine; each later step is one `PRS_Step` (00_scope R6; log 7). -/
def execPrsdec (s : State) : Host.Outcome State Fault Refusal := .next (whenAccepted beginPrsdec s)

end Sys2Proof.Machine
end

