-- ==== Sys2Proof/Machine/KeyDerive.lean ====
section
/-! DEFINITION. Key derivation and the command `KDERIVE` (43_key_derivation R150 to R160). -/

namespace Sys2Proof.Machine

/-- One of the eight inner steps of the CRC (43_key_derivation R150). -/
def crcBit (c : Word) : Word := (c >>> 1) ^^^ (if c.getLsbD 0 then 0xEDB88320 else 0)

/-- One byte of the CRC (43_key_derivation R150). -/
def crcByte (c : Word) (b : Byte) : Word := crcBit^[8] (c ^^^ b.zeroExtend 32)

/-- `CRC32(data)` (43_key_derivation R150). -/
def crc32 (data : List Byte) : Word := data.foldl crcByte 0xFFFFFFFF ^^^ 0xFFFFFFFF

/-- The CRC window `ENT[124 .. 219]`, lowest address first (43_key_derivation R151). -/
def crcWindow (e : Entropy) : List Byte := (List.finRange 96).map fun i => e ⟨124 + i.val, by omega⟩

/-- The big-endian-style word at offset 108 (43_key_derivation R152). -/
def entropyWord (e : Entropy) : Word := be32 (e 108) (e 109) (e 110) (e 111)

/-- The parameters of key derivation (00_scope R4, D17). -/
structure KdParams where
  seedConst : Word
  mixA : Entropy → Word → Word
  mixB : Entropy → Word → Word
  mixFinal : Entropy → Word → Word
  iterCount : Word → Nat

/-- The parameters of this core (log 11). -/
def kdConfig : KdParams where
  seedConst := Config.kdSeedConst
  mixA := Config.kdMixA
  mixB := Config.kdMixB
  mixFinal := Config.kdMixFinal
  iterCount := Config.kdIterCount

/-- The seed (43_key_derivation R153). -/
def kdSeed (p : KdParams) (e : Entropy) (size : Word) : Word :=
  crc32 (crcWindow e) ^^^ entropyWord e ^^^ size ^^^ p.seedConst

/-- The group-1 primary key: the first mix, then the second one `KD_IterCount(seed)` times (43_key_derivation R154 to R156). -/
def kdPrimary (p : KdParams) (e : Entropy) (size : Word) : Word :=
  (p.mixB e)^[p.iterCount (kdSeed p e size)] (p.mixA e (kdSeed p e size))

/-- The five keys (43_key_derivation R157 to R159). -/
def deriveKeys (p : KdParams) (e : Entropy) (size : Word) : KeySet :=
  let k1a := kdPrimary p e size
  let k1b := p.mixFinal e k1a
  { kh := rotl32 k1a 13, k1a := k1a, k1b := k1b, k2a := rotl32 k1a 17, k2b := rotl32 k1b 17 }

/-- The body of `KDERIVE` (43_key_derivation R158). -/
def deriveBody (s : State) : State :=
  endCommand { beginCommand s with keys := deriveKeys kdConfig (entropy s) s.kdSize, kvalid := true }

/-- `KDERIVE` (43_key_derivation R158). -/
def execKderive (s : State) : Host.Outcome State Fault Refusal := .next (whenAccepted deriveBody s)

end Sys2Proof.Machine
end

