-- ==== Sys2Proof/Machine/Prs.lean ====
section
/-! DEFINITION. The meanings of the PRS instructions (41_prs_decoder R104 to R107). The bytes and control bits of the instruction
have been fetched and `ip`, `ctl`, `bi` moved past them when a meaning runs (Machine/Engine.lean); `ipStart` holds the address
the instruction began at. Only the PRS engine runs these, so they check no mode. -/

namespace Sys2Proof.Machine

/-- `LIT` (41_prs_decoder R104). -/
def execLit (d : Byte) (s : State) : Host.Outcome State Fault Refusal := .next (emit d s)

/-- `SHORT` (41_prs_decoder R105). -/
def execShort (a b : Bool) (o : Byte) (s : State) : Host.Outcome State Fault Refusal :=
  .next (copy (shortOffset o) (shortSize a b) s)

/-- `LONG.S` (41_prs_decoder R106). -/
def execLongS (l : BitVec 5) (z : BitVec 3) (h : Byte) (s : State) : Host.Outcome State Fault Refusal :=
  .next (copy (longOffset l h) (longShortSize z) s)

/-- `LONG.L` (41_prs_decoder R106). -/
def execLongL (l : BitVec 5) (h n : Byte) (s : State) : Host.Outcome State Fault Refusal :=
  .next (copy (longOffset l h) (longLongSize n) s)

/-- `EOS` (41_prs_decoder R107). -/
def execEos (s : State) : Host.Outcome State Fault Refusal := .next (finishPrs .eos s)

end Sys2Proof.Machine
end

