-- ==== Sys2Proof/Machine/Dispatch.lean ====
section
/-! DEFINITION. The dispatch of every instruction to its meaning. -/

namespace Sys2Proof.Machine

def exec (i : Instr) (s : State) : Host.Outcome State Fault Refusal :=
  match i with
  -- the PRS bitstream
  | .lit d => Sys2Proof.Machine.execLit d s
  | .short a b o => Sys2Proof.Machine.execShort a b o s
  | .longS l z h => Sys2Proof.Machine.execLongS l z h s
  | .longL l h n => Sys2Proof.Machine.execLongL l h n s
  | .eos => Sys2Proof.Machine.execEos s
  -- the host commands
  | .nop => Sys2Proof.Machine.execNop s
  | .reset => Sys2Proof.Machine.execReset s
  | .prsdec => Sys2Proof.Machine.execPrsdec s
  | .xorpass => Sys2Proof.Machine.execXorpass s
  | .bcdecStd => Sys2Proof.Machine.execBcdecStd s
  | .bcdecCmp => Sys2Proof.Machine.execBcdecCmp s
  | .grpdec => Sys2Proof.Machine.execGrpdec s
  | .hdrdec => Sys2Proof.Machine.execHdrdec s
  | .kderive => Sys2Proof.Machine.execKderive s

end Sys2Proof.Machine
end

