-- ==== Sys2Proof/Machine/Engine.lean ====
section
/-! DEFINITION. What happens around an instruction: one `PRS_Step` of the engine (41_prs_decoder R101), the host's accesses to the
register map and the buffers (10_state R22 to R26, 20_memory R40), and the next input of the machine. Machine/Step.lean only
calls these. -/

namespace Sys2Proof.Machine

/-! ## The PRS engine -/

/-- `PRS_Step` (41_prs_decoder R101): the output-full test, the decoding of the next instruction, its meaning. A stream that
ends inside the instruction faults with the address it began at (R102). The test is D8's `op >= OUT_LEN` (log 12). -/
def prsStep (s : State) : Host.Outcome State Fault Refusal :=
  if s.outLen.toNat ≤ s.op.toNat then .next (finishPrs .full s)
  else
    match decodePrs (fetchPosition s) with
    | .error _ => .next (raisePrs .inputUnderrun s.ip s)
    | .ok (i, r) => exec i (advance r s)

/-! ## The register map -/

/-- A write of an operand register, its value cut to the register's width (10_state R22). Read-only and reserved numbers ignore
the write (10_state R26; log 17). -/
def writeOperand (reg : Nat) (v : Word) (s : State) : State :=
  match reg with
  | 0x04 => { s with bufLen := v }
  | 0x05 => { s with outLen := v }
  | 0x08 => { s with ksel := v.truncate 3 }
  | 0x09 => { s with keyimm := v }
  | 0x0A => { s with shift := v.truncate 5 }
  | 0x0B => { s with kdSize := v }
  | 0x0C => { s with gsel := v.truncate 1 }
  | _ => s

/-- A write of `CMD` (10_state R26): a listed code runs its command, which itself says in which states it has an effect; any
other code faults `IllegalCommand` in `IDLE` and `DONE` (60_exceptions R206) and has no effect elsewhere. -/
def writeCmd (code : Byte) (s : State) : Host.Outcome State Fault Refusal :=
  match decodeCmd code with
  | .ok i => exec i s
  | .error _ => .next (whenAccepted (raise (.illegalCommand, code.zeroExtend 32)) s)

/-- A host write of a register (10_state R22 to R26). -/
def hostWriteReg (reg : Nat) (v : Word) (s : State) : Host.Outcome State Fault Refusal :=
  if reg = 0x00 then writeCmd (v.truncate 8) s else .next (whenAccepted (writeOperand reg v) s)

/-- What a register reads as (10_state R22 to R26): `CMD` and reserved numbers read 0. -/
def readReg (reg : Nat) (s : State) : Word :=
  match reg with
  | 0x01 => (statusReg s).zeroExtend 32
  | 0x02 => s.cause.code.zeroExtend 32
  | 0x03 => s.faddr
  | 0x04 => s.bufLen
  | 0x05 => s.outLen
  | 0x06 => s.ip
  | 0x07 => s.op
  | 0x08 => s.ksel.zeroExtend 32
  | 0x09 => s.keyimm
  | 0x0A => s.shift.zeroExtend 32
  | 0x0B => s.kdSize
  | 0x0C => s.gsel.zeroExtend 32
  | 0x10 => s.keys.kh
  | 0x11 => s.keys.k1a
  | 0x12 => s.keys.k1b
  | 0x13 => s.keys.k2a
  | 0x14 => s.keys.k2b
  | _ => 0

/-- Is the register one of `KEY0..KEY4` (10_state R26)? -/
def isKeyReg (reg : Nat) : Bool := 0x10 ≤ reg && reg ≤ 0x14

/-- A host read of a register. A key register read while `KVALID = 0` returns an unspecified value (10_state R20; log 3). -/
def hostReadReg (reg : Nat) (s : State) : State :=
  if isKeyReg reg && !s.kvalid then { s with hostData := Config.freeKey s.freeCtr, freeCtr := s.freeCtr + 1 }
  else { s with hostData := readReg reg s }

/-! ## The buffers -/

/-- The capacity of a buffer (20_memory R40). -/
def capacity : HostMem → Nat
  | .buf => Config.bufMax.toNat
  | .out => Config.outMax.toNat
  | .ent => 256

/-- A byte of a buffer as the host reads it (20_memory R40). -/
def readByte (m : HostMem) (a : Nat) (s : State) : Byte :=
  match m with
  | .buf => readBuf s a
  | .out => readOut s a
  | .ent => readEnt s a

/-- A byte of a buffer written (20_memory R40). -/
def writeByte (m : HostMem) (a : Nat) (b : Byte) (s : State) : State :=
  match m with
  | .buf => writeBuf a b s
  | .out => { s with out := Memory.set s.out a b }
  | .ent => { s with ent := Memory.set s.ent a b }

/-- A host write of a buffer byte: in `IDLE` and `DONE` (70_reset_and_hazards R240), at an address the buffer has (logs 15, 16). -/
def hostWriteByte (m : HostMem) (a : Nat) (b : Byte) (s : State) : Host.Outcome State Fault Refusal :=
  if capacity m ≤ a then .fault (.noSuchAddress m a)
  else if accepts s then .next (writeByte m a b s)
  else .refused (.hostWriteWhileFaulted m a)

/-- A host read of a buffer byte, at an address the buffer has (log 16). -/
def hostReadByte (m : HostMem) (a : Nat) (s : State) : Host.Outcome State Fault Refusal :=
  if capacity m ≤ a then .fault (.noSuchAddress m a)
  else .next { s with hostData := (readByte m a s).zeroExtend 32 }

/-! ## The next input -/

/-- One move of the host, no command running. -/
def hostMove (h : HostOp) (s : State) : Host.Outcome State Fault Refusal :=
  match h with
  | .writeReg reg v => hostWriteReg reg v s
  | .readReg reg => .next (hostReadReg reg s)
  | .writeByte m a b => hostWriteByte m a b s
  | .readByte m a => hostReadByte m a s
  | .wait => .next s
  | .hardReset => .next (hardReset s)

/-- A `wait` at the head of the pending moves passes with the step of a running command (log 6). -/
def dropWait (s : State) : State :=
  match s.host with
  | .wait :: q => { s with host := q }
  | _ => s

/-- While a command runs the host has no move (20_memory R50): only hardware reset lands (93 U20). A `wait` passes with the
step; any other move stays pending. -/
def busyStep (s : State) : Host.Outcome State Fault Refusal :=
  match s.host with
  | .hardReset :: q => .next (hardReset { s with host := q })
  | _ => prsStep (dropWait s)

/-- With no command running the core does nothing by itself (20_memory R46): the next pending move happens, and with none
pending nothing changes (log 8). -/
def quietStep (s : State) : Host.Outcome State Fault Refusal :=
  match s.host with
  | [] => .next s
  | h :: q => hostMove h { s with host := q }

/-- The bytes listed one after the other from an address. -/
def placeBytes : List Byte → Nat → List Host.Cell → List Host.Cell
  | [], _, m => m
  | b :: bs, a, m => placeBytes bs (a + 1) (Memory.set m a b)

/-- The state whose next step runs a PRS instruction given as bytes (log 19): a `PRSDEC` running, the bytes at `ip`, the stream
ending after them, a control byte to be fetched first, and room in the output. -/
def placePrs (bytes : List Byte) (s : State) : State :=
  { s with
    st := .busy
    host := .wait :: s.host
    bi := 8
    buf := placeBytes bytes s.ip.toNat s.buf
    bufLen := s.ip + BitVec.ofNat 32 bytes.length
    outLen := if s.outLen.toNat ≤ s.op.toNat then s.op + 1#32 else s.outLen }

/-- The state whose next step runs a command given by its code (log 19): no command running, and the host's next move is the
write of `CMD`. -/
def placeCmd (code : Byte) (s : State) : State :=
  { s with
    st := if s.st = .busy then .idle else s.st
    host := .writeReg 0x00 (code.zeroExtend 32) :: s.host }

end Sys2Proof.Machine
end

