-- ==== Sys2Proof/Machine/Step.lean ====
section
/-! DEFINITION. One step of the machine (00_scope R6): while a command runs, one PRS instruction; otherwise the host's next move. -/

namespace Sys2Proof.Machine

/-- One step. -/
def step (s : State) : Host.Outcome State Fault Refusal :=
  if s.st = .busy then busyStep s else quietStep s

/-- The state `s` with an opcode-table word stored where `step` takes its next instruction from (log 19). -/
def State.withFetchWord (s : State) (nbits w : Nat) : State :=
  if nbits = 8 then placeCmd (BitVec.ofNat 8 w) s else placePrs (tableBytes nbits w) s

end Sys2Proof.Machine
end

