-- ==== Sys2Proof/Machine/Resolver.lean ====
section
/-! DEFINITION. The overlap resolver: range algebra, range sets and `align_ranges_over_cut` (40_range_algebra R80 to R95), and
the mechanism that copies a back-reference by parts (41_prs_decoder R112). The meanings use the reference form of R110, whose
result the spec says is the same; that the two agree is a statement about this file. -/

namespace Sys2Proof.Machine

/-- A range, both ends included (00_scope R7). -/
structure Range where
  start : Int
  stop : Int
  deriving DecidableEq, Repr

/-- `length(r)` (40_range_algebra R80). -/
def rangeLength (r : Range) : Int := r.stop - r.start + 1

/-- `contains(r, v)` (40_range_algebra R81). -/
def rangeContains (r : Range) (v : Int) : Bool := r.start ≤ v && v ≤ r.stop

/-- `intersects(a, b)` (40_range_algebra R82). -/
def rangeIntersects (a b : Range) : Bool :=
  rangeContains a b.start || rangeContains a b.stop || rangeContains b a.start || rangeContains b a.stop

/-- `intersection(a, b)`, the sentinel `(-1, -1)` if disjoint (40_range_algebra R83). -/
def rangeIntersection (a b : Range) : Range :=
  if rangeIntersects a b then ⟨max a.start b.start, min a.stop b.stop⟩ else ⟨-1, -1⟩

/-- Cut the range of a side that has a position inside it, before that position (40_range_algebra R85). -/
def cutBefore (p : Int) (side : List Range) : List Range :=
  side.flatMap fun r => if r.start < p ∧ p ≤ r.stop then [⟨r.start, p - 1⟩, ⟨p, r.stop⟩] else [r]

/-- `RANGESET_CAP` (00_scope R4). -/
abbrev rangeSetCap : Nat := 3

/-- `split_at(side, lo, hi)` (40_range_algebra R85); none if the side would exceed its capacity (R86, `ResolverDefect`). -/
def splitAt (side : List Range) (lo hi : Int) : Option (List Range) :=
  let t := cutBefore (hi + 1) (cutBefore lo side)
  if t.length ≤ rangeSetCap then some t else none

/-- Both sides split at the intersection of two ranges, if they intersect (40_range_algebra R89, R91). -/
def splitBoth (a b : Range) (sides : List Range × List Range) : Option (List Range × List Range) :=
  if rangeIntersects a b then
    let x := rangeIntersection a b
    match splitAt sides.1 x.start x.stop, splitAt sides.2 x.start x.stop with
    | some s, some d => some (s, d)
    | _, _ => none
  else some sides

/-- The ranges of a side moved by a distance (40_range_algebra R90, R92). -/
def shiftSide (by_ : Int) (side : List Range) : List Range := side.map fun r => ⟨r.start + by_, r.stop + by_⟩

/-- The part of a side with an index, the last one for a larger index (40_range_algebra R91). -/
def clampedPart (side : List Range) (i : Nat) : Range := side.getD (min i (side.length - 1)) ⟨0, 0⟩

/-- Step 2, self-overlap splitting (40_range_algebra R89). -/
def splitSelfOverlap (sides : List Range × List Range) : Option (List Range × List Range) :=
  match sides with
  | ([a], [b]) => splitBoth a b sides
  | _ => some sides

/-- Step 4, propagation, the loop bound taken before the loop (40_range_algebra R91). -/
def propagate (sides : List Range × List Range) : Option (List Range × List Range) :=
  (List.range (max sides.1.length sides.2.length)).foldlM
    (fun t i => splitBoth (clampedPart t.1 i) (clampedPart t.2 i) t) sides

/-- `align_ranges_over_cut(src, dst, cut)` (40_range_algebra R87 to R92, R95): the two sides, whose common length is the part
count. None for unequal lengths (R87, 93 U10) and on `ResolverDefect` (R86, 93 U9). -/
def alignRangesOverCut (src dst : Range) (cut : Int) : Option (List Range × List Range) :=
  if rangeLength src ≠ rangeLength dst then none
  else do
    let t ← splitSelfOverlap (cutBefore cut [src], cutBefore cut [dst])
    let t ← propagate (shiftSide (-src.start) t.1, shiftSide (-dst.start) t.2)
    some (shiftSide src.start t.1, shiftSide dst.start t.2)

/-- The physical address of a position in unnormalised coordinates (20_memory R43). -/
def physical (v : Int) : Fin 8191 := ⟨(v % 8191).toNat, by omega⟩

/-- One byte of a sub-copy: `HIST`, `OUT` and `op`, the cursor not moving (41_prs_decoder R112). -/
def moveByte (b : Byte) (dst : Int) (s : State) : State :=
  { s with hist := Memory.set s.hist (physical dst).val b, out := Memory.set s.out s.op.toNat b, op := s.op + 1#32 }

/-- A sub-copy of `n` bytes, ascending, each byte read after the one before is written (41_prs_decoder R112, D11). -/
def moveBytes (src dst : Int) : Nat → State → State
  | 0, s => s
  | n + 1, s =>
    let t := moveBytes src dst n s
    moveByte (readHist t (physical (src + n))) (dst + n) t

/-- The sub-copies of the pairs, left to right (41_prs_decoder R112). -/
def moveParts : List (Range × Range) → State → State
  | [], s => s
  | (a, b) :: ps, s => moveParts ps (moveBytes a.start b.start (rangeLength a).toNat s)

/-- A single block copy: every byte read from the state before the copy (41_prs_decoder R112 (1)). -/
def moveBlock (src dst : Int) (before : State) : Nat → State
  | 0 => before
  | n + 1 => moveByte (readHist before (physical (src + n))) (dst + n) (moveBlock src dst before n)

/-- `n` bytes of a back-reference by the mechanism: the fast path, or the parts of the resolver; then the cursor moves by `n`
(41_prs_decoder R112). None only on a defect of the resolver. -/
def copyByParts (off : Int) (n : Nat) (s : State) : Option State :=
  let src : Range := ⟨(histIndex s.wc off).val, (histIndex s.wc off).val + n - 1⟩
  let dst : Range := ⟨s.wc.val, s.wc.val + n - 1⟩
  let moved : Option State :=
    if src.stop < 8191 ∧ dst.stop < 8191 ∧ rangeIntersects src dst = false then some (moveBlock src.start dst.start s n)
    else (alignRangesOverCut src dst 8191).map fun sides => moveParts (sides.1.zip sides.2) s
  moved.map fun t => { t with wc := physical (s.wc.val + n) }

end Sys2Proof.Machine
end

