-- ==== Sys2Proof/Safety.lean ====
section
/-! DEFINITION. What claims are stated in: runs of several steps, the invariants of the machine, and the outcomes a claim may
call a completion. -/

namespace Sys2Proof.Machine

/-- `n` steps, stopping at the first fault or refusal. -/
def stepN : Nat → State → Host.Outcome State Fault Refusal
  | 0, s => .next s
  | n + 1, s =>
    match step s with
    | .next t => stepN n t
    | .fault r => .fault r
    | .refused r => .refused r

/-- All four memories are in canonical form and list only addresses their space has (20_memory R40). -/
structure State.MemoryOk (s : State) : Prop where
  buf_wf : Memory.wf s.buf
  out_wf : Memory.wf s.out
  hist_wf : Memory.wf s.hist
  ent_wf : Memory.wf s.ent
  buf_within : Memory.within Config.bufMax.toNat s.buf
  out_within : Memory.within Config.outMax.toNat s.out
  hist_within : Memory.within 8191 s.hist
  ent_within : Memory.within 256 s.ent

/-- The fault registers and `END` agree with `STATE` (10_state R23 to R25). -/
structure State.StatusOk (s : State) : Prop where
  cause_iff : s.cause = .none ↔ s.st ≠ .fault
  faddr_zero : s.st ≠ .fault → s.faddr = 0
  ending_done : s.ending ≠ .none → s.st = .done

/-- The key registers hold one derivation's keys (10_state R20, 43_key_derivation R159). -/
def State.KeysOk (s : State) : Prop :=
  s.kvalid = true →
    s.keys.kh = rotl32 s.keys.k1a 13 ∧ s.keys.k2a = rotl32 s.keys.k1a 17 ∧ s.keys.k2b = rotl32 s.keys.k1b 17

/-- `HIST[q mod 8191]` holds `OUT[q]` for the last 8191 produced bytes `q` (41_prs_decoder R108). -/
def State.HistoryOk (s : State) : Prop :=
  ∀ q, q < s.op.toNat → s.op.toNat ≤ q + 8191 →
    Memory.get s.hist (q % 8191) = Memory.get s.out q ∧ (Memory.get s.out q).isSome

/-- While `PRSDEC` runs: the positions are within their lengths, the lengths within the capacities, the cursor is `op mod 8191`
and the history holds the output (10_state R12, R15; 41_prs_decoder R100, R108). -/
structure State.EngineOk (s : State) : Prop where
  ip_le : s.ip.toNat ≤ s.bufLen.toNat
  buf_le : s.bufLen.toNat ≤ Config.bufMax.toNat
  op_le : s.op.toNat ≤ s.outLen.toNat
  out_le : s.outLen.toNat ≤ Config.outMax.toNat
  cursor : s.wc.val = s.op.toNat % 8191
  history : s.HistoryOk

/-- The engine invariant holds whenever a command runs. -/
def State.RunOk (s : State) : Prop := s.st = .busy → s.EngineOk

/-- No hardware reset is among the pending inputs. -/
def State.NoHardReset (s : State) : Prop := HostOp.hardReset ∉ s.host

/-- The next input is not a hardware reset. -/
def State.NotResetNow (s : State) : Prop := s.host.head? ≠ some .hardReset

/-- The key operand that `SelKey()` finds (42_cipher R133): `KEY[KSEL]` of valid keys for `KSEL` 0 to 4, `KEYIMM` for 5. -/
def State.Selects (s : State) (key : Word) : Prop :=
  (s.kvalid = true ∧
    ((s.ksel = 0 ∧ key = s.keys.kh) ∨ (s.ksel = 1 ∧ key = s.keys.k1a) ∨ (s.ksel = 2 ∧ key = s.keys.k1b) ∨
      (s.ksel = 3 ∧ key = s.keys.k2a) ∨ (s.ksel = 4 ∧ key = s.keys.k2b))) ∨
  (s.ksel = 5 ∧ key = s.keyimm)

/-- The state after fault entry and nothing else (60_exceptions R205). -/
def State.faulted (s : State) (c : Cause) (info : Word) : State :=
  { s with cause := c, faddr := info, st := .fault, ending := .none }

/-- `t` is the state after a fault of `PRSDEC` in `s` (60_exceptions R205, R208): fault entry, `ip`, `ctl` and `bi` unspecified
(log 4), `HIST` unspecified because the run has ended (10_state R16; log 2), everything else as in `s`. -/
def State.PrsFaulted (s : State) (c : Cause) (info : Word) (t : State) : Prop :=
  t.cause = c ∧ t.faddr = info ∧ t.st = .fault ∧ t.ending = .none ∧
    t = { s with
      cause := t.cause, faddr := t.faddr, st := t.st, ending := t.ending, ip := t.ip, ctl := t.ctl, bi := t.bi
      hist := t.hist, histEpoch := t.histEpoch, freeCtr := t.freeCtr }

/-- `t` is the state after the engine stopped `DONE` in `s` (41_prs_decoder R101, R107): `STATUS` written, `HIST` unspecified
because the run has ended (10_state R16; log 2), everything else as in `s`. -/
def State.PrsEnded (s : State) (e : EndKind) (t : State) : Prop :=
  t.st = .done ∧ t.ending = e ∧
    t = { s with st := t.st, ending := t.ending, hist := t.hist, histEpoch := t.histEpoch }

/-- The state after a cipher command: `BUF` as given, `STATUS` at `DONE`, `NONE`, nothing else changed (42_cipher R139). -/
def State.finished (s : State) (buf : List Host.Cell) : State := { s with buf := buf, st := .done, ending := .none }

/-- An instruction copies `size` bytes from `off` places back, clamped at the end of the output (41_prs_decoder R110, R115), from
every state that holds the output in its history and has room: each byte is the one `d` places back, also where the copy
overlaps itself, and nothing but `OUT`, `op`, `HIST` and `wc` changes. -/
def CopiesBack (i : Instr) (off : Int) (size : Nat) : Prop :=
  ∀ s : State, s.HistoryOk → s.wc.val = s.op.toNat % 8191 → s.op.toNat < s.outLen.toNat → -off ≤ (s.op.toNat : Int) →
    ∃ t : State, exec i s = .next t ∧
      t.op.toNat = s.op.toNat + min size (s.outLen.toNat - s.op.toNat) ∧
      (∀ p, s.op.toNat ≤ p → p < t.op.toNat → readOut t p = readOut t (p - ((-off - 1) % 8191 + 1).toNat)) ∧
      (∀ p, p < s.op.toNat ∨ t.op.toNat ≤ p → readOut t p = readOut s p) ∧
      t.HistoryOk ∧ t.wc.val = t.op.toNat % 8191 ∧
      t = { s with out := t.out, op := t.op, hist := t.hist, wc := t.wc }

/-- The two states agree on every register a command's operands come from (10_state R22). -/
def State.SameOperands (s t : State) : Prop :=
  t.bufLen = s.bufLen ∧ t.outLen = s.outLen ∧ t.ksel = s.ksel ∧ t.keyimm = s.keyimm ∧ t.shift = s.shift ∧
    t.kdSize = s.kdSize ∧ t.gsel = s.gsel

end Sys2Proof.Machine
end

