-- ==== Sys2Proof/Certificates/Slice0/Obligations.lean ====
section
/-! DEFINITION. The statements for the provers. Each cites the rule of the spec it comes from. -/

open Sys2Proof Sys2Proof.Machine

/-! ## Reset and idling -/

/-- After hardware reset, at any time, every register holds its reset value, the contents of the four memories are unspecified
anew (nothing listed, a new epoch of free values), and the core runs nothing until an input comes (70_reset_and_hazards R230,
10_state R31). -/
def Obligations.HardwareResetSetsRegisters : Prop :=
  ∀ (s : State) (q : List HostOp), s.host = .hardReset :: q →
    ∃ t : State, step s = .next t ∧ statusReg t = 0 ∧ t.st = .idle ∧ t.ending = .none ∧ t.kvalid = false ∧ t.cause = .none ∧
      t.faddr = 0 ∧ t.ip = 0 ∧ t.op = 0 ∧ t.wc.val = 0 ∧ t.ctl = 0 ∧ t.bi = 8 ∧ t.bufLen = 0 ∧ t.outLen = 0 ∧ t.keyimm = 0 ∧
      t.kdSize = 0 ∧ t.gsel = 0 ∧ t.ksel = 5 ∧ t.shift = 16 ∧ t.buf = [] ∧ t.out = [] ∧ t.ent = [] ∧ t.hist = [] ∧
      t.memEpoch = s.memEpoch + 1 ∧ t.histEpoch = s.histEpoch + 1 ∧ (q = [] → ∀ n : Nat, stepN n t = .next t)

/-- The reset state has the same values, and with no input pending the core runs nothing (70_reset_and_hazards R230,
20_memory R46). -/
def Obligations.ResetStateIsIdle : Prop :=
  (State.reset.st = .idle ∧ statusReg State.reset = 0 ∧ State.reset.cause.code = 0 ∧ State.reset.faddr = 0 ∧
    State.reset.ip = 0 ∧ State.reset.ctl = 0 ∧ State.reset.bi = 8 ∧ State.reset.wc.val = 0 ∧ State.reset.op = 0 ∧
    State.reset.bufLen = 0 ∧ State.reset.outLen = 0 ∧ State.reset.ksel = 5 ∧ State.reset.keyimm = 0 ∧
    State.reset.shift = 16 ∧ State.reset.kdSize = 0 ∧ State.reset.gsel = 0) ∧
  ∀ (s : State) (n : Nat), s.st ≠ .busy → s.host = [] → stepN n s = .next s

/-- The invariants hold at reset. -/
def Obligations.ResetHasInvariants : Prop :=
  State.reset.MemoryOk ∧ State.reset.RunOk ∧ State.reset.StatusOk ∧ State.reset.KeysOk

/-- `RESET` in `IDLE`, `DONE` or `FAULT` sets every register to its reset value and leaves `BUF`, `OUT` and `ENT` as they are, `HIST`
unspecified; in `BUSY` it has no effect; and no other command leads out of `FAULT` (70_reset_and_hazards R231, 10_state R26). -/
def Obligations.ResetCommandSetsRegisters : Prop :=
  ∀ s : State,
    (s.st ≠ .busy → ∃ t : State, exec .reset s = .next t ∧ statusReg t = 0 ∧ t.st = .idle ∧ t.ending = .none ∧
      t.kvalid = false ∧ t.cause = .none ∧ t.faddr = 0 ∧ t.ip = 0 ∧ t.op = 0 ∧ t.wc.val = 0 ∧ t.ctl = 0 ∧ t.bi = 8 ∧
      t.bufLen = 0 ∧ t.outLen = 0 ∧ t.keyimm = 0 ∧ t.kdSize = 0 ∧ t.gsel = 0 ∧ t.ksel = 5 ∧ t.shift = 16 ∧
      t.buf = s.buf ∧ t.out = s.out ∧ t.ent = s.ent ∧ t.memEpoch = s.memEpoch ∧ t.hist = [] ∧ t.histEpoch = s.histEpoch + 1) ∧
    (s.st = .busy → exec .reset s = .next s) ∧
    (∀ (i : Instr) (t : State), i.isPrs = false → s.st = .fault → exec i s = .next t → t.st ≠ .fault → i = .reset)

/-- `NOP` has no effect at all, as an instruction in every state and as a code written to `CMD` (30_encoding R70). -/
def Obligations.NopChangesNothing : Prop :=
  (∀ s : State, exec .nop s = .next s) ∧
  ∀ (s : State) (v : Word) (q : List HostOp), s.st ≠ .busy → s.host = .writeReg 0x00 v :: q → v.toNat % 256 = 0 →
    step s = .next { s with host := q }

/-! ## One step -/

/-- While a command runs, the output is not full and no hardware reset lands, a step is the meaning of the instruction the
stream spells at the fetch position, run past that instruction (41_prs_decoder R101). -/
def Obligations.StepRunsPrsInstruction : Prop :=
  ∀ (s : State) (i : Instr) (r : Reader), s.st = .busy → s.NotResetNow → s.op.toNat < s.outLen.toNat →
    decodePrs (fetchPosition s) = .ok (i, r) →
    step s = exec i { dropWait s with
      ipStart := s.ip, ip := s.ip + BitVec.ofNat 32 r.used, ctl := r.ctl, bi := r.bi }

/-- With no command running, a write of a listed code to `CMD` runs that command (10_state R26, 30_encoding R70). -/
def Obligations.StepRunsWrittenCommand : Prop :=
  ∀ (s : State) (i : Instr) (v : Word) (q : List HostOp), s.st ≠ .busy → s.host = .writeReg 0x00 v :: q →
    encode i = .command (v.truncate 8) → step s = exec i { s with host := q }

/-- The output-full test comes first: when the output is full a step ends the run `DONE`, `FULL`, fetches nothing and changes
nothing else but `HIST`, whose contents are unspecified after the end (41_prs_decoder R101, 10_state R16). -/
def Obligations.FullOutputEndsRun : Prop :=
  ∀ s : State, s.st = .busy → s.NotResetNow → s.op = s.outLen →
    ∃ t : State, step s = .next t ∧ (dropWait s).PrsEnded .full t

/-- A stream that ends inside an instruction faults `InputUnderrun`: `FADDR` is the address the instruction began at, nothing is
emitted, and only the fault registers and the unspecified `ip`, `ctl`, `bi` and `HIST` change (41_prs_decoder R102,
60_exceptions R202, R208, 10_state R16). -/
def Obligations.ExhaustedStreamFaults : Prop :=
  ∀ (s : State) (e : DecodeError), s.st = .busy → s.NotResetNow → s.op.toNat < s.outLen.toNat →
    decodePrs (fetchPosition s) = .error e →
    ∃ t : State, step s = .next t ∧ (dropWait s).PrsFaulted .inputUnderrun s.ip t

/-- No instruction stops the machine: every meaning answers a next state. -/
def Obligations.EveryInstructionAnswersNext : Prop :=
  ∀ (i : Instr) (s : State), ∃ t : State, exec i s = .next t

/-- A step stops only on a host access to a buffer byte (the model's stops, logs 15 and 16). -/
def Obligations.StepStopsOnlyOnHostAccess : Prop :=
  ∀ s : State, (∀ t : State, step s ≠ .next t) →
    s.st ≠ .busy ∧ ∃ (m : HostMem) (a : Nat) (q : List HostOp),
      (s.host = .readByte m a :: q ∧ step s = .fault (.noSuchAddress m a)) ∨
      (∃ b : Byte, s.host = .writeByte m a b :: q ∧
        (step s = .fault (.noSuchAddress m a) ∨ (s.st = .fault ∧ step s = .refused (.hostWriteWhileFaulted m a))))

/-! ## PRS instructions -/

/-- `LIT` writes its byte to `OUT[op]` and `HIST[wc]`, moves both on, the cursor wrapping at 8191, and changes nothing else
(41_prs_decoder R104, R108). -/
def Obligations.LiteralEmitsItsByte : Prop :=
  ∀ (d : Byte) (s : State), s.op.toNat < s.outLen.toNat →
    ∃ t : State, exec (.lit d) s = .next t ∧ t.op.toNat = s.op.toNat + 1 ∧ t.wc.val = (s.wc.val + 1) % 8191 ∧
      readOut t s.op.toNat = d ∧ (∀ a, a ≠ s.op.toNat → readOut t a = readOut s a) ∧
      readHist t s.wc = d ∧ (∀ a, a ≠ s.wc → readHist t a = readHist s a) ∧
      t = { s with out := t.out, op := t.op, hist := t.hist, wc := t.wc }

/-- `SHORT` copies `2 + 2a + b` bytes from `o - 256` places (41_prs_decoder R105, R110, 30_encoding R62). -/
def Obligations.ShortCopiesBack : Prop :=
  ∀ (a b : Bool) (o : Byte),
    CopiesBack (.short a b o) ((o.toNat : Int) - 256) (2 + (if a then 2 else 0) + (if b then 1 else 0))

/-- `LONG.S` copies `s + 2` bytes from `(byte1 << 5) + (byte0 >> 3) - 8192` places, for every pair of bytes that spells it
(41_prs_decoder R106, R110, 30_encoding R63). -/
def Obligations.LongShortSizeCopiesBack : Prop :=
  ∀ byte0 byte1 : Byte, byte0.toNat % 8 ≠ 0 →
    CopiesBack (.longS (byte0.extractLsb' 3 5) (byte0.extractLsb' 0 3) byte1)
      ((byte1.toNat * 32 + byte0.toNat / 8 : Nat) - 8192) (byte0.toNat % 8 + 2)

/-- `LONG.L` copies `byte2 + 10` bytes from `(byte1 << 5) + (byte0 >> 3) - 8192` places, for every three bytes that spell it
(41_prs_decoder R106, R110, 30_encoding R64). -/
def Obligations.LongLongSizeCopiesBack : Prop :=
  ∀ byte0 byte1 byte2 : Byte, byte0.toNat % 8 = 0 → ¬(byte0 = 0 ∧ byte1 = 0) →
    CopiesBack (.longL (byte0.extractLsb' 3 5) byte1 byte2)
      ((byte1.toNat * 32 + byte0.toNat / 8 : Nat) - 8192) (byte2.toNat + 10)

/-- A back-reference that reaches before the first byte produced faults `CorruptData` with the address it began at and emits
nothing; one that does not is no fault; no encodable offset is zero (41_prs_decoder R111, 60_exceptions R201). -/
def Obligations.OutOfRangeBackReferenceFaults : Prop :=
  ∀ (i : Instr) (off : Int) (s : State),
    ((∃ a b o, i = .short a b o ∧ off = (o.toNat : Int) - 256) ∨
      (∃ l z h, i = .longS l z h ∧ off = ((h.toNat * 32 + l.toNat : Nat) : Int) - 8192) ∨
      (∃ l h n, i = .longL l h n ∧ off = ((h.toNat * 32 + l.toNat : Nat) : Int) - 8192)) →
    s.st = .busy →
    off ≤ -1 ∧ ∃ t : State, exec i s = .next t ∧ (t.st = .fault ↔ (s.op.toNat : Int) < -off) ∧
      ((s.op.toNat : Int) < -off → s.PrsFaulted .corruptData s.ipStart t)

/-- `EOS` ends the run `DONE`, `EOS` and changes nothing else but `HIST`, whose contents are unspecified after the end; in a
running engine, control bits `0, 1` and two zero bytes are `EOS`, and no third byte is fetched (41_prs_decoder R107,
10_state R16, 30_encoding R65). -/
def Obligations.EndOfStreamEndsRun : Prop :=
  (∀ s : State, ∃ t : State, exec .eos s = .next t ∧ s.PrsEnded .eos t) ∧
  ∀ s : State, s.st = .busy → s.NotResetNow → s.op.toNat < s.outLen.toNat → s.ip.toNat + 2 ≤ s.bufLen.toNat →
    s.bi.val ≤ 6 → s.ctl.getLsbD s.bi.val = false → s.ctl.getLsbD (s.bi.val + 1) = true →
    readBuf s s.ip.toNat = 0 → readBuf s (s.ip.toNat + 1) = 0 →
    ∃ t : State, step s = .next t ∧ t.st = .done ∧ t.ending = .eos ∧ t.ip.toNat = s.ip.toNat + 2 ∧ t.bi.val = s.bi.val + 2 ∧
      t = { dropWait s with
        st := t.st, ending := t.ending, ip := t.ip, ipStart := s.ip, bi := t.bi, hist := t.hist, histEpoch := t.histEpoch }

/-- Offset -8192 behaves like offset -1 once 8192 bytes are produced, and offset -8191 rewrites each history byte with its own value
once 8191 are; before that both fault (41_prs_decoder R114, 20_memory R43). -/
def Obligations.FarthestOffsetsAlias : Prop :=
  ∀ (z : BitVec 3) (n : Byte) (s : State),
    (8192 ≤ s.op.toNat → exec (.longS 0 z 0) s = exec (.longS 31 z 255) s) ∧
    (s.op.toNat < 8192 → ∃ t : State, exec (.longS 0 z 0) s = .next t ∧ t.st = .fault ∧ t.cause = .corruptData) ∧
    ∀ i : Instr, i = .longS 1 z 0 ∨ i = .longL 1 0 n →
      (8191 ≤ s.op.toNat → ∃ t : State, exec i s = .next t ∧ t.st = s.st ∧ ∀ a, readHist t a = readHist s a) ∧
      (s.op.toNat < 8191 → ∃ t : State, exec i s = .next t ∧ t.st = .fault ∧ t.cause = .corruptData)

/-- A PRS instruction writes only the engine's registers, `HIST` and `OUT`, and the status registers; it reads `BUF` and the
operand registers and changes none of them, nor the keys, `ENT` or the host's side (10_state R11, 20_memory R49). -/
def Obligations.PrsInstructionsWriteOnlyEngineState : Prop :=
  ∀ (i : Instr) (s t : State), i.isPrs = true → exec i s = .next t →
    t = { s with
          ip := t.ip, ctl := t.ctl, bi := t.bi, wc := t.wc, op := t.op, hist := t.hist, histEpoch := t.histEpoch
          out := t.out, st := t.st, ending := t.ending, cause := t.cause, faddr := t.faddr, freeCtr := t.freeCtr }

/-- A fault of the running engine is precise: `OUT`, `op` and `BUF` are as before the step, `FADDR` is the address the faulting
instruction began at, and the cause is `CorruptData` or `InputUnderrun` (60_exceptions R208, 10_state R25). -/
def Obligations.EngineFaultsArePrecise : Prop :=
  ∀ s t : State, s.st = .busy → step s = .next t → t.st = .fault →
    t.out = s.out ∧ t.op = s.op ∧ t.buf = s.buf ∧ t.faddr = s.ip ∧
      (t.cause = .corruptData ∨ t.cause = .inputUnderrun)

/-! ## The copy mechanism -/

/-- The mechanism of the fast path and the range-split resolver gives the reference result: the whole state, for every cursor,
every encodable offset and every size up to the largest (41_prs_decoder R112, R110). -/
def Obligations.CopyMechanismMatchesReference : Prop :=
  ∀ (off : Int) (n : Nat) (s : State), -8192 ≤ off → off ≤ -1 → 1 ≤ n → n ≤ 265 →
    copyByParts off n s = some (copyBytes off n s)

/-- Range alignment of two equal-length ranges: never a defect, the same number of parts on both sides, 1 to 3, each side
partitioning its range, paired parts of equal length, and no part across the cut (40_range_algebra R93). -/
def Obligations.RangeAlignmentInvariants : Prop :=
  ∀ (src dst : Range) (cut : Int), src.start ≤ src.stop → rangeLength src = rangeLength dst →
    ∃ S D : List Range, alignRangesOverCut src dst cut = some (S, D) ∧ S.length = D.length ∧ 1 ≤ S.length ∧ S.length ≤ 3 ∧
      S.map rangeLength = D.map rangeLength ∧
      (∀ r ∈ S ++ D, r.start ≤ r.stop ∧ ¬(r.start < cut ∧ cut ≤ r.stop)) ∧
      S.head?.map Range.start = some src.start ∧ S.getLast?.map Range.stop = some src.stop ∧
      D.head?.map Range.start = some dst.start ∧ D.getLast?.map Range.stop = some dst.stop ∧
      S.IsChain (fun a b => b.start = a.stop + 1) ∧ D.IsChain (fun a b => b.start = a.stop + 1)

/-- The range algebra: length, membership, intersection test and intersection (40_range_algebra R80 to R83). -/
def Obligations.RangeAlgebraMeanings : Prop :=
  ∀ a b : Range, a.start ≤ a.stop → b.start ≤ b.stop →
    rangeLength a = a.stop - a.start + 1 ∧ 1 ≤ rangeLength a ∧
    (∀ v, rangeContains a v = true ↔ a.start ≤ v ∧ v ≤ a.stop) ∧
    (rangeIntersects a b = true ↔ rangeContains a b.start = true ∨ rangeContains a b.stop = true ∨
      rangeContains b a.start = true ∨ rangeContains b a.stop = true) ∧
    (rangeIntersects a b = true ↔ ∃ v, rangeContains a v = true ∧ rangeContains b v = true) ∧
    (rangeIntersects a b = true ↔ max a.start b.start ≤ min a.stop b.stop) ∧
    rangeIntersection a b =
      if max a.start b.start ≤ min a.stop b.stop then ⟨max a.start b.start, min a.stop b.stop⟩ else ⟨-1, -1⟩

/-! ## Decoding and encoding -/

/-- Decoding what the assembler packs gives the program back, whatever bytes follow it, and stops right after it: for every list
of well-formed PRS instructions (30_encoding R72, R66, 41_prs_decoder R103). -/
def Obligations.DecodeInvertsAssemble : Prop :=
  ∀ (prog : List Instr) (tail : List Byte), (∀ i ∈ prog, i.wf = true ∧ i.isPrs = true) →
    ∃ r : Reader, decodeMany prog.length (Reader.start (assemble prog ++ tail)) = .ok (prog, r) ∧ r.rest = tail ∧
      r.used = (assemble prog).length

/-- The decode tree is total: with five bytes left every stream decodes, to a well-formed PRS instruction, and decoding fails
only for want of bytes (30_encoding R66, R68). -/
def Obligations.DecodeTreeIsTotal : Prop :=
  ∀ r : Reader,
    (5 ≤ r.rest.length → ∃ (i : Instr) (q : Reader), decodePrs r = .ok (i, q)) ∧
    (∀ (i : Instr) (q : Reader), decodePrs r = .ok (i, q) →
      i.isPrs = true ∧ i.wf = true ∧ r.rest = r.rest.take (q.used - r.used) ++ q.rest ∧ r.used < q.used + 1 ∧
        q.used ≤ r.used + 5) ∧
    (∀ e : DecodeError, decodePrs r = .error e → e = .inputUnderrun ∧ r.rest.length ≤ 4)

/-- The bytes after an instruction are never examined: they change neither what is decoded nor where the reader stops
(41_prs_decoder R118, 30_encoding R68). -/
def Obligations.LaterBytesAreNotExamined : Prop :=
  ∀ (r q : Reader) (i : Instr) (more : List Byte), decodePrs r = .ok (i, q) →
    decodePrs { r with rest := r.rest ++ more } = .ok (i, { q with rest := q.rest ++ more })

/-- `CtlBit()` fetches a control byte only when all eight bits are used, and delivers bit 0 first (41_prs_decoder R103). -/
def Obligations.ControlBitsRefillLazily : Prop :=
  ∀ r : Reader,
    (∀ k : Nat, k < 8 → r.bi.val = k →
      ∃ q : Reader, r.ctlBit = .ok (r.ctl.getLsbD k, q) ∧ q.bi.val = k + 1 ∧ q.ctl = r.ctl ∧ q.rest = r.rest ∧
        q.used = r.used) ∧
    (r.bi.val = 8 →
      (r.rest = [] → r.ctlBit = .error .inputUnderrun) ∧
      (∀ (c : Byte) (cs : List Byte), r.rest = c :: cs →
        ∃ q : Reader, r.ctlBit = .ok (c.getLsbD 0, q) ∧ q.bi.val = 1 ∧ q.ctl = c ∧ q.rest = cs ∧ q.used = r.used + 1))

/-- The command codes: a code is the encoding of exactly the command it decodes to, and a code no command has is refused
(30_encoding R70). -/
def Obligations.CommandCodesRoundTrip : Prop :=
  (∀ (code : Byte) (i : Instr), decodeCmd code = .ok i ↔ encode i = .command code) ∧
  ∀ code : Byte, (∀ i : Instr, encode i ≠ .command code) → decodeCmd code = .error .illegalCommand

/-- Words written out from the formats decode to what they stand for (30_encoding R61 to R65, R70). How `decodeTableWord` numbers
the bits of a word (8 bits a command code, the leftmost bit of a PRS pattern the highest) is the model's choice: log 19. -/
def Obligations.WrittenOutWordsDecode : Prop :=
  decodeTableWord 9 0b101000001 = some (.lit 0x41) ∧
  decodeTableWord 12 0b001111111111 = some (.short true true 0xFF) ∧
  decodeTableWord 18 0b011110111111111111 = some (.longS 29 7 0xFF) ∧
  decodeTableWord 26 0b01101000001111111100001010 = some (.longL 20 0xFF 0x0A) ∧
  decodeTableWord 18 0b010000000000000000 = some .eos ∧
  decodeTableWord 8 0x23 = some .grpdec ∧ decodeTableWord 8 0x7F = none

/-! ## `PRSDEC` -/

/-- `PRSDEC` in `IDLE` or `DONE`: `BadLength` for a length above its capacity, `BUF_LEN` first; otherwise the engine starts with
every engine register at its start value (41_prs_decoder R100, 60_exceptions R207). That the start is a step of its own is
the model's choice (log 7), and so is the reading that `BadLength` too leaves `ip`, `ctl`, `bi` and `HIST` unspecified, as
60_exceptions R208 and 10_state R16 say of every fault and end of `PRSDEC` (logs 2, 4 and 14). -/
def Obligations.PrsdecStartsEngine : Prop :=
  ∀ s : State, accepts s = true →
    ∃ t : State, exec .prsdec s = .next t ∧
      if Config.bufMax.toNat < s.bufLen.toNat then s.PrsFaulted .badLength s.bufLen t
      else if Config.outMax.toNat < s.outLen.toNat then s.PrsFaulted .badLength s.outLen t
      else t.st = .busy ∧ t.ending = .none ∧ t.ip = 0 ∧ t.ctl = 0 ∧ t.bi = 8 ∧ t.wc.val = 0 ∧ t.op = 0 ∧
        t = { s with
          st := t.st, ending := t.ending, ip := t.ip, ipStart := t.ipStart, ctl := t.ctl, bi := t.bi, wc := t.wc, op := t.op
          hist := t.hist, histEpoch := t.histEpoch }

/-- A run of the engine ends: from any running state, with no hardware reset among the inputs, the engine stops after at most
`OUT_LEN - op + 1` instruction steps (41_prs_decoder R116). -/
def Obligations.PrsdecTerminates : Prop :=
  ∀ s : State, s.st = .busy → s.op.toNat ≤ s.outLen.toNat → s.NoHardReset →
    ∃ (k : Nat) (t : State), k ≤ s.outLen.toNat - s.op.toNat + 1 ∧ stepN k s = .next t ∧ (t.st = .done ∨ t.st = .fault) ∧
      t.op.toNat ≤ s.outLen.toNat

/-- `PRSDEC` is a function of `BUF[0 .. BUF_LEN-1]`, `BUF_LEN` and `OUT_LEN` alone: two cores that agree on those, and on nothing
else (keys, history, earlier output, earlier registers), go through the same states, ends, output positions and output
bytes (41_prs_decoder R117, R113). -/
def Obligations.PrsdecDependsOnStreamOnly : Prop :=
  ∀ s s' : State, accepts s = true → accepts s' = true → s.host = [] → s'.host = [] →
    s.bufLen = s'.bufLen → s.outLen = s'.outLen →
    s.bufLen.toNat ≤ Config.bufMax.toNat → s.outLen.toNat ≤ Config.outMax.toNat →
    (∀ a, a < s.bufLen.toNat → readBuf s a = readBuf s' a) →
    ∃ a a' : State, exec .prsdec s = .next a ∧ exec .prsdec s' = .next a' ∧
      ∀ n : Nat, ∃ t t' : State, stepN n a = .next t ∧ stepN n a' = .next t' ∧
        t.st = t'.st ∧ t.ending = t'.ending ∧ t.op = t'.op ∧ (∀ p, p < t.op.toNat → readOut t p = readOut t' p) ∧
        (t.st ≠ .fault → t.ip = t'.ip) ∧ (t.st = .fault → t.cause = t'.cause ∧ t.faddr = t'.faddr)

/-! ## Cipher commands -/

/-- `SelKey()`: `KEY[KSEL]` for `KSEL` 0 to 4 while the keys are valid and `KeyInvalid` while they are not, `KEYIMM` for 5,
`IllegalCommand` for 6 and 7 (42_cipher R133). -/
def Obligations.SelKeyGivesTheOperand : Prop :=
  ∀ s : State,
    (s.kvalid = true →
      (s.ksel = 0 → selKey s = .ok s.keys.kh) ∧ (s.ksel = 1 → selKey s = .ok s.keys.k1a) ∧
      (s.ksel = 2 → selKey s = .ok s.keys.k1b) ∧ (s.ksel = 3 → selKey s = .ok s.keys.k2a) ∧
      (s.ksel = 4 → selKey s = .ok s.keys.k2b)) ∧
    (s.kvalid = false → s.ksel.toNat ≤ 4 → selKey s = .error (.keyInvalid, BitVec.ofNat 32 s.ksel.toNat)) ∧
    (s.ksel = 5 → selKey s = .ok s.keyimm) ∧
    (6 ≤ s.ksel.toNat → selKey s = .error (.illegalCommand, BitVec.ofNat 32 s.ksel.toNat))

/-- `XORPASS` decrypts every byte of `BUF[0 .. BUF_LEN-1]` with the key byte of the selected key and `SHIFT`, and changes nothing
else but `STATUS` (42_cipher R132, R130, R131, R133). -/
def Obligations.XorpassDecryptsEachByte : Prop :=
  ∀ (s : State) (key : Word), accepts s = true → s.bufLen.toNat ≤ Config.bufMax.toNat → s.Selects key →
    ∃ t : State, exec .xorpass s = .next t ∧ t = s.finished t.buf ∧
      (∀ a, a < s.bufLen.toNat → readBuf t a =
        if readBuf s a = 0 ∨ readBuf s a = ((key >>> s.shift.toNat) ^^^ key).truncate 8 then readBuf s a
        else readBuf s a ^^^ ((key >>> s.shift.toNat) ^^^ key).truncate 8) ∧
      (∀ a, s.bufLen.toNat ≤ a → readBuf t a = readBuf s a)

/-- `BCDEC.STD` on a multiple of 8 bytes decrypts every block independently with the selected key, and changes nothing else but
`STATUS` (42_cipher R135, R137). -/
def Obligations.StandardModeDecryptsBlocks : Prop :=
  ∀ (s : State) (key : Word), accepts s = true → s.bufLen.toNat ≤ Config.bufMax.toNat → s.Selects key →
    s.bufLen.toNat % 8 = 0 →
    ∃ t : State, exec .bcdecStd s = .next t ∧ t = s.finished t.buf ∧
      (∀ (i : Nat) (j : Fin 8), 8 * i + j.val < s.bufLen.toNat →
        readBuf t (8 * i + j.val) = Config.bcDec key (fun k => readBuf s (8 * i + k.val)) j) ∧
      (∀ a, s.bufLen.toNat ≤ a → readBuf t a = readBuf s a)

/-- `BCDEC.CMP` on any length decrypts every whole block with the selected key, leaves the trailing bytes untouched, and changes
nothing else but `STATUS` (42_cipher R136, R137). -/
def Obligations.CompatibilityModeKeepsTail : Prop :=
  ∀ (s : State) (key : Word), accepts s = true → s.bufLen.toNat ≤ Config.bufMax.toNat → s.Selects key →
    ∃ t : State, exec .bcdecCmp s = .next t ∧ t = s.finished t.buf ∧
      (∀ (i : Nat) (j : Fin 8), i < s.bufLen.toNat / 8 →
        readBuf t (8 * i + j.val) = Config.bcDec key (fun k => readBuf s (8 * i + k.val)) j) ∧
      (∀ a, 8 * (s.bufLen.toNat / 8) ≤ a → readBuf t a = readBuf s a)

/-- `GRPDEC` with valid keys and a legal length: the XOR cipher with key1 and shift 16 over the whole buffer, then key1 over every
whole block, then key2 over every block when the buffer is at most 102400 bytes; `KSEL`, `KEYIMM` and `SHIFT` play no part
(44_container_sequence R170). -/
def Obligations.GroupDecryptPasses : Prop :=
  ∀ s : State, accepts s = true → s.bufLen.toNat ≤ Config.bufMax.toNat → s.kvalid = true →
    (s.bufLen.toNat % 8 = 0 ∨ 102400 < s.bufLen.toNat) →
    ∃ t : State, exec .grpdec s = .next t ∧ t = s.finished t.buf ∧
      (let key1 := if s.gsel = 0 then s.keys.k1a else s.keys.k2a
       let key2 := if s.gsel = 0 then s.keys.k1b else s.keys.k2b
       let x := fun a => xorDec (((key1 >>> 16) ^^^ key1).truncate 8) (readBuf s a)
       (∀ (i : Nat) (j : Fin 8), i < s.bufLen.toNat / 8 →
          readBuf t (8 * i + j.val) =
            if s.bufLen.toNat ≤ 102400 then Config.bcDec key2 (Config.bcDec key1 (fun k => x (8 * i + k.val))) j
            else Config.bcDec key1 (fun k => x (8 * i + k.val)) j) ∧
       (∀ a, 8 * (s.bufLen.toNat / 8) ≤ a → a < s.bufLen.toNat → readBuf t a = x a) ∧
       (∀ a, s.bufLen.toNat ≤ a → readBuf t a = readBuf s a))

/-- `HDRDEC` with valid keys and 48 bytes decrypts the six blocks with `KEY[0]`, and is `BadLength` only where the buffer cannot
hold 48 bytes (44_container_sequence R171). -/
def Obligations.HeaderDecryptBlocks : Prop :=
  ∀ s : State, accepts s = true → s.kvalid = true → s.bufLen.toNat = 48 →
    ∃ t : State, exec .hdrdec s = .next t ∧
      if Config.bufMax.toNat < 48 then t = s.faulted .badLength s.bufLen
      else t = s.finished t.buf ∧
        (∀ (i : Nat) (j : Fin 8), i < 6 →
          readBuf t (8 * i + j.val) = Config.bcDec s.keys.kh (fun k => readBuf s (8 * i + k.val)) j) ∧
        (∀ a, 48 ≤ a → readBuf t a = readBuf s a)

/-- `HDRDEC` equals `BCDEC.STD` with `KSEL = 0` on a 48-byte buffer, and `BCDEC.CMP` equals `BCDEC.STD` on every multiple of 8
(44_container_sequence R171, 42_cipher R136). -/
def Obligations.HeaderAndModesAgree : Prop :=
  ∀ s : State, accepts s = true →
    (s.ksel = 0 → s.bufLen.toNat = 48 → exec .hdrdec s = exec .bcdecStd s) ∧
    (s.bufLen.toNat % 8 = 0 → exec .bcdecCmp s = exec .bcdecStd s)

/-- `GRPDEC` is the chain of the primitive commands: on a multiple of 8 up to 102400 bytes, `XORPASS` with key1 and shift 16, then
`BCDEC.CMP` with key1, then `BCDEC.STD` with key2 leave the same buffer (44_container_sequence R170, 95 V-BC-3). -/
def Obligations.GroupDecryptIsPrimitiveChain : Prop :=
  ∀ s : State, accepts s = true → s.kvalid = true → s.bufLen.toNat ≤ Config.bufMax.toNat → s.bufLen.toNat % 8 = 0 →
    s.bufLen.toNat ≤ 102400 →
    ∃ s1 s2 s3 : State,
      exec .xorpass { s with ksel := if s.gsel = 0 then 1 else 3, shift := 16 } = .next s1 ∧ exec .bcdecCmp s1 = .next s2 ∧
      exec .bcdecStd { s2 with ksel := if s.gsel = 0 then 2 else 4 } = .next s3 ∧
      exec .grpdec s = .next (s.finished s3.buf)

/-- The XOR cipher's byte map: zero and the key byte are fixed, every other byte is XORed with the key byte; it is its own
inverse, never gives zero or the key byte from another byte, and is the identity for the key byte zero (42_cipher R131). -/
def Obligations.XorByteMapProperties : Prop :=
  ∀ kb b : Byte,
    xorDec kb b = (if b = 0 ∨ b = kb then b else b ^^^ kb) ∧ xorDec kb (xorDec kb b) = b ∧
    (xorDec kb b = 0 → b = 0) ∧ (kb ≠ 0 → xorDec kb b = kb → b = kb) ∧ xorDec 0 b = b

/-- The XOR key byte is `key[shift+7 : shift] ^ key[7:0]`, bits above 31 read as 0 (42_cipher R130). -/
def Obligations.XorKeyByteBits : Prop :=
  ∀ (key : Word) (shift : BitVec 5),
    (∀ i, i < 8 → (xorKeyByte key shift.toNat).getLsbD i = (key.getLsbD (shift.toNat + i) ^^ key.getLsbD i)) ∧
    xorKeyByte key 0 = 0 ∧ xorKeyByte 0x12345678 16 = 0x4C ∧ xorKeyByte 0xDEADBEEF 16 = 0x42 ∧
    xorKeyByte 0x00FF00FF 16 = 0

/-- The checks of the cipher commands in their order (60_exceptions R207, R203, R204, R206): the capacity, then the key, then the
command's own length; the first that fails is reported, with its information word, and nothing else changes. -/
def Obligations.CipherChecksInOrder : Prop :=
  ∀ s : State, accepts s = true →
    (∀ i : Instr, i = .xorpass ∨ i = .bcdecCmp ∨ i = .bcdecStd →
      ∃ t : State, exec i s = .next t ∧
        if Config.bufMax.toNat < s.bufLen.toNat then t = s.faulted .badLength s.bufLen
        else if s.ksel.toNat ≤ 4 ∧ s.kvalid = false then t = s.faulted .keyInvalid (s.ksel.zeroExtend 32)
        else if 6 ≤ s.ksel.toNat then t = s.faulted .illegalCommand (s.ksel.zeroExtend 32)
        else if i = .bcdecStd ∧ s.bufLen.toNat % 8 ≠ 0 then t = s.faulted .badLength s.bufLen
        else t = s.finished t.buf) ∧
    (∃ t : State, exec .grpdec s = .next t ∧
      if Config.bufMax.toNat < s.bufLen.toNat then t = s.faulted .badLength s.bufLen
      else if s.kvalid = false then t = s.faulted .keyInvalid (if s.gsel = 0 then 1 else 3)
      else if 0 < s.bufLen.toNat ∧ s.bufLen.toNat ≤ 102400 ∧ s.bufLen.toNat % 8 ≠ 0 then t = s.faulted .badLength s.bufLen
      else t = s.finished t.buf) ∧
    (∃ t : State, exec .hdrdec s = .next t ∧
      if Config.bufMax.toNat < s.bufLen.toNat then t = s.faulted .badLength s.bufLen
      else if s.kvalid = false then t = s.faulted .keyInvalid 0
      else if s.bufLen.toNat ≠ 48 then t = s.faulted .badLength s.bufLen
      else t = s.finished t.buf)

/-! ## Key derivation -/

/-- `KDERIVE` writes the five keys of the derivation steps and `KVALID`, and changes nothing else but `STATUS`
(43_key_derivation R158, R151 to R157, R159). -/
def Obligations.KderiveWritesKeys : Prop :=
  ∀ s : State, accepts s = true →
    ∃ t : State, exec .kderive s = .next t ∧ t.kvalid = true ∧ t.st = .done ∧ t.ending = .none ∧
      t = { s with keys := t.keys, kvalid := t.kvalid, st := t.st, ending := t.ending } ∧
      (let e : Entropy := fun i => readEnt s i.val
       let crc := crc32 ((List.range 96).map fun i => readEnt s (124 + i))
       let w : Nat := (readEnt s 108).toNat * 2 ^ 24 + (readEnt s 109).toNat * 2 ^ 16 + (readEnt s 110).toNat * 2 ^ 8 +
         (readEnt s 111).toNat
       let seed := crc ^^^ BitVec.ofNat 32 w ^^^ s.kdSize ^^^ Config.kdSeedConst
       t.keys.k1a = (Config.kdMixB e)^[Config.kdIterCount seed] (Config.kdMixA e seed) ∧
       t.keys.k1b = Config.kdMixFinal e t.keys.k1a ∧
       t.keys.k2a = t.keys.k1a.rotateLeft 17 ∧ t.keys.k2b = t.keys.k1b.rotateLeft 17 ∧
       t.keys.kh = t.keys.k1a.rotateLeft 13)

/-- The keys are a pure function of the entropy block and `KD_SIZE` (43_key_derivation R160). -/
def Obligations.KeysArePureFunction : Prop :=
  ∀ s s' t t' : State, accepts s = true → accepts s' = true → s.kdSize = s'.kdSize →
    (∀ a, a < 256 → readEnt s a = readEnt s' a) → exec .kderive s = .next t → exec .kderive s' = .next t' →
    t.keys = t'.keys ∧ t.kvalid = t'.kvalid

/-- The CRC is the bit-serial function; its reflected-table form is the same function, and the check values hold. The bit-serial
algorithm and the check value of the nine digits are what 43_key_derivation R150 supplies from general knowledge (93 G1):
PRESUMED, log 23. -/
def Obligations.CrcTableForm : Prop :=
  (∀ data : List Byte, crc32 data = data.foldl (fun c b => crcBit^[8] (c ^^^ b.zeroExtend 32)) 0xFFFFFFFF ^^^ 0xFFFFFFFF) ∧
  (∀ c : Word, crcBit c = (c >>> 1) ^^^ (if c.getLsbD 0 = true then 0xEDB88320 else 0)) ∧
  (∀ (c : Word) (b : Byte), crcByte c b = (c >>> 8) ^^^ crcBit^[8] ((c ^^^ b.zeroExtend 32) &&& 0xFF)) ∧
  crc32 [0x31, 0x32, 0x33, 0x34, 0x35, 0x36, 0x37, 0x38, 0x39] = 0xCBF43926 ∧
  crc32 (List.replicate 96 0) = 0xBAF465AE

/-! ## The host's side -/

/-- A code that 30_encoding R70 does not list, written to `CMD`: `IllegalCommand` with the code in `FADDR` in `IDLE` and `DONE`, no
effect in `FAULT`; and a command that calls `SelKey()` with `KSEL` 6 or 7: `IllegalCommand` with `KSEL` in `FADDR`
(60_exceptions R206, 10_state R25, R26). -/
def Obligations.IllegalCommandIsRaised : Prop :=
  (∀ (s : State) (v : Word) (q : List HostOp), s.st ≠ .busy → s.host = .writeReg 0x00 v :: q →
    (∀ i : Instr, encode i ≠ .command (v.truncate 8)) →
    ∃ t : State, step s = .next t ∧
      if s.st = .fault then t = { s with host := q }
      else t = State.faulted { s with host := q } .illegalCommand (BitVec.ofNat 32 (v.toNat % 256))) ∧
  ∀ (s : State) (i : Instr), i = .xorpass ∨ i = .bcdecStd ∨ i = .bcdecCmp → accepts s = true →
    s.bufLen.toNat ≤ Config.bufMax.toNat → s.ksel = 6 ∨ s.ksel = 7 →
    exec i s = .next (s.faulted .illegalCommand (BitVec.ofNat 32 s.ksel.toNat))

/-- Commands other than `RESET` have no effect in `BUSY` and in `FAULT` (10_state R26, 60_exceptions R205). -/
def Obligations.CommandsIgnoredUnlessAccepted : Prop :=
  ∀ (i : Instr) (s : State), i.isPrs = false → i ≠ .reset → s.st = .busy ∨ s.st = .fault → exec i s = .next s

/-- `FAULT` is sticky: a step from it stays in `FAULT` with `CAUSE`, `FADDR`, `op`, the operand registers and the buffers kept,
unless it is a hardware reset or the write of the `RESET` code (60_exceptions R205, R209). -/
def Obligations.FaultLeftOnlyByReset : Prop :=
  ∀ s t : State, s.st = .fault → step s = .next t →
    (t.st = .fault ∧ t.cause = s.cause ∧ t.faddr = s.faddr ∧ t.op = s.op ∧ s.SameOperands t ∧ t.buf = s.buf ∧ t.out = s.out ∧
      t.ent = s.ent ∧ t.keys = s.keys ∧ t.kvalid = s.kvalid) ∨
    (t.st = .idle ∧ t.cause = .none ∧ t.faddr = 0 ∧
      ∃ q, s.host = .hardReset :: q ∨ ∃ v : Word, s.host = .writeReg 0x00 v :: q ∧ v.toNat % 256 = 1)

/-- A host write of an operand register stores the value cut to the register's width in `IDLE` and `DONE` and has no effect in
`FAULT`; read-only and reserved numbers ignore it (10_state R22, R26; for read-only numbers log 17). -/
def Obligations.OperandWritesAreTruncated : Prop :=
  ∀ (s : State) (reg : Nat) (v : Word) (q : List HostOp), s.st ≠ .busy → s.host = .writeReg reg v :: q → reg ≠ 0 →
    ∃ t : State, step s = .next t ∧
      if s.st = .fault then t = { s with host := q }
      else t = { s with
        host := q
        bufLen := if reg = 0x04 then v else s.bufLen
        outLen := if reg = 0x05 then v else s.outLen
        ksel := if reg = 0x08 then BitVec.ofNat 3 (v.toNat % 8) else s.ksel
        keyimm := if reg = 0x09 then v else s.keyimm
        shift := if reg = 0x0A then BitVec.ofNat 5 (v.toNat % 32) else s.shift
        kdSize := if reg = 0x0B then v else s.kdSize
        gsel := if reg = 0x0C then BitVec.ofNat 1 (v.toNat % 2) else s.gsel }

/-- `STATUS` as the host reads it: `STATE` in bits 1:0, `END` in bits 3:2 (never 3), `KVALID` in bit 4, bits 7:5 zero; and the level
outputs mirror it (10_state R23, 60_exceptions R211). -/
def Obligations.StatusLayout : Prop :=
  ∀ s : State,
    (statusReg s).toNat % 4 = (match s.st with | .idle => 0 | .busy => 1 | .done => 2 | .fault => 3) ∧
    (statusReg s).toNat / 4 % 4 = (match s.ending with | .none => 0 | .eos => 1 | .full => 2) ∧
    (statusReg s).toNat / 16 = (if s.kvalid then 1 else 0) ∧
    (doneLine s = true ↔ (statusReg s).toNat % 4 = 2) ∧ (faultLine s = true ↔ (statusReg s).toNat % 4 = 3)

/-- A host read of a register returns the value of the register map, 0 for `CMD` and for every reserved number, and changes
nothing else; a key register is returned only while `KVALID = 1` (10_state R22 to R26, R20). -/
def Obligations.RegisterReads : Prop :=
  ∀ (s : State) (reg : Nat) (q : List HostOp), s.st ≠ .busy → s.host = .readReg reg :: q →
    (reg < 0x10 ∨ 0x14 < reg ∨ s.kvalid = true) →
    step s = .next { s with
      host := q
      hostData :=
        if reg = 0x01 then BitVec.ofNat 32 (statusReg s).toNat
        else if reg = 0x02 then BitVec.ofNat 32 s.cause.code.toNat
        else if reg = 0x03 then s.faddr
        else if reg = 0x04 then s.bufLen
        else if reg = 0x05 then s.outLen
        else if reg = 0x06 then s.ip
        else if reg = 0x07 then s.op
        else if reg = 0x08 then BitVec.ofNat 32 s.ksel.toNat
        else if reg = 0x09 then s.keyimm
        else if reg = 0x0A then BitVec.ofNat 32 s.shift.toNat
        else if reg = 0x0B then s.kdSize
        else if reg = 0x0C then BitVec.ofNat 32 s.gsel.toNat
        else if reg = 0x10 then s.keys.kh
        else if reg = 0x11 then s.keys.k1a
        else if reg = 0x12 then s.keys.k1b
        else if reg = 0x13 then s.keys.k2a
        else if reg = 0x14 then s.keys.k2b
        else 0 }

/-- A byte the host writes to a buffer is the byte it reads back, and every other byte of the three buffers is as before
(20_memory R40, R47). -/
def Obligations.HostReadsWhatItWrote : Prop :=
  ∀ (s : State) (m : HostMem) (a : Nat) (b : Byte) (q : List HostOp), accepts s = true → a < capacity m →
    s.host = .writeByte m a b :: .readByte m a :: q →
    ∃ t : State, stepN 2 s = .next t ∧ t.hostData.toNat = b.toNat ∧ t.host = q ∧
      (∀ (k : HostMem) (x : Nat), ¬(k = m ∧ x = a) → readByte k x t = readByte k x s)

/-! ## Whole-machine rules -/

/-- Only `KDERIVE` writes the keys and `KVALID`, and besides it only the two resets (10_state R20, 70_reset_and_hazards R231). -/
def Obligations.OnlyKderiveAndResetWriteKeys : Prop :=
  ∀ s t : State, step s = .next t → (t.keys = s.keys ∧ t.kvalid = s.kvalid) ∨
    ∃ q, s.host = .hardReset :: q ∨ (s.st ≠ .busy ∧ ∃ v : Word, s.host = .writeReg 0x00 v :: q ∧
      (v.toNat % 256 = 0x01 ∨ (accepts s = true ∧ v.toNat % 256 = 0x30)))

/-- No instruction writes `ENT`, and none but `RESET` writes an operand register; the host's side is never touched
(10_state R19, R22). -/
def Obligations.InstructionsKeepOperandsAndEntropy : Prop :=
  ∀ (i : Instr) (s t : State), exec i s = .next t →
    t.ent = s.ent ∧ t.memEpoch = s.memEpoch ∧ t.host = s.host ∧ t.hostData = s.hostData ∧ (i ≠ .reset → s.SameOperands t)

/-- `OUT` is written by PRS instructions and the host alone, `BUF` by the cipher commands and the host alone
(10_state R17, R18, 20_memory R40). -/
def Obligations.WhoWritesTheBuffers : Prop :=
  ∀ (i : Instr) (s t : State), exec i s = .next t →
    (i.isPrs = false → t.out = s.out) ∧
    (t.buf ≠ s.buf → i = .xorpass ∨ i = .bcdecStd ∨ i = .bcdecCmp ∨ i = .grpdec ∨ i = .hdrdec)

/-! ## Invariants that every step keeps -/

/-- Every step keeps every memory in canonical form and within its space, in states where the engine's positions are within their
lengths. -/
def Obligations.StepKeepsMemory : Prop :=
  ∀ s t : State, s.MemoryOk → s.RunOk → step s = .next t → t.MemoryOk

/-- Every step keeps the engine's invariant: positions within their lengths, cursor and history in step with the output
(10_state R12, R15; 41_prs_decoder R108). -/
def Obligations.StepKeepsEngine : Prop :=
  ∀ s t : State, s.RunOk → step s = .next t → t.RunOk

/-- Every step keeps the fault registers and `END` in agreement with `STATE` (10_state R23 to R25). -/
def Obligations.StepKeepsStatus : Prop :=
  ∀ s t : State, s.StatusOk → step s = .next t → t.StatusOk

/-- Every step keeps the five keys related by the rotations while they are valid (10_state R20, 43_key_derivation R159). -/
def Obligations.StepKeepsKeys : Prop :=
  ∀ s t : State, s.KeysOk → step s = .next t → t.KeysOk
end

