-- ==== Sys2Proof/Laws/State.lean ====
section
/-! SUPPORT. What each update of the state does to each field, so that no later proof unfolds a record update. -/

namespace Sys2Proof.Machine

/-! ### `writeBuf`: `BUF[a] <- b` -/

@[simp] theorem writeBuf_ip (a : Nat) (b : Byte) (s : State) : (writeBuf a b s).ip = s.ip := rfl
@[simp] theorem writeBuf_ipStart (a : Nat) (b : Byte) (s : State) : (writeBuf a b s).ipStart = s.ipStart := rfl
@[simp] theorem writeBuf_ctl (a : Nat) (b : Byte) (s : State) : (writeBuf a b s).ctl = s.ctl := rfl
@[simp] theorem writeBuf_bi (a : Nat) (b : Byte) (s : State) : (writeBuf a b s).bi = s.bi := rfl
@[simp] theorem writeBuf_wc (a : Nat) (b : Byte) (s : State) : (writeBuf a b s).wc = s.wc := rfl
@[simp] theorem writeBuf_op (a : Nat) (b : Byte) (s : State) : (writeBuf a b s).op = s.op := rfl
@[simp] theorem writeBuf_hist (a : Nat) (b : Byte) (s : State) : (writeBuf a b s).hist = s.hist := rfl
@[simp] theorem writeBuf_buf (a : Nat) (b : Byte) (s : State) : (writeBuf a b s).buf = Memory.set s.buf a b := rfl
@[simp] theorem writeBuf_out (a : Nat) (b : Byte) (s : State) : (writeBuf a b s).out = s.out := rfl
@[simp] theorem writeBuf_ent (a : Nat) (b : Byte) (s : State) : (writeBuf a b s).ent = s.ent := rfl
@[simp] theorem writeBuf_keys (a : Nat) (b : Byte) (s : State) : (writeBuf a b s).keys = s.keys := rfl
@[simp] theorem writeBuf_kvalid (a : Nat) (b : Byte) (s : State) : (writeBuf a b s).kvalid = s.kvalid := rfl
@[simp] theorem writeBuf_bufLen (a : Nat) (b : Byte) (s : State) : (writeBuf a b s).bufLen = s.bufLen := rfl
@[simp] theorem writeBuf_outLen (a : Nat) (b : Byte) (s : State) : (writeBuf a b s).outLen = s.outLen := rfl
@[simp] theorem writeBuf_ksel (a : Nat) (b : Byte) (s : State) : (writeBuf a b s).ksel = s.ksel := rfl
@[simp] theorem writeBuf_keyimm (a : Nat) (b : Byte) (s : State) : (writeBuf a b s).keyimm = s.keyimm := rfl
@[simp] theorem writeBuf_shift (a : Nat) (b : Byte) (s : State) : (writeBuf a b s).shift = s.shift := rfl
@[simp] theorem writeBuf_kdSize (a : Nat) (b : Byte) (s : State) : (writeBuf a b s).kdSize = s.kdSize := rfl
@[simp] theorem writeBuf_gsel (a : Nat) (b : Byte) (s : State) : (writeBuf a b s).gsel = s.gsel := rfl
@[simp] theorem writeBuf_st (a : Nat) (b : Byte) (s : State) : (writeBuf a b s).st = s.st := rfl
@[simp] theorem writeBuf_ending (a : Nat) (b : Byte) (s : State) : (writeBuf a b s).ending = s.ending := rfl
@[simp] theorem writeBuf_cause (a : Nat) (b : Byte) (s : State) : (writeBuf a b s).cause = s.cause := rfl
@[simp] theorem writeBuf_faddr (a : Nat) (b : Byte) (s : State) : (writeBuf a b s).faddr = s.faddr := rfl
@[simp] theorem writeBuf_host (a : Nat) (b : Byte) (s : State) : (writeBuf a b s).host = s.host := rfl
@[simp] theorem writeBuf_hostData (a : Nat) (b : Byte) (s : State) : (writeBuf a b s).hostData = s.hostData := rfl
@[simp] theorem writeBuf_memEpoch (a : Nat) (b : Byte) (s : State) : (writeBuf a b s).memEpoch = s.memEpoch := rfl
@[simp] theorem writeBuf_histEpoch (a : Nat) (b : Byte) (s : State) : (writeBuf a b s).histEpoch = s.histEpoch := rfl
@[simp] theorem writeBuf_freeCtr (a : Nat) (b : Byte) (s : State) : (writeBuf a b s).freeCtr = s.freeCtr := rfl

/-! ### `writeBlock`: a block written back (42_cipher R137) -/

@[simp] theorem writeBlock_ip (i : Nat) (b : Block) (s : State) : (writeBlock i b s).ip = s.ip := rfl
@[simp] theorem writeBlock_ipStart (i : Nat) (b : Block) (s : State) : (writeBlock i b s).ipStart = s.ipStart := rfl
@[simp] theorem writeBlock_ctl (i : Nat) (b : Block) (s : State) : (writeBlock i b s).ctl = s.ctl := rfl
@[simp] theorem writeBlock_bi (i : Nat) (b : Block) (s : State) : (writeBlock i b s).bi = s.bi := rfl
@[simp] theorem writeBlock_wc (i : Nat) (b : Block) (s : State) : (writeBlock i b s).wc = s.wc := rfl
@[simp] theorem writeBlock_op (i : Nat) (b : Block) (s : State) : (writeBlock i b s).op = s.op := rfl
@[simp] theorem writeBlock_hist (i : Nat) (b : Block) (s : State) : (writeBlock i b s).hist = s.hist := rfl
@[simp] theorem writeBlock_buf (i : Nat) (b : Block) (s : State) : (writeBlock i b s).buf = (List.finRange 8).foldl (fun m j => Memory.set m (8 * i + j.val) (b j)) s.buf := rfl
@[simp] theorem writeBlock_out (i : Nat) (b : Block) (s : State) : (writeBlock i b s).out = s.out := rfl
@[simp] theorem writeBlock_ent (i : Nat) (b : Block) (s : State) : (writeBlock i b s).ent = s.ent := rfl
@[simp] theorem writeBlock_keys (i : Nat) (b : Block) (s : State) : (writeBlock i b s).keys = s.keys := rfl
@[simp] theorem writeBlock_kvalid (i : Nat) (b : Block) (s : State) : (writeBlock i b s).kvalid = s.kvalid := rfl
@[simp] theorem writeBlock_bufLen (i : Nat) (b : Block) (s : State) : (writeBlock i b s).bufLen = s.bufLen := rfl
@[simp] theorem writeBlock_outLen (i : Nat) (b : Block) (s : State) : (writeBlock i b s).outLen = s.outLen := rfl
@[simp] theorem writeBlock_ksel (i : Nat) (b : Block) (s : State) : (writeBlock i b s).ksel = s.ksel := rfl
@[simp] theorem writeBlock_keyimm (i : Nat) (b : Block) (s : State) : (writeBlock i b s).keyimm = s.keyimm := rfl
@[simp] theorem writeBlock_shift (i : Nat) (b : Block) (s : State) : (writeBlock i b s).shift = s.shift := rfl
@[simp] theorem writeBlock_kdSize (i : Nat) (b : Block) (s : State) : (writeBlock i b s).kdSize = s.kdSize := rfl
@[simp] theorem writeBlock_gsel (i : Nat) (b : Block) (s : State) : (writeBlock i b s).gsel = s.gsel := rfl
@[simp] theorem writeBlock_st (i : Nat) (b : Block) (s : State) : (writeBlock i b s).st = s.st := rfl
@[simp] theorem writeBlock_ending (i : Nat) (b : Block) (s : State) : (writeBlock i b s).ending = s.ending := rfl
@[simp] theorem writeBlock_cause (i : Nat) (b : Block) (s : State) : (writeBlock i b s).cause = s.cause := rfl
@[simp] theorem writeBlock_faddr (i : Nat) (b : Block) (s : State) : (writeBlock i b s).faddr = s.faddr := rfl
@[simp] theorem writeBlock_host (i : Nat) (b : Block) (s : State) : (writeBlock i b s).host = s.host := rfl
@[simp] theorem writeBlock_hostData (i : Nat) (b : Block) (s : State) : (writeBlock i b s).hostData = s.hostData := rfl
@[simp] theorem writeBlock_memEpoch (i : Nat) (b : Block) (s : State) : (writeBlock i b s).memEpoch = s.memEpoch := rfl
@[simp] theorem writeBlock_histEpoch (i : Nat) (b : Block) (s : State) : (writeBlock i b s).histEpoch = s.histEpoch := rfl
@[simp] theorem writeBlock_freeCtr (i : Nat) (b : Block) (s : State) : (writeBlock i b s).freeCtr = s.freeCtr := rfl

/-! ### `forgetHist`: `HIST` becomes unspecified (10_state R16) -/

@[simp] theorem forgetHist_ip (s : State) : (forgetHist s).ip = s.ip := rfl
@[simp] theorem forgetHist_ipStart (s : State) : (forgetHist s).ipStart = s.ipStart := rfl
@[simp] theorem forgetHist_ctl (s : State) : (forgetHist s).ctl = s.ctl := rfl
@[simp] theorem forgetHist_bi (s : State) : (forgetHist s).bi = s.bi := rfl
@[simp] theorem forgetHist_wc (s : State) : (forgetHist s).wc = s.wc := rfl
@[simp] theorem forgetHist_op (s : State) : (forgetHist s).op = s.op := rfl
@[simp] theorem forgetHist_hist (s : State) : (forgetHist s).hist = [] := rfl
@[simp] theorem forgetHist_buf (s : State) : (forgetHist s).buf = s.buf := rfl
@[simp] theorem forgetHist_out (s : State) : (forgetHist s).out = s.out := rfl
@[simp] theorem forgetHist_ent (s : State) : (forgetHist s).ent = s.ent := rfl
@[simp] theorem forgetHist_keys (s : State) : (forgetHist s).keys = s.keys := rfl
@[simp] theorem forgetHist_kvalid (s : State) : (forgetHist s).kvalid = s.kvalid := rfl
@[simp] theorem forgetHist_bufLen (s : State) : (forgetHist s).bufLen = s.bufLen := rfl
@[simp] theorem forgetHist_outLen (s : State) : (forgetHist s).outLen = s.outLen := rfl
@[simp] theorem forgetHist_ksel (s : State) : (forgetHist s).ksel = s.ksel := rfl
@[simp] theorem forgetHist_keyimm (s : State) : (forgetHist s).keyimm = s.keyimm := rfl
@[simp] theorem forgetHist_shift (s : State) : (forgetHist s).shift = s.shift := rfl
@[simp] theorem forgetHist_kdSize (s : State) : (forgetHist s).kdSize = s.kdSize := rfl
@[simp] theorem forgetHist_gsel (s : State) : (forgetHist s).gsel = s.gsel := rfl
@[simp] theorem forgetHist_st (s : State) : (forgetHist s).st = s.st := rfl
@[simp] theorem forgetHist_ending (s : State) : (forgetHist s).ending = s.ending := rfl
@[simp] theorem forgetHist_cause (s : State) : (forgetHist s).cause = s.cause := rfl
@[simp] theorem forgetHist_faddr (s : State) : (forgetHist s).faddr = s.faddr := rfl
@[simp] theorem forgetHist_host (s : State) : (forgetHist s).host = s.host := rfl
@[simp] theorem forgetHist_hostData (s : State) : (forgetHist s).hostData = s.hostData := rfl
@[simp] theorem forgetHist_memEpoch (s : State) : (forgetHist s).memEpoch = s.memEpoch := rfl
@[simp] theorem forgetHist_histEpoch (s : State) : (forgetHist s).histEpoch = s.histEpoch + 1 := rfl
@[simp] theorem forgetHist_freeCtr (s : State) : (forgetHist s).freeCtr = s.freeCtr := rfl

/-! ### `raise`: fault entry (60_exceptions R205) -/

@[simp] theorem raise_ip (t : Trap) (s : State) : (raise t s).ip = s.ip := rfl
@[simp] theorem raise_ipStart (t : Trap) (s : State) : (raise t s).ipStart = s.ipStart := rfl
@[simp] theorem raise_ctl (t : Trap) (s : State) : (raise t s).ctl = s.ctl := rfl
@[simp] theorem raise_bi (t : Trap) (s : State) : (raise t s).bi = s.bi := rfl
@[simp] theorem raise_wc (t : Trap) (s : State) : (raise t s).wc = s.wc := rfl
@[simp] theorem raise_op (t : Trap) (s : State) : (raise t s).op = s.op := rfl
@[simp] theorem raise_hist (t : Trap) (s : State) : (raise t s).hist = s.hist := rfl
@[simp] theorem raise_buf (t : Trap) (s : State) : (raise t s).buf = s.buf := rfl
@[simp] theorem raise_out (t : Trap) (s : State) : (raise t s).out = s.out := rfl
@[simp] theorem raise_ent (t : Trap) (s : State) : (raise t s).ent = s.ent := rfl
@[simp] theorem raise_keys (t : Trap) (s : State) : (raise t s).keys = s.keys := rfl
@[simp] theorem raise_kvalid (t : Trap) (s : State) : (raise t s).kvalid = s.kvalid := rfl
@[simp] theorem raise_bufLen (t : Trap) (s : State) : (raise t s).bufLen = s.bufLen := rfl
@[simp] theorem raise_outLen (t : Trap) (s : State) : (raise t s).outLen = s.outLen := rfl
@[simp] theorem raise_ksel (t : Trap) (s : State) : (raise t s).ksel = s.ksel := rfl
@[simp] theorem raise_keyimm (t : Trap) (s : State) : (raise t s).keyimm = s.keyimm := rfl
@[simp] theorem raise_shift (t : Trap) (s : State) : (raise t s).shift = s.shift := rfl
@[simp] theorem raise_kdSize (t : Trap) (s : State) : (raise t s).kdSize = s.kdSize := rfl
@[simp] theorem raise_gsel (t : Trap) (s : State) : (raise t s).gsel = s.gsel := rfl
@[simp] theorem raise_st (t : Trap) (s : State) : (raise t s).st = .fault := rfl
@[simp] theorem raise_ending (t : Trap) (s : State) : (raise t s).ending = .none := rfl
@[simp] theorem raise_cause (t : Trap) (s : State) : (raise t s).cause = t.1 := rfl
@[simp] theorem raise_faddr (t : Trap) (s : State) : (raise t s).faddr = t.2 := rfl
@[simp] theorem raise_host (t : Trap) (s : State) : (raise t s).host = s.host := rfl
@[simp] theorem raise_hostData (t : Trap) (s : State) : (raise t s).hostData = s.hostData := rfl
@[simp] theorem raise_memEpoch (t : Trap) (s : State) : (raise t s).memEpoch = s.memEpoch := rfl
@[simp] theorem raise_histEpoch (t : Trap) (s : State) : (raise t s).histEpoch = s.histEpoch := rfl
@[simp] theorem raise_freeCtr (t : Trap) (s : State) : (raise t s).freeCtr = s.freeCtr := rfl

/-! ### `raisePrs`: a fault of `PRSDEC` (60_exceptions R205, R208) -/

@[simp] theorem raisePrs_ip (c : Cause) (a : Word) (s : State) : (raisePrs c a s).ip = Config.freeIp s.freeCtr := rfl
@[simp] theorem raisePrs_ipStart (c : Cause) (a : Word) (s : State) : (raisePrs c a s).ipStart = s.ipStart := rfl
@[simp] theorem raisePrs_ctl (c : Cause) (a : Word) (s : State) : (raisePrs c a s).ctl = Config.freeCtl s.freeCtr := rfl
@[simp] theorem raisePrs_bi (c : Cause) (a : Word) (s : State) : (raisePrs c a s).bi = Config.freeBi s.freeCtr := rfl
@[simp] theorem raisePrs_wc (c : Cause) (a : Word) (s : State) : (raisePrs c a s).wc = s.wc := rfl
@[simp] theorem raisePrs_op (c : Cause) (a : Word) (s : State) : (raisePrs c a s).op = s.op := rfl
@[simp] theorem raisePrs_hist (c : Cause) (a : Word) (s : State) : (raisePrs c a s).hist = [] := rfl
@[simp] theorem raisePrs_buf (c : Cause) (a : Word) (s : State) : (raisePrs c a s).buf = s.buf := rfl
@[simp] theorem raisePrs_out (c : Cause) (a : Word) (s : State) : (raisePrs c a s).out = s.out := rfl
@[simp] theorem raisePrs_ent (c : Cause) (a : Word) (s : State) : (raisePrs c a s).ent = s.ent := rfl
@[simp] theorem raisePrs_keys (c : Cause) (a : Word) (s : State) : (raisePrs c a s).keys = s.keys := rfl
@[simp] theorem raisePrs_kvalid (c : Cause) (a : Word) (s : State) : (raisePrs c a s).kvalid = s.kvalid := rfl
@[simp] theorem raisePrs_bufLen (c : Cause) (a : Word) (s : State) : (raisePrs c a s).bufLen = s.bufLen := rfl
@[simp] theorem raisePrs_outLen (c : Cause) (a : Word) (s : State) : (raisePrs c a s).outLen = s.outLen := rfl
@[simp] theorem raisePrs_ksel (c : Cause) (a : Word) (s : State) : (raisePrs c a s).ksel = s.ksel := rfl
@[simp] theorem raisePrs_keyimm (c : Cause) (a : Word) (s : State) : (raisePrs c a s).keyimm = s.keyimm := rfl
@[simp] theorem raisePrs_shift (c : Cause) (a : Word) (s : State) : (raisePrs c a s).shift = s.shift := rfl
@[simp] theorem raisePrs_kdSize (c : Cause) (a : Word) (s : State) : (raisePrs c a s).kdSize = s.kdSize := rfl
@[simp] theorem raisePrs_gsel (c : Cause) (a : Word) (s : State) : (raisePrs c a s).gsel = s.gsel := rfl
@[simp] theorem raisePrs_st (c : Cause) (a : Word) (s : State) : (raisePrs c a s).st = .fault := rfl
@[simp] theorem raisePrs_ending (c : Cause) (a : Word) (s : State) : (raisePrs c a s).ending = .none := rfl
@[simp] theorem raisePrs_cause (c : Cause) (a : Word) (s : State) : (raisePrs c a s).cause = c := rfl
@[simp] theorem raisePrs_faddr (c : Cause) (a : Word) (s : State) : (raisePrs c a s).faddr = a := rfl
@[simp] theorem raisePrs_host (c : Cause) (a : Word) (s : State) : (raisePrs c a s).host = s.host := rfl
@[simp] theorem raisePrs_hostData (c : Cause) (a : Word) (s : State) : (raisePrs c a s).hostData = s.hostData := rfl
@[simp] theorem raisePrs_memEpoch (c : Cause) (a : Word) (s : State) : (raisePrs c a s).memEpoch = s.memEpoch := rfl
@[simp] theorem raisePrs_histEpoch (c : Cause) (a : Word) (s : State) : (raisePrs c a s).histEpoch = s.histEpoch + 1 := rfl
@[simp] theorem raisePrs_freeCtr (c : Cause) (a : Word) (s : State) : (raisePrs c a s).freeCtr = s.freeCtr + 1 := rfl

/-! ### `advance`: past a decoded instruction (41_prs_decoder R101) -/

@[simp] theorem advance_ip (r : Reader) (s : State) : (advance r s).ip = s.ip + BitVec.ofNat 32 r.used := rfl
@[simp] theorem advance_ipStart (r : Reader) (s : State) : (advance r s).ipStart = s.ip := rfl
@[simp] theorem advance_ctl (r : Reader) (s : State) : (advance r s).ctl = r.ctl := rfl
@[simp] theorem advance_bi (r : Reader) (s : State) : (advance r s).bi = r.bi := rfl
@[simp] theorem advance_wc (r : Reader) (s : State) : (advance r s).wc = s.wc := rfl
@[simp] theorem advance_op (r : Reader) (s : State) : (advance r s).op = s.op := rfl
@[simp] theorem advance_hist (r : Reader) (s : State) : (advance r s).hist = s.hist := rfl
@[simp] theorem advance_buf (r : Reader) (s : State) : (advance r s).buf = s.buf := rfl
@[simp] theorem advance_out (r : Reader) (s : State) : (advance r s).out = s.out := rfl
@[simp] theorem advance_ent (r : Reader) (s : State) : (advance r s).ent = s.ent := rfl
@[simp] theorem advance_keys (r : Reader) (s : State) : (advance r s).keys = s.keys := rfl
@[simp] theorem advance_kvalid (r : Reader) (s : State) : (advance r s).kvalid = s.kvalid := rfl
@[simp] theorem advance_bufLen (r : Reader) (s : State) : (advance r s).bufLen = s.bufLen := rfl
@[simp] theorem advance_outLen (r : Reader) (s : State) : (advance r s).outLen = s.outLen := rfl
@[simp] theorem advance_ksel (r : Reader) (s : State) : (advance r s).ksel = s.ksel := rfl
@[simp] theorem advance_keyimm (r : Reader) (s : State) : (advance r s).keyimm = s.keyimm := rfl
@[simp] theorem advance_shift (r : Reader) (s : State) : (advance r s).shift = s.shift := rfl
@[simp] theorem advance_kdSize (r : Reader) (s : State) : (advance r s).kdSize = s.kdSize := rfl
@[simp] theorem advance_gsel (r : Reader) (s : State) : (advance r s).gsel = s.gsel := rfl
@[simp] theorem advance_st (r : Reader) (s : State) : (advance r s).st = s.st := rfl
@[simp] theorem advance_ending (r : Reader) (s : State) : (advance r s).ending = s.ending := rfl
@[simp] theorem advance_cause (r : Reader) (s : State) : (advance r s).cause = s.cause := rfl
@[simp] theorem advance_faddr (r : Reader) (s : State) : (advance r s).faddr = s.faddr := rfl
@[simp] theorem advance_host (r : Reader) (s : State) : (advance r s).host = s.host := rfl
@[simp] theorem advance_hostData (r : Reader) (s : State) : (advance r s).hostData = s.hostData := rfl
@[simp] theorem advance_memEpoch (r : Reader) (s : State) : (advance r s).memEpoch = s.memEpoch := rfl
@[simp] theorem advance_histEpoch (r : Reader) (s : State) : (advance r s).histEpoch = s.histEpoch := rfl
@[simp] theorem advance_freeCtr (r : Reader) (s : State) : (advance r s).freeCtr = s.freeCtr := rfl

/-! ### `emit`: `Emit(b)` (41_prs_decoder R108) -/

@[simp] theorem emit_ip (b : Byte) (s : State) : (emit b s).ip = s.ip := rfl
@[simp] theorem emit_ipStart (b : Byte) (s : State) : (emit b s).ipStart = s.ipStart := rfl
@[simp] theorem emit_ctl (b : Byte) (s : State) : (emit b s).ctl = s.ctl := rfl
@[simp] theorem emit_bi (b : Byte) (s : State) : (emit b s).bi = s.bi := rfl
@[simp] theorem emit_wc (b : Byte) (s : State) : (emit b s).wc = cursorNext s.wc := rfl
@[simp] theorem emit_op (b : Byte) (s : State) : (emit b s).op = s.op + 1#32 := rfl
@[simp] theorem emit_hist (b : Byte) (s : State) : (emit b s).hist = Memory.set s.hist s.wc.val b := rfl
@[simp] theorem emit_buf (b : Byte) (s : State) : (emit b s).buf = s.buf := rfl
@[simp] theorem emit_out (b : Byte) (s : State) : (emit b s).out = Memory.set s.out s.op.toNat b := rfl
@[simp] theorem emit_ent (b : Byte) (s : State) : (emit b s).ent = s.ent := rfl
@[simp] theorem emit_keys (b : Byte) (s : State) : (emit b s).keys = s.keys := rfl
@[simp] theorem emit_kvalid (b : Byte) (s : State) : (emit b s).kvalid = s.kvalid := rfl
@[simp] theorem emit_bufLen (b : Byte) (s : State) : (emit b s).bufLen = s.bufLen := rfl
@[simp] theorem emit_outLen (b : Byte) (s : State) : (emit b s).outLen = s.outLen := rfl
@[simp] theorem emit_ksel (b : Byte) (s : State) : (emit b s).ksel = s.ksel := rfl
@[simp] theorem emit_keyimm (b : Byte) (s : State) : (emit b s).keyimm = s.keyimm := rfl
@[simp] theorem emit_shift (b : Byte) (s : State) : (emit b s).shift = s.shift := rfl
@[simp] theorem emit_kdSize (b : Byte) (s : State) : (emit b s).kdSize = s.kdSize := rfl
@[simp] theorem emit_gsel (b : Byte) (s : State) : (emit b s).gsel = s.gsel := rfl
@[simp] theorem emit_st (b : Byte) (s : State) : (emit b s).st = s.st := rfl
@[simp] theorem emit_ending (b : Byte) (s : State) : (emit b s).ending = s.ending := rfl
@[simp] theorem emit_cause (b : Byte) (s : State) : (emit b s).cause = s.cause := rfl
@[simp] theorem emit_faddr (b : Byte) (s : State) : (emit b s).faddr = s.faddr := rfl
@[simp] theorem emit_host (b : Byte) (s : State) : (emit b s).host = s.host := rfl
@[simp] theorem emit_hostData (b : Byte) (s : State) : (emit b s).hostData = s.hostData := rfl
@[simp] theorem emit_memEpoch (b : Byte) (s : State) : (emit b s).memEpoch = s.memEpoch := rfl
@[simp] theorem emit_histEpoch (b : Byte) (s : State) : (emit b s).histEpoch = s.histEpoch := rfl
@[simp] theorem emit_freeCtr (b : Byte) (s : State) : (emit b s).freeCtr = s.freeCtr := rfl

/-! ### `finishPrs`: the engine stops (41_prs_decoder R101, R107) -/

@[simp] theorem finishPrs_ip (e : EndKind) (s : State) : (finishPrs e s).ip = s.ip := rfl
@[simp] theorem finishPrs_ipStart (e : EndKind) (s : State) : (finishPrs e s).ipStart = s.ipStart := rfl
@[simp] theorem finishPrs_ctl (e : EndKind) (s : State) : (finishPrs e s).ctl = s.ctl := rfl
@[simp] theorem finishPrs_bi (e : EndKind) (s : State) : (finishPrs e s).bi = s.bi := rfl
@[simp] theorem finishPrs_wc (e : EndKind) (s : State) : (finishPrs e s).wc = s.wc := rfl
@[simp] theorem finishPrs_op (e : EndKind) (s : State) : (finishPrs e s).op = s.op := rfl
@[simp] theorem finishPrs_hist (e : EndKind) (s : State) : (finishPrs e s).hist = [] := rfl
@[simp] theorem finishPrs_buf (e : EndKind) (s : State) : (finishPrs e s).buf = s.buf := rfl
@[simp] theorem finishPrs_out (e : EndKind) (s : State) : (finishPrs e s).out = s.out := rfl
@[simp] theorem finishPrs_ent (e : EndKind) (s : State) : (finishPrs e s).ent = s.ent := rfl
@[simp] theorem finishPrs_keys (e : EndKind) (s : State) : (finishPrs e s).keys = s.keys := rfl
@[simp] theorem finishPrs_kvalid (e : EndKind) (s : State) : (finishPrs e s).kvalid = s.kvalid := rfl
@[simp] theorem finishPrs_bufLen (e : EndKind) (s : State) : (finishPrs e s).bufLen = s.bufLen := rfl
@[simp] theorem finishPrs_outLen (e : EndKind) (s : State) : (finishPrs e s).outLen = s.outLen := rfl
@[simp] theorem finishPrs_ksel (e : EndKind) (s : State) : (finishPrs e s).ksel = s.ksel := rfl
@[simp] theorem finishPrs_keyimm (e : EndKind) (s : State) : (finishPrs e s).keyimm = s.keyimm := rfl
@[simp] theorem finishPrs_shift (e : EndKind) (s : State) : (finishPrs e s).shift = s.shift := rfl
@[simp] theorem finishPrs_kdSize (e : EndKind) (s : State) : (finishPrs e s).kdSize = s.kdSize := rfl
@[simp] theorem finishPrs_gsel (e : EndKind) (s : State) : (finishPrs e s).gsel = s.gsel := rfl
@[simp] theorem finishPrs_st (e : EndKind) (s : State) : (finishPrs e s).st = .done := rfl
@[simp] theorem finishPrs_ending (e : EndKind) (s : State) : (finishPrs e s).ending = e := rfl
@[simp] theorem finishPrs_cause (e : EndKind) (s : State) : (finishPrs e s).cause = s.cause := rfl
@[simp] theorem finishPrs_faddr (e : EndKind) (s : State) : (finishPrs e s).faddr = s.faddr := rfl
@[simp] theorem finishPrs_host (e : EndKind) (s : State) : (finishPrs e s).host = s.host := rfl
@[simp] theorem finishPrs_hostData (e : EndKind) (s : State) : (finishPrs e s).hostData = s.hostData := rfl
@[simp] theorem finishPrs_memEpoch (e : EndKind) (s : State) : (finishPrs e s).memEpoch = s.memEpoch := rfl
@[simp] theorem finishPrs_histEpoch (e : EndKind) (s : State) : (finishPrs e s).histEpoch = s.histEpoch + 1 := rfl
@[simp] theorem finishPrs_freeCtr (e : EndKind) (s : State) : (finishPrs e s).freeCtr = s.freeCtr := rfl

/-! ### `startPrs`: `PRSDEC` starts (41_prs_decoder R100) -/

@[simp] theorem startPrs_ip (s : State) : (startPrs s).ip = 0 := rfl
@[simp] theorem startPrs_ipStart (s : State) : (startPrs s).ipStart = 0 := rfl
@[simp] theorem startPrs_ctl (s : State) : (startPrs s).ctl = 0 := rfl
@[simp] theorem startPrs_bi (s : State) : (startPrs s).bi = 8 := rfl
@[simp] theorem startPrs_wc (s : State) : (startPrs s).wc = ⟨0, by decide⟩ := rfl
@[simp] theorem startPrs_op (s : State) : (startPrs s).op = 0 := rfl
@[simp] theorem startPrs_hist (s : State) : (startPrs s).hist = [] := rfl
@[simp] theorem startPrs_buf (s : State) : (startPrs s).buf = s.buf := rfl
@[simp] theorem startPrs_out (s : State) : (startPrs s).out = s.out := rfl
@[simp] theorem startPrs_ent (s : State) : (startPrs s).ent = s.ent := rfl
@[simp] theorem startPrs_keys (s : State) : (startPrs s).keys = s.keys := rfl
@[simp] theorem startPrs_kvalid (s : State) : (startPrs s).kvalid = s.kvalid := rfl
@[simp] theorem startPrs_bufLen (s : State) : (startPrs s).bufLen = s.bufLen := rfl
@[simp] theorem startPrs_outLen (s : State) : (startPrs s).outLen = s.outLen := rfl
@[simp] theorem startPrs_ksel (s : State) : (startPrs s).ksel = s.ksel := rfl
@[simp] theorem startPrs_keyimm (s : State) : (startPrs s).keyimm = s.keyimm := rfl
@[simp] theorem startPrs_shift (s : State) : (startPrs s).shift = s.shift := rfl
@[simp] theorem startPrs_kdSize (s : State) : (startPrs s).kdSize = s.kdSize := rfl
@[simp] theorem startPrs_gsel (s : State) : (startPrs s).gsel = s.gsel := rfl
@[simp] theorem startPrs_st (s : State) : (startPrs s).st = .busy := rfl
@[simp] theorem startPrs_ending (s : State) : (startPrs s).ending = .none := rfl
@[simp] theorem startPrs_cause (s : State) : (startPrs s).cause = s.cause := rfl
@[simp] theorem startPrs_faddr (s : State) : (startPrs s).faddr = s.faddr := rfl
@[simp] theorem startPrs_host (s : State) : (startPrs s).host = s.host := rfl
@[simp] theorem startPrs_hostData (s : State) : (startPrs s).hostData = s.hostData := rfl
@[simp] theorem startPrs_memEpoch (s : State) : (startPrs s).memEpoch = s.memEpoch := rfl
@[simp] theorem startPrs_histEpoch (s : State) : (startPrs s).histEpoch = s.histEpoch + 1 := rfl
@[simp] theorem startPrs_freeCtr (s : State) : (startPrs s).freeCtr = s.freeCtr := rfl

/-! ### `beginCommand`: a command starts (42_cipher R139) -/

@[simp] theorem beginCommand_ip (s : State) : (beginCommand s).ip = s.ip := rfl
@[simp] theorem beginCommand_ipStart (s : State) : (beginCommand s).ipStart = s.ipStart := rfl
@[simp] theorem beginCommand_ctl (s : State) : (beginCommand s).ctl = s.ctl := rfl
@[simp] theorem beginCommand_bi (s : State) : (beginCommand s).bi = s.bi := rfl
@[simp] theorem beginCommand_wc (s : State) : (beginCommand s).wc = s.wc := rfl
@[simp] theorem beginCommand_op (s : State) : (beginCommand s).op = s.op := rfl
@[simp] theorem beginCommand_hist (s : State) : (beginCommand s).hist = s.hist := rfl
@[simp] theorem beginCommand_buf (s : State) : (beginCommand s).buf = s.buf := rfl
@[simp] theorem beginCommand_out (s : State) : (beginCommand s).out = s.out := rfl
@[simp] theorem beginCommand_ent (s : State) : (beginCommand s).ent = s.ent := rfl
@[simp] theorem beginCommand_keys (s : State) : (beginCommand s).keys = s.keys := rfl
@[simp] theorem beginCommand_kvalid (s : State) : (beginCommand s).kvalid = s.kvalid := rfl
@[simp] theorem beginCommand_bufLen (s : State) : (beginCommand s).bufLen = s.bufLen := rfl
@[simp] theorem beginCommand_outLen (s : State) : (beginCommand s).outLen = s.outLen := rfl
@[simp] theorem beginCommand_ksel (s : State) : (beginCommand s).ksel = s.ksel := rfl
@[simp] theorem beginCommand_keyimm (s : State) : (beginCommand s).keyimm = s.keyimm := rfl
@[simp] theorem beginCommand_shift (s : State) : (beginCommand s).shift = s.shift := rfl
@[simp] theorem beginCommand_kdSize (s : State) : (beginCommand s).kdSize = s.kdSize := rfl
@[simp] theorem beginCommand_gsel (s : State) : (beginCommand s).gsel = s.gsel := rfl
@[simp] theorem beginCommand_st (s : State) : (beginCommand s).st = .busy := rfl
@[simp] theorem beginCommand_ending (s : State) : (beginCommand s).ending = .none := rfl
@[simp] theorem beginCommand_cause (s : State) : (beginCommand s).cause = s.cause := rfl
@[simp] theorem beginCommand_faddr (s : State) : (beginCommand s).faddr = s.faddr := rfl
@[simp] theorem beginCommand_host (s : State) : (beginCommand s).host = s.host := rfl
@[simp] theorem beginCommand_hostData (s : State) : (beginCommand s).hostData = s.hostData := rfl
@[simp] theorem beginCommand_memEpoch (s : State) : (beginCommand s).memEpoch = s.memEpoch := rfl
@[simp] theorem beginCommand_histEpoch (s : State) : (beginCommand s).histEpoch = s.histEpoch := rfl
@[simp] theorem beginCommand_freeCtr (s : State) : (beginCommand s).freeCtr = s.freeCtr := rfl

/-! ### `endCommand`: a command ends (42_cipher R139) -/

@[simp] theorem endCommand_ip (s : State) : (endCommand s).ip = s.ip := rfl
@[simp] theorem endCommand_ipStart (s : State) : (endCommand s).ipStart = s.ipStart := rfl
@[simp] theorem endCommand_ctl (s : State) : (endCommand s).ctl = s.ctl := rfl
@[simp] theorem endCommand_bi (s : State) : (endCommand s).bi = s.bi := rfl
@[simp] theorem endCommand_wc (s : State) : (endCommand s).wc = s.wc := rfl
@[simp] theorem endCommand_op (s : State) : (endCommand s).op = s.op := rfl
@[simp] theorem endCommand_hist (s : State) : (endCommand s).hist = s.hist := rfl
@[simp] theorem endCommand_buf (s : State) : (endCommand s).buf = s.buf := rfl
@[simp] theorem endCommand_out (s : State) : (endCommand s).out = s.out := rfl
@[simp] theorem endCommand_ent (s : State) : (endCommand s).ent = s.ent := rfl
@[simp] theorem endCommand_keys (s : State) : (endCommand s).keys = s.keys := rfl
@[simp] theorem endCommand_kvalid (s : State) : (endCommand s).kvalid = s.kvalid := rfl
@[simp] theorem endCommand_bufLen (s : State) : (endCommand s).bufLen = s.bufLen := rfl
@[simp] theorem endCommand_outLen (s : State) : (endCommand s).outLen = s.outLen := rfl
@[simp] theorem endCommand_ksel (s : State) : (endCommand s).ksel = s.ksel := rfl
@[simp] theorem endCommand_keyimm (s : State) : (endCommand s).keyimm = s.keyimm := rfl
@[simp] theorem endCommand_shift (s : State) : (endCommand s).shift = s.shift := rfl
@[simp] theorem endCommand_kdSize (s : State) : (endCommand s).kdSize = s.kdSize := rfl
@[simp] theorem endCommand_gsel (s : State) : (endCommand s).gsel = s.gsel := rfl
@[simp] theorem endCommand_st (s : State) : (endCommand s).st = .done := rfl
@[simp] theorem endCommand_ending (s : State) : (endCommand s).ending = s.ending := rfl
@[simp] theorem endCommand_cause (s : State) : (endCommand s).cause = s.cause := rfl
@[simp] theorem endCommand_faddr (s : State) : (endCommand s).faddr = s.faddr := rfl
@[simp] theorem endCommand_host (s : State) : (endCommand s).host = s.host := rfl
@[simp] theorem endCommand_hostData (s : State) : (endCommand s).hostData = s.hostData := rfl
@[simp] theorem endCommand_memEpoch (s : State) : (endCommand s).memEpoch = s.memEpoch := rfl
@[simp] theorem endCommand_histEpoch (s : State) : (endCommand s).histEpoch = s.histEpoch := rfl
@[simp] theorem endCommand_freeCtr (s : State) : (endCommand s).freeCtr = s.freeCtr := rfl

/-! ### `resetRegisters`: `RESET` (70_reset_and_hazards R231) -/

@[simp] theorem resetRegisters_ip (s : State) : (resetRegisters s).ip = 0 := rfl
@[simp] theorem resetRegisters_ipStart (s : State) : (resetRegisters s).ipStart = 0 := rfl
@[simp] theorem resetRegisters_ctl (s : State) : (resetRegisters s).ctl = 0 := rfl
@[simp] theorem resetRegisters_bi (s : State) : (resetRegisters s).bi = 8 := rfl
@[simp] theorem resetRegisters_wc (s : State) : (resetRegisters s).wc = ⟨0, by decide⟩ := rfl
@[simp] theorem resetRegisters_op (s : State) : (resetRegisters s).op = 0 := rfl
@[simp] theorem resetRegisters_hist (s : State) : (resetRegisters s).hist = [] := rfl
@[simp] theorem resetRegisters_buf (s : State) : (resetRegisters s).buf = s.buf := rfl
@[simp] theorem resetRegisters_out (s : State) : (resetRegisters s).out = s.out := rfl
@[simp] theorem resetRegisters_ent (s : State) : (resetRegisters s).ent = s.ent := rfl
@[simp] theorem resetRegisters_keys (s : State) : (resetRegisters s).keys = ⟨0, 0, 0, 0, 0⟩ := rfl
@[simp] theorem resetRegisters_kvalid (s : State) : (resetRegisters s).kvalid = false := rfl
@[simp] theorem resetRegisters_bufLen (s : State) : (resetRegisters s).bufLen = 0 := rfl
@[simp] theorem resetRegisters_outLen (s : State) : (resetRegisters s).outLen = 0 := rfl
@[simp] theorem resetRegisters_ksel (s : State) : (resetRegisters s).ksel = 5 := rfl
@[simp] theorem resetRegisters_keyimm (s : State) : (resetRegisters s).keyimm = 0 := rfl
@[simp] theorem resetRegisters_shift (s : State) : (resetRegisters s).shift = 16 := rfl
@[simp] theorem resetRegisters_kdSize (s : State) : (resetRegisters s).kdSize = 0 := rfl
@[simp] theorem resetRegisters_gsel (s : State) : (resetRegisters s).gsel = 0 := rfl
@[simp] theorem resetRegisters_st (s : State) : (resetRegisters s).st = .idle := rfl
@[simp] theorem resetRegisters_ending (s : State) : (resetRegisters s).ending = .none := rfl
@[simp] theorem resetRegisters_cause (s : State) : (resetRegisters s).cause = .none := rfl
@[simp] theorem resetRegisters_faddr (s : State) : (resetRegisters s).faddr = 0 := rfl
@[simp] theorem resetRegisters_host (s : State) : (resetRegisters s).host = s.host := rfl
@[simp] theorem resetRegisters_hostData (s : State) : (resetRegisters s).hostData = s.hostData := rfl
@[simp] theorem resetRegisters_memEpoch (s : State) : (resetRegisters s).memEpoch = s.memEpoch := rfl
@[simp] theorem resetRegisters_histEpoch (s : State) : (resetRegisters s).histEpoch = s.histEpoch + 1 := rfl
@[simp] theorem resetRegisters_freeCtr (s : State) : (resetRegisters s).freeCtr = s.freeCtr := rfl

/-! ### `hardReset`: hardware reset (70_reset_and_hazards R230) -/

@[simp] theorem hardReset_ip (s : State) : (hardReset s).ip = 0 := rfl
@[simp] theorem hardReset_ipStart (s : State) : (hardReset s).ipStart = 0 := rfl
@[simp] theorem hardReset_ctl (s : State) : (hardReset s).ctl = 0 := rfl
@[simp] theorem hardReset_bi (s : State) : (hardReset s).bi = 8 := rfl
@[simp] theorem hardReset_wc (s : State) : (hardReset s).wc = ⟨0, by decide⟩ := rfl
@[simp] theorem hardReset_op (s : State) : (hardReset s).op = 0 := rfl
@[simp] theorem hardReset_hist (s : State) : (hardReset s).hist = [] := rfl
@[simp] theorem hardReset_buf (s : State) : (hardReset s).buf = [] := rfl
@[simp] theorem hardReset_out (s : State) : (hardReset s).out = [] := rfl
@[simp] theorem hardReset_ent (s : State) : (hardReset s).ent = [] := rfl
@[simp] theorem hardReset_keys (s : State) : (hardReset s).keys = ⟨0, 0, 0, 0, 0⟩ := rfl
@[simp] theorem hardReset_kvalid (s : State) : (hardReset s).kvalid = false := rfl
@[simp] theorem hardReset_bufLen (s : State) : (hardReset s).bufLen = 0 := rfl
@[simp] theorem hardReset_outLen (s : State) : (hardReset s).outLen = 0 := rfl
@[simp] theorem hardReset_ksel (s : State) : (hardReset s).ksel = 5 := rfl
@[simp] theorem hardReset_keyimm (s : State) : (hardReset s).keyimm = 0 := rfl
@[simp] theorem hardReset_shift (s : State) : (hardReset s).shift = 16 := rfl
@[simp] theorem hardReset_kdSize (s : State) : (hardReset s).kdSize = 0 := rfl
@[simp] theorem hardReset_gsel (s : State) : (hardReset s).gsel = 0 := rfl
@[simp] theorem hardReset_st (s : State) : (hardReset s).st = .idle := rfl
@[simp] theorem hardReset_ending (s : State) : (hardReset s).ending = .none := rfl
@[simp] theorem hardReset_cause (s : State) : (hardReset s).cause = .none := rfl
@[simp] theorem hardReset_faddr (s : State) : (hardReset s).faddr = 0 := rfl
@[simp] theorem hardReset_host (s : State) : (hardReset s).host = s.host := rfl
@[simp] theorem hardReset_hostData (s : State) : (hardReset s).hostData = s.hostData := rfl
@[simp] theorem hardReset_memEpoch (s : State) : (hardReset s).memEpoch = s.memEpoch + 1 := rfl
@[simp] theorem hardReset_histEpoch (s : State) : (hardReset s).histEpoch = s.histEpoch + 1 := rfl
@[simp] theorem hardReset_freeCtr (s : State) : (hardReset s).freeCtr = s.freeCtr := rfl

end Sys2Proof.Machine
end

