-- ==== Sys2Proof/Laws/Memory.lean ====
section
/-! SUPPORT. The laws of memory: read after write, the canonical form and the bounds kept, equal contents are equal data. -/

namespace Sys2Proof.Machine

@[simp] theorem Memory.get_nil (x : Nat) : Memory.get [] x = none := rfl

/-- A read after a write to the same address gives the byte written. -/
@[simp] theorem Memory.get_set_same (m : List Host.Cell) (x : Nat) (v : Byte) : Memory.get (Memory.set m x v) x = some v := by
  induction m with
  | nil => simp [Memory.set, Memory.get]
  | cons p m ih =>
    obtain ⟨a, b⟩ := p
    simp only [Memory.set]
    split_ifs with h1 h2
    · simp [Memory.get]
    · simp [Memory.get]
    · simp [Memory.get, Ne.symm h2, ih]

/-- A write leaves every other address alone. -/
theorem Memory.get_set_other (m : List Host.Cell) {x y : Nat} (v : Byte) (h : y ≠ x) :
    Memory.get (Memory.set m x v) y = Memory.get m y := by
  induction m with
  | nil => simp [Memory.set, Memory.get, Ne.symm h]
  | cons p m ih =>
    obtain ⟨a, b⟩ := p
    simp only [Memory.set]
    split_ifs with h1 h2
    · simp [Memory.get, Ne.symm h]
    · subst h2
      simp [Memory.get, Ne.symm h]
    · simp [Memory.get, ih]

/-- What any address holds after a write. -/
theorem Memory.get_set (m : List Host.Cell) (x y : Nat) (v : Byte) :
    Memory.get (Memory.set m x v) y = if y = x then some v else Memory.get m y := by
  split_ifs with h
  · subst h
    exact Memory.get_set_same m y v
  · exact Memory.get_set_other m v h

/-- Every cell after a write is the written one or an old one. -/
theorem Memory.mem_set {m : List Host.Cell} {x : Nat} {v : Byte} {p : Host.Cell} (h : p ∈ Memory.set m x v) :
    p = (x, v) ∨ p ∈ m := by
  induction m with
  | nil => simpa [Memory.set] using h
  | cons q m ih =>
    obtain ⟨a, b⟩ := q
    simp only [Memory.set] at h
    split_ifs at h with h1 h2
    · simpa using h
    · rcases List.mem_cons.1 h with h | h
      · exact Or.inl h
      · exact Or.inr (List.mem_cons_of_mem _ h)
    · rcases List.mem_cons.1 h with h | h
      · exact Or.inr (h ▸ List.mem_cons_self)
      · exact (ih h).imp id (List.mem_cons_of_mem _)

theorem Memory.wf_nil : Memory.wf [] := List.Pairwise.nil

/-- A write keeps the canonical form. -/
theorem Memory.wf_set {m : List Host.Cell} (h : Memory.wf m) (x : Nat) (v : Byte) : Memory.wf (Memory.set m x v) := by
  induction m with
  | nil => simp [Memory.set]
  | cons q m ih =>
    obtain ⟨a, b⟩ := q
    obtain ⟨hq, hm⟩ := List.pairwise_cons.1 h
    simp only [Memory.set]
    split_ifs with h1 h2
    · refine List.pairwise_cons.2 ⟨fun p hp => ?_, h⟩
      rcases List.mem_cons.1 hp with rfl | hp
      · exact h1
      · exact lt_trans h1 (hq p hp)
    · subst h2
      exact List.pairwise_cons.2 ⟨hq, hm⟩
    · refine List.pairwise_cons.2 ⟨fun p hp => ?_, ih hm⟩
      rcases Memory.mem_set hp with rfl | hp
      · show a < x
        omega
      · exact hq p hp

theorem Memory.within_nil (n : Nat) : Memory.within n [] := by simp

/-- A write below the size of the space keeps the bound. -/
theorem Memory.within_set {n : Nat} {m : List Host.Cell} (h : Memory.within n m) {x : Nat} (hx : x < n) (v : Byte) :
    Memory.within n (Memory.set m x v) := by
  intro p hp
  rcases Memory.mem_set hp with rfl | hp
  · exact hx
  · exact h p hp

/-- An address below every listed one is not listed. -/
theorem Memory.get_none_of_lt {m : List Host.Cell} {x : Nat} (h : ∀ p ∈ m, x < p.1) : Memory.get m x = none := by
  induction m with
  | nil => rfl
  | cons q m ih =>
    have hq := h q List.mem_cons_self
    simp only [Memory.get, if_neg (Nat.ne_of_gt hq)]
    exact ih fun p hp => h p (List.mem_cons_of_mem _ hp)

/-- Equal contents are equal data: two memories in canonical form that hold the same bytes are the same list. -/
theorem Memory.ext {m n : List Host.Cell} (hm : Memory.wf m) (hn : Memory.wf n) (h : ∀ x, Memory.get m x = Memory.get n x) :
    m = n := by
  induction m generalizing n with
  | nil =>
    cases n with
    | nil => rfl
    | cons q n => simpa [Memory.get] using h q.1
  | cons p m ih =>
    cases n with
    | nil => simpa [Memory.get] using h p.1
    | cons q n =>
      obtain ⟨hp, hm'⟩ := List.pairwise_cons.1 hm
      obtain ⟨hq, hn'⟩ := List.pairwise_cons.1 hn
      have hpq : p.1 = q.1 := by
        by_contra hne
        rcases Nat.lt_or_gt_of_ne hne with hlt | hlt
        · have := h p.1
          simp only [Memory.get, if_true, if_neg (Ne.symm hne)] at this
          rw [Memory.get_none_of_lt fun r hr => lt_trans hlt (hq r hr)] at this
          simp at this
        · have := h q.1
          simp only [Memory.get, if_true, if_neg hne] at this
          rw [Memory.get_none_of_lt fun r hr => lt_trans hlt (hp r hr)] at this
          simp at this
      have hb : p.2 = q.2 := by
        have := h p.1
        simpa [Memory.get, hpq] using this
      have hrest : m = n := by
        refine ih hm' hn' fun x => ?_
        by_cases hx : x = p.1
        · rw [Memory.get_none_of_lt fun r hr => hx ▸ hp r hr, Memory.get_none_of_lt fun r hr => hx ▸ hpq ▸ hq r hr]
        · have hqx : q.1 ≠ x := fun hc => hx (hc.symm.trans hpq.symm)
          have := h x
          simpa only [Memory.get, if_neg (Ne.symm hx), if_neg hqx] using this
      rw [Prod.ext hpq hb, hrest]

/-- What any address reads as after a write. -/
theorem Memory.read_set (e : Nat) (sp : Space) (m : List Host.Cell) (x y : Nat) (v : Byte) :
    Memory.read e sp (Memory.set m x v) y = if y = x then v else Memory.read e sp m y := by
  unfold Memory.read
  rw [Memory.get_set]
  split_ifs <;> rfl

/-! ### Writes over several addresses keep the canonical form and the bounds -/

theorem Memory.wf_foldl_set {α : Type} (l : List α) (at_ : α → Nat) (val : α → Byte) {m : List Host.Cell} (h : Memory.wf m) :
    Memory.wf (l.foldl (fun m j => Memory.set m (at_ j) (val j)) m) := by
  induction l generalizing m with
  | nil => exact h
  | cons j l ih => exact ih (Memory.wf_set h _ _)

theorem Memory.within_foldl_set {α : Type} {n : Nat} (l : List α) (at_ : α → Nat) (val : α → Byte) {m : List Host.Cell}
    (h : Memory.within n m) (ha : ∀ j ∈ l, at_ j < n) :
    Memory.within n (l.foldl (fun m j => Memory.set m (at_ j) (val j)) m) := by
  induction l generalizing m with
  | nil => exact h
  | cons j l ih =>
    exact ih (Memory.within_set h (ha j List.mem_cons_self) _) fun i hi => ha i (List.mem_cons_of_mem _ hi)

theorem writeBuf_wf {s : State} (h : Memory.wf s.buf) (a : Nat) (b : Byte) : Memory.wf (writeBuf a b s).buf :=
  Memory.wf_set h a b

theorem writeBlock_wf {s : State} (h : Memory.wf s.buf) (i : Nat) (b : Block) : Memory.wf (writeBlock i b s).buf :=
  Memory.wf_foldl_set _ _ _ h

theorem emit_wf {s : State} (ho : Memory.wf s.out) (hh : Memory.wf s.hist) (b : Byte) :
    Memory.wf (emit b s).out ∧ Memory.wf (emit b s).hist :=
  ⟨Memory.wf_set ho _ _, Memory.wf_set hh _ _⟩

/-- The memories at reset are in canonical form. -/
theorem reset_memory_wf :
    Memory.wf State.reset.buf ∧ Memory.wf State.reset.out ∧ Memory.wf State.reset.hist ∧ Memory.wf State.reset.ent := by
  decide

end Sys2Proof.Machine
end

