-- ==== Sys2Proof/Laws/Cipher.lean ====
section
/-! SUPPORT. What the cipher passes and the command frame do: one lemma for the frame of each, one for what each leaves in
`BUF`. -/

namespace Sys2Proof.Machine

@[simp] theorem readBuf_writeBuf (s : State) (x y : Nat) (v : Byte) :
    readBuf (writeBuf x v s) y = if y = x then v else readBuf s y := by
  simp [readBuf, Memory.read_set]

/-- Reading after several writes at different addresses: the byte written there, else the byte before. -/
theorem Memory.read_foldl_set {α : Type} (e : Nat) (sp : Space) (l : List α) (at_ : α → Nat) (val : α → Byte)
    (m : List Host.Cell) (y : Nat) (hinj : ∀ i ∈ l, ∀ j ∈ l, at_ i = at_ j → i = j) :
    (∀ j ∈ l, at_ j = y → Memory.read e sp (l.foldl (fun m j => Memory.set m (at_ j) (val j)) m) y = val j) ∧
    ((∀ j ∈ l, at_ j ≠ y) →
      Memory.read e sp (l.foldl (fun m j => Memory.set m (at_ j) (val j)) m) y = Memory.read e sp m y) := by
  induction l generalizing m with
  | nil => simp
  | cons k l ih =>
    have ih := ih (Memory.set m (at_ k) (val k))
      fun i hi j hj => hinj i (List.mem_cons_of_mem _ hi) j (List.mem_cons_of_mem _ hj)
    simp only [List.foldl_cons]
    refine ⟨fun j hj hy => ?_, fun hy => ?_⟩
    · by_cases hex : ∃ i ∈ l, at_ i = y
      · obtain ⟨i, hi, hiy⟩ := hex
        have : i = j := hinj i (List.mem_cons_of_mem _ hi) j hj (hiy.trans hy.symm)
        exact this ▸ ih.1 i hi hiy
      · have hjk : j = k := by
          rcases List.mem_cons.1 hj with h | h
          · exact h
          · exact absurd ⟨j, h, hy⟩ hex
        subst hjk
        rw [ih.2 fun i hi hc => hex ⟨i, hi, hc⟩, Memory.read_set, if_pos hy.symm]
    · rw [ih.2 fun i hi => hy i (List.mem_cons_of_mem _ hi), Memory.read_set,
        if_neg (Ne.symm (hy k List.mem_cons_self))]

/-- `BUF` after a block is written back. -/
theorem readBuf_writeBlock (i : Nat) (b : Block) (s : State) (y : Nat) :
    (∀ j : Fin 8, 8 * i + j.val = y → readBuf (writeBlock i b s) y = b j) ∧
    (y / 8 ≠ i → readBuf (writeBlock i b s) y = readBuf s y) := by
  have h := Memory.read_foldl_set s.memEpoch .buf (List.finRange 8) (fun j : Fin 8 => 8 * i + j.val) b s.buf y
    fun a _ c _ hac => Fin.ext (by simpa using hac)
  refine ⟨fun j hj => h.1 j (List.mem_finRange j) hj, fun hy => h.2 fun j _ hc => hy ?_⟩
  have := j.isLt
  omega

/-- A block read back is the block written; any other block is as before. -/
theorem readBlock_writeBlock (i : Nat) (b : Block) (s : State) (k : Nat) :
    readBlock (writeBlock i b s) k = if k = i then b else readBlock s k := by
  funext j
  have hj := j.isLt
  split_ifs with h
  · subst h
    exact (readBuf_writeBlock k b s (8 * k + j.val)).1 j rfl
  · exact (readBuf_writeBlock i b s (8 * k + j.val)).2 (by omega)

/-- The XOR pass changes `BUF` only. -/
theorem xorPass_frame (kb : Byte) (n : Nat) (s : State) : xorPass kb n s = { s with buf := (xorPass kb n s).buf } := by
  induction n with
  | zero => rfl
  | succ n ih =>
    simp only [xorPass, writeBuf]
    rw [ih]

/-- The XOR pass over `n` bytes: each of them decrypted, the others as before (42_cipher R132). -/
theorem readBuf_xorPass (kb : Byte) (n : Nat) (s : State) (a : Nat) :
    readBuf (xorPass kb n s) a = if a < n then xorDec kb (readBuf s a) else readBuf s a := by
  induction n generalizing a with
  | zero => simp [xorPass]
  | succ n ih =>
    simp only [xorPass, readBuf_writeBuf, ih]
    by_cases h : a = n
    · subst h
      simp
    · simp only [if_neg h]
      split_ifs <;> first | rfl | omega

/-- A block pass changes `BUF` only. -/
theorem blockPass_frame (f : Block → Block) (n : Nat) (s : State) :
    blockPass f n s = { s with buf := (blockPass f n s).buf } := by
  induction n with
  | zero => rfl
  | succ n ih =>
    simp only [blockPass, writeBlock]
    rw [ih]

/-- A block pass over `n` blocks: each of them mapped, the others as before (42_cipher R137). -/
theorem readBlock_blockPass (f : Block → Block) (n : Nat) (s : State) (k : Nat) :
    readBlock (blockPass f n s) k = if k < n then f (readBlock s k) else readBlock s k := by
  induction n generalizing k with
  | zero => simp [blockPass]
  | succ n ih =>
    simp only [blockPass, readBlock_writeBlock, ih]
    by_cases h : k = n
    · subst h
      simp
    · simp only [if_neg h]
      split_ifs <;> first | rfl | omega

/-- A block pass over `n` blocks leaves every byte at and above `8n` alone (42_cipher R136). -/
theorem readBuf_blockPass_above (f : Block → Block) (n : Nat) (s : State) (a : Nat) (h : 8 * n ≤ a) :
    readBuf (blockPass f n s) a = readBuf s a := by
  induction n with
  | zero => rfl
  | succ n ih =>
    simp only [blockPass]
    rw [(readBuf_writeBlock n _ _ a).2 (by omega), ih (by omega)]

theorem xorPass_wf {s : State} (h : Memory.wf s.buf) (kb : Byte) (n : Nat) : Memory.wf (xorPass kb n s).buf := by
  induction n with
  | zero => exact h
  | succ n ih => exact Memory.wf_set ih _ _

theorem blockPass_wf {s : State} (h : Memory.wf s.buf) (f : Block → Block) (n : Nat) : Memory.wf (blockPass f n s).buf := by
  induction n with
  | zero => exact h
  | succ n ih => exact writeBlock_wf ih _ _

theorem xorPass_within {s : State} {size : Nat} (h : Memory.within size s.buf) (kb : Byte) {n : Nat} (hn : n ≤ size) :
    Memory.within size (xorPass kb n s).buf := by
  induction n with
  | zero => exact h
  | succ n ih => exact Memory.within_set (ih (by omega)) (by omega) _

theorem blockPass_within {s : State} {size : Nat} (h : Memory.within size s.buf) (f : Block → Block) {n : Nat}
    (hn : 8 * n ≤ size) : Memory.within size (blockPass f n s).buf := by
  induction n with
  | zero => exact h
  | succ n ih =>
    refine Memory.within_foldl_set _ _ _ (ih (by omega)) fun j _ => ?_
    have := j.isLt
    show 8 * n + j.val < size
    omega

/-- What a command in the common frame can do: fault with nothing else changed, or run its body between the two writes of
`STATUS` (42_cipher R139). -/
theorem cipherFrame_cases {κ : Type} (keyOperands : State → Except Trap κ) (lengthBad : State → Bool)
    (body : κ → State → State) (s : State) :
    (∃ t : Trap, cipherFrame keyOperands lengthBad body s = raise t s) ∨
    (∃ k, s.bufLen.toNat ≤ Config.bufMax.toNat ∧ keyOperands s = .ok k ∧ lengthBad s = false ∧
      cipherFrame keyOperands lengthBad body s = endCommand (body k (beginCommand s))) := by
  unfold cipherFrame
  by_cases h : Config.bufMax.toNat < s.bufLen.toNat
  · exact Or.inl ⟨_, if_pos h⟩
  · rw [if_neg h]
    cases hk : keyOperands s with
    | error t => exact Or.inl ⟨t, rfl⟩
    | ok k =>
      cases hl : lengthBad s with
      | true => exact Or.inl ⟨(.badLength, s.bufLen), rfl⟩
      | false => exact Or.inr ⟨k, by omega, rfl, rfl, rfl⟩

/-- The frame runs the body when nothing is wrong (42_cipher R139). -/
theorem cipherFrame_ok {κ : Type} {keyOperands : State → Except Trap κ} {lengthBad : State → Bool} {body : κ → State → State}
    {s : State} {k : κ} (hb : s.bufLen.toNat ≤ Config.bufMax.toNat) (hk : keyOperands s = .ok k) (hl : lengthBad s = false) :
    cipherFrame keyOperands lengthBad body s = endCommand (body k (beginCommand s)) := by
  simp [cipherFrame, Nat.not_lt.2 hb, hk, hl]

/-- The body of `XORPASS` changes `BUF` only. -/
theorem xorBody_frame (k : Word) (s : State) : xorBody k s = { s with buf := (xorBody k s).buf } := xorPass_frame _ _ s

/-- The body of the block commands changes `BUF` only. -/
theorem blockBody_frame (k : Word) (s : State) : blockBody k s = { s with buf := (blockBody k s).buf } :=
  blockPass_frame _ _ s

/-- The passes of `GRPDEC` change `BUF` only. -/
theorem groupPasses_frame (bc : Word → Block → Block) (k : Word × Word) (s : State) :
    groupPasses bc k s = { s with buf := (groupPasses bc k s).buf } := by
  unfold groupPasses
  split_ifs
  · simp only
    rw [blockPass_frame (bc k.2), blockPass_frame (bc k.1), xorPass_frame]
  · simp only
    rw [blockPass_frame (bc k.1), xorPass_frame]

/-- The body of `GRPDEC` changes `BUF` only. -/
theorem groupBody_frame (k : Word × Word) (s : State) : groupBody k s = { s with buf := (groupBody k s).buf } := by
  unfold groupBody
  split_ifs
  · exact groupPasses_frame _ _ _
  · rfl

/-- The body of `HDRDEC` changes `BUF` only. -/
theorem headerBody_frame (k : Word) (s : State) : headerBody k s = { s with buf := (headerBody k s).buf } :=
  blockPass_frame _ _ s

/-- The passes of `GRPDEC` up to 102400 bytes (44_container_sequence R170). -/
theorem groupPasses_short {s : State} (h : s.bufLen.toNat ≤ 102400) (bc : Word → Block → Block) (k1 k2 : Word) :
    groupPasses bc (k1, k2) s = blockPass (bc k2) (wholeBlocks s)
      (blockPass (bc k1) (wholeBlocks s) (xorPass (xorKeyByte k1 16) s.bufLen.toNat s)) := if_pos h

/-- The passes of `GRPDEC` above 102400 bytes (44_container_sequence R170). -/
theorem groupPasses_long {s : State} (h : ¬s.bufLen.toNat ≤ 102400) (bc : Word → Block → Block) (k1 k2 : Word) :
    groupPasses bc (k1, k2) s =
      blockPass (bc k1) (wholeBlocks s) (xorPass (xorKeyByte k1 16) s.bufLen.toNat s) := if_neg h

/-- The header is six blocks (44_container_sequence R171). -/
theorem headerBody_eq (key : Word) (s : State) : headerBody key s = blockPass (Config.bcDec key) 6 s := rfl

theorem groupLengthBad_iff (s : State) :
    groupLengthBad s = true ↔ 0 < s.bufLen.toNat ∧ s.bufLen.toNat ≤ 102400 ∧ s.bufLen.toNat % 8 ≠ 0 := by
  simp [groupLengthBad, secondPassMax, and_assoc]

theorem headerLengthBad_iff (s : State) : headerLengthBad s = true ↔ s.bufLen.toNat ≠ 48 := by
  simp [headerLengthBad, headerBlockLen]

/-- The key operand is the selected key (42_cipher R133). -/
theorem selKey_ok {s : State} {key : Word} (h : s.Selects key) : selKey s = .ok key := by
  rcases h with ⟨hv, h⟩ | ⟨h, rfl⟩
  · rcases h with ⟨h, rfl⟩ | ⟨h, rfl⟩ | ⟨h, rfl⟩ | ⟨h, rfl⟩ | ⟨h, rfl⟩ <;> simp [selKey, h, hv, keyAt]
  · simp [selKey, h]

/-- The two keys of a group (44_container_sequence R170). -/
theorem groupKeys_ok {s : State} (hv : s.kvalid = true) :
    groupKeys s = .ok (if s.gsel = 0 then s.keys.k1a else s.keys.k2a, if s.gsel = 0 then s.keys.k1b else s.keys.k2b) := by
  have : s.gsel = 0 ∨ s.gsel = 1 := by
    generalize s.gsel = g
    revert g
    decide
  rcases this with h | h <;> simp [groupKeys, hv, h, keyAt]

/-- A cipher command with nothing wrong leaves the state as it was, but for `BUF` and `STATUS` (42_cipher R139). -/
theorem cipherCommand_finished {κ : Type} {keyOperands : State → Except Trap κ} {lengthBad : State → Bool}
    {body : κ → State → State} {s : State} {k : κ} (ha : accepts s = true)
    (hb : s.bufLen.toNat ≤ Config.bufMax.toNat) (hk : keyOperands s = .ok k) (hl : lengthBad s = false)
    (hf : ∀ s, body k s = { s with buf := (body k s).buf }) :
    whenAccepted (cipherFrame keyOperands lengthBad body) s = s.finished (body k (beginCommand s)).buf := by
  simp only [whenAccepted, ha, if_true, cipherFrame_ok hb hk hl]
  rw [hf]
  rfl

/-- A byte of the buffer a command finished with. -/
theorem readBuf_finished {s x : State} (hm : x.memEpoch = s.memEpoch) (a : Nat) :
    readBuf (s.finished x.buf) a = readBuf x a := by
  simp [readBuf, State.finished, hm]

/-- Zero and the key byte are fixed points of the XOR cipher's map (42_cipher R131). -/
theorem xorDec_fixed_zero (kb : Byte) : xorDec kb 0 = 0 := by simp [xorDec]

theorem xorDec_fixed_key (kb : Byte) : xorDec kb kb = kb := by simp [xorDec]

end Sys2Proof.Machine
end

