-- ==== Sys2Proof/Laws/Decode.lean ====
section
/-! SUPPORT. What the bit reader and the decode tree consume, and when they fail (41_prs_decoder R102, R103, 30_encoding R66). -/

namespace Sys2Proof

theorem except_bind_ok {ε α β : Type} {x : Except ε α} {f : α → Except ε β} {b : β} (h : (x >>= f) = .ok b) :
    ∃ a, x = .ok a ∧ f a = .ok b := by
  cases x with
  | error e => simp [bind, Except.bind] at h
  | ok a => exact ⟨a, rfl, h⟩

theorem except_bind_error {ε α β : Type} {x : Except ε α} {f : α → Except ε β} {e : ε} (h : (x >>= f) = .error e) :
    x = .error e ∨ ∃ a, x = .ok a ∧ f a = .error e := by
  cases x with
  | error e => exact Or.inl (by simpa [bind, Except.bind] using h)
  | ok a => exact Or.inr ⟨a, rfl, h⟩

/-- Between two positions the reader took at most `n` bytes off the front of the stream and counted each. -/
def Reader.Eats (r q : Reader) (n : Nat) : Prop :=
  ∃ k, k ≤ n ∧ q.used = r.used + k ∧ r.rest = r.rest.take k ++ q.rest ∧ k ≤ r.rest.length

theorem Reader.Eats.mono {r q : Reader} {n m : Nat} (h : r.Eats q n) (hm : n ≤ m) : r.Eats q m := by
  obtain ⟨k, hk, h⟩ := h
  exact ⟨k, by omega, h⟩

theorem Reader.Eats.trans {r q p : Reader} {n m : Nat} (h1 : r.Eats q n) (h2 : q.Eats p m) : r.Eats p (n + m) := by
  obtain ⟨k, hk, hu, hr, hl⟩ := h1
  obtain ⟨k', hk', hu', hr', hl'⟩ := h2
  have hlen := congrArg List.length hr
  simp only [List.length_append, List.length_take, Nat.min_eq_left hl] at hlen
  have hd : r.rest.drop k = q.rest := by
    conv_lhs => rw [hr]
    rw [List.drop_append_of_le_length (by simp; omega)]
    simp
  refine ⟨k + k', by omega, by omega, ?_, by omega⟩
  rw [List.take_add, hd, List.append_assoc, ← hr', ← hr]

theorem Reader.Eats.length_le {r q : Reader} {n : Nat} (h : r.Eats q n) : r.rest.length ≤ q.rest.length + n := by
  obtain ⟨k, hk, _, hr, hl⟩ := h
  have := congrArg List.length hr
  simp at this
  omega

/-- The bytes counted are bytes the stream had. -/
theorem Reader.Eats.used_le {r q : Reader} {n : Nat} (h : r.Eats q n) : q.used ≤ r.used + r.rest.length := by
  obtain ⟨k, _, hu, _, hl⟩ := h
  omega

/-- `Fetch()` takes the first byte and leaves the control byte alone (41_prs_decoder R102). -/
theorem fetch_ok {r q : Reader} {b : Byte} (h : r.fetch = .ok (b, q)) :
    q.used = r.used + 1 ∧ r.rest = b :: q.rest ∧ q.ctl = r.ctl ∧ q.bi = r.bi := by
  cases hr : r.rest with
  | nil => simp [Reader.fetch, hr] at h
  | cons c cs =>
    simp [Reader.fetch, hr] at h
    obtain ⟨rfl, rfl⟩ := h
    simp

theorem fetch_eats {r q : Reader} {b : Byte} (h : r.fetch = .ok (b, q)) : r.Eats q 1 := by
  obtain ⟨h1, h2, -, -⟩ := fetch_ok h
  exact ⟨1, le_rfl, h1, by simp [h2], by simp [h2]⟩

/-- `CtlBit()` takes at most one byte (41_prs_decoder R103). -/
theorem ctlBit_eats {r q : Reader} {b : Bool} (h : r.ctlBit = .ok (b, q)) : r.Eats q 1 := by
  unfold Reader.ctlBit at h
  split_ifs at h with h8
  · cases hr : r.rest with
    | nil => simp [Reader.fetch, hr] at h
    | cons c cs =>
      simp [Reader.fetch, hr, Reader.deliver] at h
      obtain ⟨-, rfl⟩ := h
      exact ⟨1, by simp [hr]⟩
  · simp [Reader.deliver] at h
    obtain ⟨-, rfl⟩ := h
    exact ⟨0, by simp⟩

/-- `Fetch()` fails only at the end of the stream (41_prs_decoder R102). -/
theorem fetch_error {r : Reader} {e : DecodeError} (h : r.fetch = .error e) : e = .inputUnderrun ∧ r.rest.length = 0 := by
  cases hr : r.rest with
  | nil => simp [Reader.fetch, hr] at h; simp [h]
  | cons c cs => simp [Reader.fetch, hr] at h

theorem ctlBit_error {r : Reader} {e : DecodeError} (h : r.ctlBit = .error e) :
    e = .inputUnderrun ∧ r.rest.length = 0 := by
  unfold Reader.ctlBit at h
  split_ifs at h
  cases hr : r.rest with
  | nil => simp [Reader.fetch, hr] at h; simp [h]
  | cons c cs => simp [Reader.fetch, hr, Reader.deliver] at h

/-- Bytes appended behind the stream change neither the byte fetched nor what is left before them. -/
theorem fetch_append {r q : Reader} {b : Byte} (more : List Byte) (h : r.fetch = .ok (b, q)) :
    ({ r with rest := r.rest ++ more } : Reader).fetch = .ok (b, { q with rest := q.rest ++ more }) := by
  cases hr : r.rest with
  | nil => simp [Reader.fetch, hr] at h
  | cons c cs =>
    simp [Reader.fetch, hr] at h
    obtain ⟨rfl, rfl⟩ := h
    simp [Reader.fetch]

theorem ctlBit_append {r q : Reader} {b : Bool} (more : List Byte) (h : r.ctlBit = .ok (b, q)) :
    ({ r with rest := r.rest ++ more } : Reader).ctlBit = .ok (b, { q with rest := q.rest ++ more }) := by
  unfold Reader.ctlBit at h ⊢
  split_ifs at h with h8
  · cases hr : r.rest with
    | nil => simp [Reader.fetch, hr] at h
    | cons c cs =>
      simp [Reader.fetch, hr, Reader.deliver] at h
      obtain ⟨rfl, rfl⟩ := h
      simp [h8, Reader.fetch, Reader.deliver]
  · simp [Reader.deliver] at h
    obtain ⟨rfl, rfl⟩ := h
    simp [h8, Reader.deliver]

/-- The upper five bits of a byte, `byte0 >> 3`. -/
theorem upper_bits (b : Byte) : (b.extractLsb' 3 5).toNat = b.toNat / 8 := by
  simp [BitVec.extractLsb'_toNat, Nat.shiftRight_eq_div_pow]
  have := b.isLt
  omega

/-- The lower three bits of a byte. -/
theorem lower_bits (b : Byte) : (b.extractLsb' 0 3).toNat = b.toNat % 8 := by
  simp [BitVec.extractLsb'_toNat]

/-- `LONG` and `EOS` decode to well-formed terms (30_encoding R63 to R65). -/
theorem decodeLong_ok {r q : Reader} {i : Instr} (h : decodeLong r = .ok (i, q)) :
    i.isPrs = true ∧ i.wf = true ∧ r.Eats q 3 := by
  obtain ⟨⟨b0, r1⟩, h1, h⟩ := except_bind_ok h
  obtain ⟨⟨b1, r2⟩, h2, h⟩ := except_bind_ok h
  have e2 := (fetch_eats h1).trans (fetch_eats h2)
  simp only at h
  split_ifs at h with hz hs
  · simp only [Except.ok.injEq, Prod.mk.injEq] at h
    obtain ⟨rfl, rfl⟩ := h
    exact ⟨rfl, rfl, e2.mono (by omega)⟩
  · obtain ⟨⟨b2, r3⟩, h3, h⟩ := except_bind_ok h
    simp only [Except.ok.injEq, Prod.mk.injEq] at h
    obtain ⟨rfl, rfl⟩ := h
    refine ⟨rfl, ?_, e2.trans (fetch_eats h3)⟩
    have key : b0.extractLsb' 3 5 = 0 → b1 = 0 → False := fun ha hb => hz ⟨by
      have h1 := congrArg BitVec.toNat ha
      have h2 := congrArg BitVec.toNat hs
      rw [upper_bits] at h1
      rw [lower_bits] at h2
      apply BitVec.eq_of_toNat_eq
      simp at h1 h2 ⊢
      omega, hb⟩
    simp only [Instr.wf, Bool.not_eq_true', Bool.and_eq_false_imp, beq_iff_eq, beq_eq_false_iff_ne]
    exact key
  · simp only [Except.ok.injEq, Prod.mk.injEq] at h
    obtain ⟨rfl, rfl⟩ := h
    exact ⟨rfl, by simpa [Instr.wf] using hs, e2.mono (by omega)⟩

/-- What the decode tree answers: a well-formed PRS instruction, at most five bytes further on (30_encoding R66). -/
theorem decodePrs_ok {r q : Reader} {i : Instr} (h : decodePrs r = .ok (i, q)) :
    i.isPrs = true ∧ i.wf = true ∧ r.Eats q 5 := by
  obtain ⟨⟨c0, r1⟩, h1, h⟩ := except_bind_ok h
  have e1 := ctlBit_eats h1
  cases c0 with
  | true =>
    simp only [if_true, decodeLit] at h
    obtain ⟨⟨d, r2⟩, h2, h⟩ := except_bind_ok h
    simp only [Except.ok.injEq, Prod.mk.injEq] at h
    obtain ⟨rfl, rfl⟩ := h
    exact ⟨rfl, rfl, (e1.trans (fetch_eats h2)).mono (by omega)⟩
  | false =>
    simp only [Bool.false_eq_true, if_false] at h
    obtain ⟨⟨c1, r2⟩, h2, h⟩ := except_bind_ok h
    have e2 := e1.trans (ctlBit_eats h2)
    cases c1 with
    | true =>
      simp only [if_true] at h
      obtain ⟨hp, hw, he⟩ := decodeLong_ok h
      exact ⟨hp, hw, e2.trans he⟩
    | false =>
      simp only [Bool.false_eq_true, if_false, decodeShort] at h
      obtain ⟨⟨a, r3⟩, h3, h⟩ := except_bind_ok h
      obtain ⟨⟨b, r4⟩, h4, h⟩ := except_bind_ok h
      obtain ⟨⟨o, r5⟩, h5, h⟩ := except_bind_ok h
      simp only [Except.ok.injEq, Prod.mk.injEq] at h
      obtain ⟨rfl, rfl⟩ := h
      exact ⟨rfl, rfl, ((e2.trans (ctlBit_eats h3)).trans (ctlBit_eats h4)).trans (fetch_eats h5)⟩

end Sys2Proof
end

