-- ==== Sys2Proof/Laws/Engine.lean ====
section
/-! SUPPORT. What the engine's operations do: `Emit`, the back-reference copy, and how they keep the history. -/

namespace Sys2Proof.Machine

theorem cursorNext_val (w : Fin 8191) : (cursorNext w).val = (w.val + 1) % 8191 := rfl

/-- The history address is the floor modulus of cursor plus offset (20_memory R43). -/
theorem histIndex_val (w : Fin 8191) (off : Int) : ((histIndex w off).val : Int) = ((w.val : Int) + off) % 8191 := by
  show (((((w.val : Int) + off) % 8191).toNat : Nat) : Int) = _
  omega

theorem emit_frame (b : Byte) (s : State) :
    emit b s = { s with out := (emit b s).out, op := (emit b s).op, hist := (emit b s).hist, wc := (emit b s).wc } := rfl

/-- `Emit` writes `OUT[op]` and no other byte of `OUT` (41_prs_decoder R108). -/
theorem readOut_emit (b : Byte) (s : State) (a : Nat) :
    readOut (emit b s) a = if a = s.op.toNat then b else readOut s a := by
  simp [readOut, Memory.read_set]

/-- `Emit` writes `HIST[wc]` and no other byte of `HIST` (41_prs_decoder R108). -/
theorem readHist_emit (b : Byte) (s : State) (a : Fin 8191) :
    readHist (emit b s) a = if a = s.wc then b else readHist s a := by
  simp [readHist, Memory.read_set, Fin.ext_iff]

/-- A copy changes `OUT`, `op`, `HIST` and `wc` only. -/
theorem copyBytes_frame (off : Int) (n : Nat) (s : State) :
    copyBytes off n s = { s with
      out := (copyBytes off n s).out
      op := (copyBytes off n s).op
      hist := (copyBytes off n s).hist
      wc := (copyBytes off n s).wc } := by
  induction n with
  | zero => rfl
  | succ n ih =>
    simp only [copyBytes, copyByte, emit]
    rw [ih]

theorem copyBytes_op (off : Int) (n : Nat) (s : State) : (copyBytes off n s).op = s.op + BitVec.ofNat 32 n := by
  induction n with
  | zero => simp [copyBytes]
  | succ n ih =>
    simp only [copyBytes, copyByte, emit_op, ih]
    apply BitVec.eq_of_toNat_eq
    simp only [BitVec.toNat_add, BitVec.toNat_ofNat]
    omega

theorem copyBytes_wc (off : Int) (n : Nat) (s : State) : (copyBytes off n s).wc.val = (s.wc.val + n) % 8191 := by
  induction n with
  | zero => simp [copyBytes, Nat.mod_eq_of_lt s.wc.isLt]
  | succ n ih =>
    simp only [copyBytes, copyByte, emit_wc, cursorNext_val, ih]
    omega

/-- `Emit` keeps the history: `HIST` still holds the last 8191 produced bytes (41_prs_decoder R108). -/
theorem emit_history {s : State} (h : s.HistoryOk) (hc : s.wc.val = s.op.toNat % 8191) (ho : s.op.toNat + 1 < 2 ^ 32) (b : Byte) :
    (emit b s).HistoryOk ∧ (emit b s).wc.val = (emit b s).op.toNat % 8191 := by
  have hop : (emit b s).op.toNat = s.op.toNat + 1 := by
    simp only [emit_op, BitVec.toNat_add, BitVec.toNat_ofNat]
    omega
  refine ⟨fun q hq hr => ?_, ?_⟩
  · rw [hop] at hq hr
    simp only [emit_hist, emit_out, Memory.get_set]
    by_cases hqe : q = s.op.toNat
    · subst hqe
      simp [hc]
    · have hne : q % 8191 ≠ s.wc.val := by omega
      rw [if_neg hne, if_neg hqe]
      exact h q (by omega) (by omega)
  · rw [hop]
    simp only [emit_wc, cursorNext_val, hc]
    omega

/-- The place in the output a history address stands for: `d` bytes back (41_prs_decoder R110). -/
def backDistance (off : Int) : Nat := (((-off - 1) % 8191) + 1).toNat

theorem backDistance_le (off : Int) (h : off ≤ -1) : (backDistance off : Int) ≤ -off ∧ 1 ≤ backDistance off ∧
    backDistance off ≤ 8191 := by
  unfold backDistance
  omega

/-- One byte of a copy is the byte of the output `d` places back (41_prs_decoder R110, R113). -/
theorem copyByte_value {s : State} (h : s.HistoryOk) (hc : s.wc.val = s.op.toNat % 8191) {off : Int} (hoff : off ≤ -1)
    (hd : -off ≤ (s.op.toNat : Int)) :
    readHist s (histIndex s.wc off) = readOut s (s.op.toNat - backDistance off) := by
  obtain ⟨h1, h2, h3⟩ := backDistance_le off hoff
  have hidx : (histIndex s.wc off).val = (s.op.toNat - backDistance off) % 8191 := by
    have := histIndex_val s.wc off
    have hd' : ((backDistance off : Nat) : Int) = ((-off - 1) % 8191) + 1 := by
      unfold backDistance
      omega
    omega
  obtain ⟨hg, hs⟩ := h (s.op.toNat - backDistance off) (by omega) (by omega)
  obtain ⟨v, hv⟩ := Option.isSome_iff_exists.1 hs
  simp only [readHist, readOut, Memory.read, hidx, hg, hv, Option.getD_some]

/-- What a copy that passes the range check and fits the output does (41_prs_decoder R110, R113): the history stays the output's,
and each byte is the one `d` places back, earlier bytes of the same copy included. -/
theorem copyBytes_output {s : State} (h : s.HistoryOk) (hc : s.wc.val = s.op.toNat % 8191) {off : Int} (hoff : off ≤ -1)
    (hd : -off ≤ (s.op.toNat : Int)) (n : Nat) (hn : s.op.toNat + n < 2 ^ 32) :
    (copyBytes off n s).HistoryOk ∧ (copyBytes off n s).wc.val = (copyBytes off n s).op.toNat % 8191 ∧
    (copyBytes off n s).op.toNat = s.op.toNat + n ∧
    (∀ p, s.op.toNat ≤ p → p < s.op.toNat + n →
      readOut (copyBytes off n s) p = readOut (copyBytes off n s) (p - backDistance off)) ∧
    (∀ p, p < s.op.toNat ∨ s.op.toNat + n ≤ p → readOut (copyBytes off n s) p = readOut s p) := by
  obtain ⟨b1, b2, b3⟩ := backDistance_le off hoff
  induction n with
  | zero => exact ⟨h, hc, rfl, fun p hp hq => absurd hq (by omega), fun p _ => rfl⟩
  | succ n ih =>
    obtain ⟨ih1, ih2, ih3, ih4, ih5⟩ := ih (by omega)
    have hv := copyByte_value ih1 ih2 hoff (by omega)
    have hstep := emit_history ih1 ih2 (by omega)
      (readHist (copyBytes off n s) (histIndex (copyBytes off n s).wc off))
    have hop : (copyBytes off (n + 1) s).op.toNat = s.op.toNat + (n + 1) := by
      rw [copyBytes_op, BitVec.toNat_add, BitVec.toNat_ofNat]
      omega
    refine ⟨hstep.1, hstep.2, hop, fun p hp hq => ?_, fun p hp => ?_⟩
    · simp only [copyBytes, copyByte, readOut_emit, ih3]
      by_cases hpe : p = s.op.toNat + n
      · subst hpe
        rw [if_pos rfl, if_neg (by omega), hv, ih3]
      · rw [if_neg hpe, if_neg (by omega)]
        exact ih4 p hp (by omega)
    · simp only [copyBytes, copyByte, readOut_emit, ih3]
      rw [if_neg (by omega)]
      exact ih5 p (by omega)

end Sys2Proof.Machine
end

