-- ==== Sys2Proof/Laws/PerInstr.lean ====
section
/-! SUPPORT. The family `EncodedForm`: what the encoding of each instruction looks like and that the decoder reads it back. -/

namespace Sys2Proof.Laws.EncodedForm

open Sys2Proof

/-- A command is one byte, which decodes to it (30_encoding R70). A well-formed PRS instruction behind a fresh control byte is
read back, with one byte and one control bit used for each that its format lists (30_encoding R61 to R65). -/
def Statement (i : Instr) : Prop :=
  match encode i with
  | .command code => i.isPrs = false ∧ decodeCmd code = .ok i
  | .prs bits data => i.isPrs = true ∧ (i.wf = true → ∀ rest : List Byte, ∃ q : Reader,
      decodePrs (Reader.start (controlByte bits :: (data ++ rest))) = .ok (i, q) ∧ q.rest = rest ∧
        q.used = data.length + 1 ∧ q.ctl = controlByte bits ∧ q.bi.val = bits.length)

/-- The two fields of `byte0` joined are both zero only where the byte is (30_encoding R63, R64). -/
theorem joined_ne_zero (l : BitVec 5) (z : BitVec 3) (h : z ≠ 0) : l ++ z ≠ (0 : Byte) := by
  revert l z
  decide

theorem joined_zero (l : BitVec 5) : l ++ (0 : BitVec 3) = (0 : Byte) ↔ l = 0 := by
  revert l
  decide

theorem joined_upper (l : BitVec 5) (z : BitVec 3) : (l ++ z : Byte).extractLsb' 3 5 = l := by
  revert l z
  decide

theorem joined_lower (l : BitVec 5) (z : BitVec 3) : (l ++ z : Byte).extractLsb' 0 3 = z := by
  revert l z
  decide

theorem controlByte_lit : controlByte [true] = 1 := by decide

theorem controlByte_short (a b : Bool) :
    controlByte [false, false, a, b] = 4 * (BitVec.ofBool a).zeroExtend 8 + 8 * (BitVec.ofBool b).zeroExtend 8 := by
  revert a b
  decide

theorem controlByte_long : controlByte [false, true] = 2 := by decide

/-- The data bytes of a long form behind its control bits. -/
theorem decode_long (b0 : Byte) (bs : List Byte) :
    decodePrs (Reader.start (2 :: b0 :: bs)) = decodeLong { rest := b0 :: bs, used := 1, ctl := 2, bi := 2 } := by
  simp [decodePrs, Reader.start, Reader.ctlBit, Reader.deliver, Reader.fetch, bind, Except.bind]

theorem lit (d : Byte) : Statement (.lit d) := by
  refine ⟨rfl, fun _ rest => ⟨{ rest := rest, used := 2, ctl := 1, bi := 1 }, ?_, rfl, rfl, controlByte_lit.symm, rfl⟩⟩
  rw [controlByte_lit]
  simp [decodePrs, decodeLit, Reader.start, Reader.ctlBit, Reader.deliver, Reader.fetch, bind, Except.bind]

theorem short (a b : Bool) (o : Byte) : Statement (.short a b o) := by
  refine ⟨rfl, fun _ rest => ⟨{ rest := rest, used := 2, ctl := controlByte [false, false, a, b], bi := 4 }, ?_, rfl, rfl,
    rfl, rfl⟩⟩
  cases a <;> cases b <;>
    simp [controlByte_short, decodePrs, decodeShort, Reader.start, Reader.ctlBit, Reader.deliver, Reader.fetch, bind,
      Except.bind]

theorem longS (l : BitVec 5) (z : BitVec 3) (h : Byte) : Statement (.longS l z h) := by
  refine ⟨rfl, fun hw rest => ?_⟩
  have hz : z ≠ 0 := by simpa [Instr.wf] using hw
  refine ⟨{ rest := rest, used := 3, ctl := 2, bi := 2 }, ?_, rfl, rfl, controlByte_long.symm, rfl⟩
  rw [controlByte_long, List.cons_append, decode_long]
  simp only [decodeLong, Reader.fetch, bind, Except.bind, List.cons_append, joined_upper, joined_lower, if_neg hz,
    List.nil_append, if_neg fun c : l ++ z = (0 : Byte) ∧ h = 0 => joined_ne_zero l z hz c.1]

theorem longL (l : BitVec 5) (h n : Byte) : Statement (.longL l h n) := by
  refine ⟨rfl, fun hw rest => ?_⟩
  have hz : ¬(l = 0 ∧ h = 0) := by simpa [Instr.wf, ← or_iff_not_imp_left, imp_iff_not_or] using hw
  refine ⟨{ rest := rest, used := 4, ctl := 2, bi := 2 }, ?_, rfl, rfl, controlByte_long.symm, rfl⟩
  rw [controlByte_long, List.cons_append, decode_long]
  simp only [decodeLong, Reader.fetch, bind, Except.bind, List.cons_append, joined_zero, joined_upper, joined_lower, if_neg hz,
    if_true, List.nil_append]

theorem eos : Statement .eos := by
  refine ⟨rfl, fun _ rest => ⟨{ rest := rest, used := 3, ctl := 2, bi := 2 }, ?_, rfl, rfl, controlByte_long.symm, rfl⟩⟩
  rw [controlByte_long, List.cons_append, decode_long]
  simp [decodeLong, Reader.fetch, bind, Except.bind]

theorem nop : Statement .nop := ⟨rfl, rfl⟩

theorem reset : Statement .reset := ⟨rfl, rfl⟩

theorem prsdec : Statement .prsdec := ⟨rfl, rfl⟩

theorem xorpass : Statement .xorpass := ⟨rfl, rfl⟩

theorem bcdecStd : Statement .bcdecStd := ⟨rfl, rfl⟩

theorem bcdecCmp : Statement .bcdecCmp := ⟨rfl, rfl⟩

theorem grpdec : Statement .grpdec := ⟨rfl, rfl⟩

theorem hdrdec : Statement .hdrdec := ⟨rfl, rfl⟩

theorem kderive : Statement .kderive := ⟨rfl, rfl⟩

end Sys2Proof.Laws.EncodedForm
end

