-- ==== Sys2Proof/Laws/Step.lean ====
section
/-! SUPPORT. Everything a PRS instruction, a command and a step can do, said once: later proofs cite these and unfold no step. -/

namespace Sys2Proof.Machine

/-- A passing `wait` changes the pending moves only. -/
theorem dropWait_eq (s : State) : dropWait s = { s with host := (dropWait s).host } := by
  unfold dropWait
  split <;> rfl

theorem bytesFrom_congr {s t : State} (n a : Nat) (h : ∀ x, a ≤ x → x < a + n → readBuf s x = readBuf t x) :
    bytesFrom s n a = bytesFrom t n a := by
  induction n generalizing a with
  | zero => rfl
  | succ n ih => rw [bytesFrom, bytesFrom, h a le_rfl (by omega), ih (a + 1) fun x h1 h2 => h x (by omega) (by omega)]

theorem bytesFrom_length (s : State) (n a : Nat) : (bytesFrom s n a).length = n := by
  induction n generalizing a with
  | zero => rfl
  | succ n ih => simp [bytesFrom, ih]

/-- The fetch position does not depend on the host's moves. -/
theorem fetchPosition_dropWait (s : State) : fetchPosition (dropWait s) = fetchPosition s := by
  rw [dropWait_eq s]
  simp only [fetchPosition]
  congr 1
  exact bytesFrom_congr _ _ fun x _ _ => rfl

/-- What a fault of `PRSDEC` does (60_exceptions R205, R208). -/
theorem raisePrs_faulted (c : Cause) (info : Word) (s : State) : s.PrsFaulted c info (raisePrs c info s) :=
  ⟨rfl, rfl, rfl, rfl, rfl⟩

/-- What the end of a run does (41_prs_decoder R101, R107). -/
theorem finishPrs_ended (e : EndKind) (s : State) : s.PrsEnded e (finishPrs e s) := ⟨rfl, rfl, rfl⟩

/-- While a command runs and no hardware reset lands, a step is one `PRS_Step`. -/
theorem step_busy {s : State} (hb : s.st = .busy) (hr : s.NotResetNow) : step s = prsStep (dropWait s) := by
  simp only [step, hb, if_true]
  unfold busyStep
  split
  · rename_i q h
    simp [State.NotResetNow, h] at hr
  · rfl

/-- The next input of a core that is about to be reset. -/
theorem host_of_reset {s : State} (hr : ¬s.NotResetNow) : ∃ q, s.host = .hardReset :: q := by
  simp only [State.NotResetNow, not_not] at hr
  cases hh : s.host with
  | nil => simp [hh] at hr
  | cons a q =>
    simp only [hh, List.head?_cons, Option.some.injEq] at hr
    exact ⟨q, by rw [hr]⟩

theorem shortOffset_le (o : Byte) : shortOffset o ≤ -1 := by
  unfold shortOffset
  have := o.isLt
  omega

/-- The offset of the long forms in plain arithmetic (30_encoding R67). -/
theorem longOffset_eq (l : BitVec 5) (h : Byte) : longOffset l h = ((h.toNat * 32 + l.toNat : Nat) : Int) - 8192 := by
  unfold longOffset
  rw [Nat.shiftLeft_eq]

theorem longOffset_le (l : BitVec 5) (h : Byte) : longOffset l h ≤ -1 := by
  rw [longOffset_eq]
  have := l.isLt
  have := h.isLt
  omega

/-- What a back-reference can do: fault, or copy the clamped number of bytes, at least one where there is room
(41_prs_decoder R110, R111, R115). -/
theorem copy_cases (off : Int) (size : Nat) (s : State) :
    ((s.op.toNat : Int) < -off ∧ copy off size s = raisePrs .corruptData s.ipStart s) ∨
    (-off ≤ (s.op.toNat : Int) ∧ copy off size s = copyBytes off (clampSize size s) s) := by
  unfold copy
  split_ifs with h
  · exact Or.inl ⟨h, rfl⟩
  · exact Or.inr ⟨by omega, rfl⟩

theorem clampSize_le (size : Nat) (s : State) : clampSize size s ≤ s.outLen.toNat - s.op.toNat := Nat.min_le_right _ _

/-- What a PRS instruction can do (41_prs_decoder R104 to R107). -/
theorem exec_prs_cases {i : Instr} {s t : State} (hi : i.isPrs = true) (h : exec i s = .next t) :
    (∃ b, t = emit b s) ∨ t = finishPrs .eos s ∨ t = raisePrs .corruptData s.ipStart s ∨
    (∃ off size, off ≤ -1 ∧ -off ≤ (s.op.toNat : Int) ∧ 2 ≤ size ∧ t = copyBytes off (clampSize size s) s) := by
  have hcopy : ∀ off size, off ≤ -1 → 2 ≤ size → copy off size s = t → (∃ b, t = emit b s) ∨ t = finishPrs .eos s ∨
      t = raisePrs .corruptData s.ipStart s ∨
      (∃ off size, off ≤ -1 ∧ -off ≤ (s.op.toNat : Int) ∧ 2 ≤ size ∧ t = copyBytes off (clampSize size s) s) := by
    rintro off size ho hs rfl
    rcases copy_cases off size s with ⟨-, h⟩ | ⟨hd, h⟩
    · exact Or.inr (Or.inr (Or.inl h))
    · exact Or.inr (Or.inr (Or.inr ⟨off, size, ho, hd, hs, h⟩))
  cases i <;> simp only [Instr.isPrs, Bool.false_eq_true] at hi <;>
    simp only [exec, execLit, execShort, execLongS, execLongL, execEos, Host.Outcome.next.injEq] at h
  · exact Or.inl ⟨_, h.symm⟩
  · exact hcopy _ _ (shortOffset_le _) (by unfold shortSize; omega) h
  · exact hcopy _ _ (longOffset_le _ _) (by unfold longShortSize; omega) h
  · exact hcopy _ _ (longOffset_le _ _) (by unfold longLongSize; omega) h
  · exact Or.inr (Or.inl h.symm)

/-- What one `PRS_Step` can do (41_prs_decoder R101): end the run on a full output, fault on an exhausted stream, or run a
decoded instruction past its bytes. -/
theorem prsStep_cases (s : State) :
    (s.outLen.toNat ≤ s.op.toNat ∧ prsStep s = .next (finishPrs .full s)) ∨
    (s.op.toNat < s.outLen.toNat ∧ prsStep s = .next (raisePrs .inputUnderrun s.ip s)) ∨
    (s.op.toNat < s.outLen.toNat ∧ ∃ i r, decodePrs (fetchPosition s) = .ok (i, r) ∧ i.isPrs = true ∧
      r.used ≤ s.bufLen.toNat - s.ip.toNat ∧ prsStep s = exec i (advance r s)) := by
  unfold prsStep
  split_ifs with h
  · exact Or.inl ⟨h, rfl⟩
  · cases hd : decodePrs (fetchPosition s) with
    | error e => exact Or.inr (Or.inl ⟨by omega, rfl⟩)
    | ok x =>
      obtain ⟨hp, -, he⟩ := decodePrs_ok hd
      have hu := he.used_le
      simp only [fetchPosition, bytesFrom_length, Nat.zero_add] at hu
      exact Or.inr (Or.inr ⟨by omega, x.1, x.2, rfl, hp, hu, rfl⟩)

/-- What a cipher command can do (42_cipher R139): nothing, fault, or change `BUF` below its length and `STATUS`. -/
theorem cipherCommand_cases {κ : Type} {keyOperands : State → Except Trap κ} {lengthBad : State → Bool}
    {body : κ → State → State} (s : State) (hk : ∀ s t, keyOperands s = .error t → t.1 ≠ .none)
    (hf : ∀ k s, body k s = { s with buf := (body k s).buf }) :
    (accepts s = false ∧ whenAccepted (cipherFrame keyOperands lengthBad body) s = s) ∨
    (accepts s = true ∧ ∃ c info, c ≠ Cause.none ∧
      whenAccepted (cipherFrame keyOperands lengthBad body) s = raise (c, info) s) ∨
    (accepts s = true ∧ s.bufLen.toNat ≤ Config.bufMax.toNat ∧ ∃ k, keyOperands s = .ok k ∧ lengthBad s = false ∧
      whenAccepted (cipherFrame keyOperands lengthBad body) s = s.finished (body k (beginCommand s)).buf) := by
  cases ha : accepts s with
  | false => exact Or.inl ⟨rfl, by simp [whenAccepted, ha]⟩
  | true =>
    right
    by_cases hb : Config.bufMax.toNat < s.bufLen.toNat
    · exact Or.inl ⟨rfl, .badLength, s.bufLen, by decide, by simp [whenAccepted, ha, cipherFrame, hb]⟩
    · cases hko : keyOperands s with
      | error t => exact Or.inl ⟨rfl, t.1, t.2, hk s t hko, by simp [whenAccepted, ha, cipherFrame, hb, hko]⟩
      | ok k =>
        cases hl : lengthBad s with
        | true => exact Or.inl ⟨rfl, .badLength, s.bufLen, by decide, by simp [whenAccepted, ha, cipherFrame, hb, hko, hl]⟩
        | false => exact Or.inr ⟨rfl, by omega, k, rfl, rfl, cipherCommand_finished ha (by omega) hko hl (hf k)⟩

theorem selKey_error {s : State} {t : Trap} (h : selKey s = .error t) : t.1 ≠ .none := by
  unfold selKey at h
  split_ifs at h <;> simp at h <;> subst h <;> simp

theorem groupKeys_error {s : State} {t : Trap} (h : groupKeys s = .error t) : t.1 ≠ .none := by
  unfold groupKeys at h
  simp only at h
  split_ifs at h
  simp at h
  subst h
  simp

theorem headerKey_error {s : State} {t : Trap} (h : headerKey s = .error t) : t.1 ≠ .none := by
  unfold headerKey at h
  split_ifs at h
  simp at h
  subst h
  simp

/-- A memory grown from another by writes below a bound. -/
def Memory.GrownBelow (n : Nat) (m m' : List Host.Cell) : Prop :=
  (Memory.wf m → Memory.wf m') ∧ ∀ size, n ≤ size → Memory.within size m → Memory.within size m'

theorem xorBody_grown (key : Word) (s : State) : Memory.GrownBelow s.bufLen.toNat s.buf (xorBody key s).buf :=
  ⟨fun h => xorPass_wf h _ _, fun _ hs h => xorPass_within h _ hs⟩

theorem blockBody_grown (key : Word) (s : State) : Memory.GrownBelow s.bufLen.toNat s.buf (blockBody key s).buf :=
  ⟨fun h => blockPass_wf h _ _, fun _ hs h => blockPass_within h _ (by unfold wholeBlocks; omega)⟩

theorem groupBody_grown (k : Word × Word) (s : State) : Memory.GrownBelow s.bufLen.toNat s.buf (groupBody k s).buf := by
  unfold groupBody
  split_ifs
  · by_cases h : s.bufLen.toNat ≤ 102400
    · rw [groupPasses_short h]
      exact ⟨fun h => blockPass_wf (blockPass_wf (xorPass_wf h _ _) _ _) _ _, fun _ hs h =>
        blockPass_within (blockPass_within (xorPass_within h _ hs) _ (by unfold wholeBlocks; omega)) _
          (by unfold wholeBlocks; omega)⟩
    · rw [groupPasses_long h]
      exact ⟨fun h => blockPass_wf (xorPass_wf h _ _) _ _, fun _ hs h =>
        blockPass_within (xorPass_within h _ hs) _ (by unfold wholeBlocks; omega)⟩
  · exact ⟨id, fun _ _ => id⟩

theorem headerBody_grown (key : Word) {s : State} (h48 : s.bufLen.toNat = 48) :
    Memory.GrownBelow s.bufLen.toNat s.buf (headerBody key s).buf := by
  rw [headerBody_eq]
  exact ⟨fun h => blockPass_wf h _ _, fun _ hs h => blockPass_within h _ (by omega)⟩

/-- Is the command one of the five that decrypt the buffer? -/
def CipherCommand (i : Instr) : Prop := i = .xorpass ∨ i = .bcdecStd ∨ i = .bcdecCmp ∨ i = .grpdec ∨ i = .hdrdec

/-- What a command can do: nothing; reset; fault; refuse to start the engine; start it; decrypt the buffer; derive the keys. -/
theorem exec_command_cases {i : Instr} {s t : State} (hi : i.isPrs = false) (h : exec i s = .next t) :
    t = s ∨ (i = .reset ∧ s.st ≠ .busy ∧ t = resetRegisters s) ∨
    (i ≠ .reset ∧ accepts s = true ∧ ∃ c info, c ≠ Cause.none ∧ t = raise (c, info) s) ∨
    (i = .prsdec ∧ accepts s = true ∧ ∃ info, t = raisePrs .badLength info s) ∨
    (i = .prsdec ∧ accepts s = true ∧ s.bufLen.toNat ≤ Config.bufMax.toNat ∧ s.outLen.toNat ≤ Config.outMax.toNat ∧
      t = startPrs s) ∨
    (CipherCommand i ∧ accepts s = true ∧ s.bufLen.toNat ≤ Config.bufMax.toNat ∧ t = s.finished t.buf ∧
      Memory.GrownBelow s.bufLen.toNat s.buf t.buf) ∨
    (i = .kderive ∧ accepts s = true ∧ t = deriveBody s) := by
  have hc : ∀ {κ : Type} {ko : State → Except Trap κ} {lb : State → Bool} {body : κ → State → State},
      CipherCommand i → (∀ s t, ko s = .error t → t.1 ≠ .none) → (∀ k s, body k s = { s with buf := (body k s).buf }) →
      (∀ k, lb s = false → Memory.GrownBelow s.bufLen.toNat s.buf (body k (beginCommand s)).buf) →
      whenAccepted (cipherFrame ko lb body) s = t →
      t = s ∨ (i ≠ .reset ∧ accepts s = true ∧ ∃ c info, c ≠ Cause.none ∧ t = raise (c, info) s) ∨
      (CipherCommand i ∧ accepts s = true ∧ s.bufLen.toNat ≤ Config.bufMax.toNat ∧ t = s.finished t.buf ∧
        Memory.GrownBelow s.bufLen.toNat s.buf t.buf) := by
    rintro κ ko lb body hci h1 h2 h3 rfl
    rcases cipherCommand_cases (lengthBad := lb) s h1 h2 with ⟨-, h⟩ | ⟨ha, h⟩ | ⟨ha, hb, k, -, hl, h⟩
    · exact Or.inl h
    · exact Or.inr (Or.inl ⟨fun hr => (by subst hr; simp [CipherCommand] at hci), ha, h⟩)
    · rw [h]
      exact Or.inr (Or.inr ⟨hci, ha, hb, rfl, h3 k hl⟩)
  cases i <;> simp only [Instr.isPrs, Bool.true_eq_false] at hi <;>
    simp only [exec, execNop, execReset, execPrsdec, execXorpass, execBcdecStd, execBcdecCmp, execGrpdec, execHdrdec,
      execKderive, Host.Outcome.next.injEq] at h
  · exact Or.inl h.symm
  · split_ifs at h with hb
    · exact Or.inl h.symm
    · exact Or.inr (Or.inl ⟨rfl, hb, h.symm⟩)
  · unfold whenAccepted at h
    split_ifs at h with ha
    · unfold beginPrsdec at h
      split_ifs at h with h1 h2
      · exact Or.inr (Or.inr (Or.inr (Or.inl ⟨rfl, ha, _, h.symm⟩)))
      · exact Or.inr (Or.inr (Or.inr (Or.inl ⟨rfl, ha, _, h.symm⟩)))
      · exact Or.inr (Or.inr (Or.inr (Or.inr (Or.inl ⟨rfl, ha, by omega, by omega, h.symm⟩))))
    · exact Or.inl h.symm
  · rcases hc (by simp [CipherCommand]) (fun _ _ => selKey_error) xorBody_frame
      (fun k _ => xorBody_grown k (beginCommand s)) h with h | h | h
    · exact Or.inl h
    · exact Or.inr (Or.inr (Or.inl h))
    · exact Or.inr (Or.inr (Or.inr (Or.inr (Or.inr (Or.inl h)))))
  · rcases hc (by simp [CipherCommand]) (fun _ _ => selKey_error) blockBody_frame
      (fun k _ => blockBody_grown k (beginCommand s)) h with h | h | h
    · exact Or.inl h
    · exact Or.inr (Or.inr (Or.inl h))
    · exact Or.inr (Or.inr (Or.inr (Or.inr (Or.inr (Or.inl h)))))
  · rcases hc (by simp [CipherCommand]) (fun _ _ => selKey_error) blockBody_frame
      (fun k _ => blockBody_grown k (beginCommand s)) h with h | h | h
    · exact Or.inl h
    · exact Or.inr (Or.inr (Or.inl h))
    · exact Or.inr (Or.inr (Or.inr (Or.inr (Or.inr (Or.inl h)))))
  · rcases hc (by simp [CipherCommand]) (fun _ _ => groupKeys_error) groupBody_frame
      (fun k _ => groupBody_grown k (beginCommand s)) h with h | h | h
    · exact Or.inl h
    · exact Or.inr (Or.inr (Or.inl h))
    · exact Or.inr (Or.inr (Or.inr (Or.inr (Or.inr (Or.inl h)))))
  · rcases hc (by simp [CipherCommand]) (fun _ _ => headerKey_error) headerBody_frame
      (fun k hl => headerBody_grown k (s := beginCommand s) (by simpa [headerLengthBad] using hl)) h with h | h | h
    · exact Or.inl h
    · exact Or.inr (Or.inr (Or.inl h))
    · exact Or.inr (Or.inr (Or.inr (Or.inr (Or.inr (Or.inl h)))))
  · unfold whenAccepted at h
    split_ifs at h with ha
    · exact Or.inr (Or.inr (Or.inr (Or.inr (Or.inr (Or.inr ⟨rfl, ha, h.symm⟩)))))
    · exact Or.inl h.symm

/-- A command that decodes is no PRS instruction. -/
theorem decodeCmd_isPrs {code : Byte} {i : Instr} (h : decodeCmd code = .ok i) : i.isPrs = false := by
  unfold decodeCmd at h
  split_ifs at h <;> simp only [Except.ok.injEq] at h <;> subst h <;> rfl

/-- What a write of `CMD` can do (10_state R26). -/
theorem writeCmd_cases (code : Byte) (s : State) :
    (∃ i, decodeCmd code = .ok i ∧ i.isPrs = false ∧ writeCmd code s = exec i s) ∨
    (decodeCmd code = .error .illegalCommand ∧
      writeCmd code s = .next (whenAccepted (raise (.illegalCommand, code.zeroExtend 32)) s)) := by
  cases h : decodeCmd code with
  | ok i => exact Or.inl ⟨i, rfl, decodeCmd_isPrs h, by simp [writeCmd, h]⟩
  | error e =>
    refine Or.inr ⟨?_, by simp [writeCmd, h]⟩
    unfold decodeCmd at h
    split_ifs at h
    simpa using h.symm

/-- With no command running, a step is the host's next move. -/
theorem step_quiet {s : State} {h : HostOp} {q : List HostOp} (hb : s.st ≠ .busy) (hh : s.host = h :: q) :
    step s = hostMove h { s with host := q } := by
  simp only [step, if_neg hb, quietStep, hh]

/-- With no command running and no move pending, nothing happens. -/
theorem step_idle {s : State} (hb : s.st ≠ .busy) (hh : s.host = []) : step s = .next s := by
  simp only [step, if_neg hb, quietStep, hh]

/-- The kinds of step there are, each with the state it leads to. -/
inductive StepTo (s t : State) : Prop where
  /-- A hardware reset, in any state (70_reset_and_hazards R230). -/
  | hardReset (q : List HostOp) (hh : s.host = .hardReset :: q) (ht : t = Sys2Proof.Machine.hardReset { s with host := q })
  /-- The engine's output is full (41_prs_decoder R101). -/
  | full (hb : s.st = .busy) (hr : s.NotResetNow) (ho : s.outLen.toNat ≤ s.op.toNat) (ht : t = finishPrs .full (dropWait s))
  /-- The engine's stream is exhausted (41_prs_decoder R102). -/
  | underrun (hb : s.st = .busy) (hr : s.NotResetNow) (ho : s.op.toNat < s.outLen.toNat)
      (ht : t = raisePrs .inputUnderrun s.ip (dropWait s))
  /-- The engine runs a PRS instruction (41_prs_decoder R101). -/
  | prs (hb : s.st = .busy) (hr : s.NotResetNow) (ho : s.op.toNat < s.outLen.toNat) (i : Instr) (r : Reader)
      (hd : decodePrs (fetchPosition s) = .ok (i, r)) (hp : i.isPrs = true) (hu : r.used ≤ s.bufLen.toNat - s.ip.toNat)
      (he : exec i (advance r (dropWait s)) = .next t)
  /-- Nothing runs and no input is pending. -/
  | idle (hb : s.st ≠ .busy) (hh : s.host = []) (ht : t = s)
  /-- The host writes a command (10_state R26). -/
  | command (hb : s.st ≠ .busy) (v : Word) (q : List HostOp) (hh : s.host = .writeReg 0 v :: q) (i : Instr)
      (hd : decodeCmd (v.truncate 8) = .ok i) (hp : i.isPrs = false) (he : exec i { s with host := q } = .next t)
  /-- The host writes a code that no command has (60_exceptions R206). -/
  | unknown (hb : s.st ≠ .busy) (v : Word) (q : List HostOp) (hh : s.host = .writeReg 0 v :: q)
      (hd : decodeCmd (v.truncate 8) = .error .illegalCommand)
      (ht : t = whenAccepted (raise (.illegalCommand, (v.truncate 8 : Byte).zeroExtend 32)) { s with host := q })
  /-- The host writes another register (10_state R22). -/
  | operand (hb : s.st ≠ .busy) (reg : Nat) (v : Word) (q : List HostOp) (hh : s.host = .writeReg reg v :: q) (hn : reg ≠ 0)
      (ht : t = whenAccepted (writeOperand reg v) { s with host := q })
  /-- The host reads a register (10_state R22 to R26). -/
  | register (hb : s.st ≠ .busy) (reg : Nat) (q : List HostOp) (hh : s.host = .readReg reg :: q)
      (ht : t = hostReadReg reg { s with host := q })
  /-- The host waits. -/
  | wait (hb : s.st ≠ .busy) (q : List HostOp) (hh : s.host = .wait :: q) (ht : t = { s with host := q })
  /-- The host writes a byte of a buffer (20_memory R40). -/
  | store (ha : accepts s = true) (m : HostMem) (a : Nat) (b : Byte) (q : List HostOp)
      (hh : s.host = .writeByte m a b :: q) (hc : a < capacity m) (ht : t = writeByte m a b { s with host := q })
  /-- The host reads a byte of a buffer (20_memory R40). -/
  | load (hb : s.st ≠ .busy) (m : HostMem) (a : Nat) (q : List HostOp) (hh : s.host = .readByte m a :: q)
      (hc : a < capacity m) (ht : t = { s with host := q, hostData := (readByte m a { s with host := q }).zeroExtend 32 })

/-- Every step that answers a next state is one of these. -/
theorem step_cases {s t : State} (h : step s = .next t) : StepTo s t := by
  by_cases hb : s.st = .busy
  · by_cases hr : s.NotResetNow
    · rw [step_busy hb hr] at h
      rcases prsStep_cases (dropWait s) with ⟨ho, e⟩ | ⟨ho, e⟩ | ⟨ho, i, r, hd, hp, hu, e⟩ <;> rw [e] at h
      · rw [dropWait_eq s] at ho
        exact .full hb hr ho (Host.Outcome.next.inj h).symm
      · rw [dropWait_eq s] at ho
        refine .underrun hb hr ho ?_
        rw [← Host.Outcome.next.inj h, dropWait_eq s]
      · rw [fetchPosition_dropWait] at hd
        rw [dropWait_eq s] at ho hu
        exact .prs hb hr ho i r hd hp hu h
    · obtain ⟨q, hq⟩ := host_of_reset hr
      refine .hardReset q hq ?_
      simp only [step, hb, if_true, busyStep, hq, Host.Outcome.next.injEq] at h
      exact h.symm
  · cases hh : s.host with
    | nil => exact .idle hb hh (Host.Outcome.next.inj ((step_idle hb hh).symm.trans h)).symm
    | cons m q =>
      rw [step_quiet hb hh] at h
      cases m with
      | writeReg reg v =>
        simp only [hostMove, hostWriteReg] at h
        split_ifs at h with hreg
        · subst hreg
          rcases writeCmd_cases (v.truncate 8) { s with host := q } with ⟨i, hd, hp, e⟩ | ⟨hd, e⟩ <;> rw [e] at h
          · exact .command hb v q hh i hd hp h
          · exact .unknown hb v q hh hd (Host.Outcome.next.inj h).symm
        · exact .operand hb reg v q hh hreg (Host.Outcome.next.inj h).symm
      | readReg reg => exact .register hb reg q hh (Host.Outcome.next.inj h).symm
      | wait => exact .wait hb q hh (Host.Outcome.next.inj h).symm
      | hardReset => exact .hardReset q hh (Host.Outcome.next.inj h).symm
      | readByte m a =>
        simp only [hostMove, hostReadByte] at h
        split_ifs at h with hc
        exact .load hb m a q hh (by omega) (Host.Outcome.next.inj h).symm
      | writeByte m a b =>
        simp only [hostMove, hostWriteByte] at h
        split_ifs at h with hc ha
        exact .store ha m a b q hh (by omega) (Host.Outcome.next.inj h).symm

end Sys2Proof.Machine
end

