-- ==== Sys2Proof/Tests/Slice0.lean ====
section
/-! SUPPORT. The model's own tests: expected results come from spec/95_test_vectors (the vector is named at each test) or from the
rule named; and for each statement that has hypotheses a witness that meets them. -/

namespace Sys2Proof.Tests

open Sys2Proof Sys2Proof.Machine

/-- The state an outcome answers, if it answers one. -/
def after : Host.Outcome State Fault Refusal → Option State
  | .next t => some t
  | .fault _ => none
  | .refused _ => none

/-- The engine at the start of a stream. -/
def running (bytes : List Byte) (outLen : Word) : State :=
  { State.reset with
    st := .busy, buf := placeBytes bytes 0 [], bufLen := BitVec.ofNat 32 bytes.length, outLen := outLen }

/-- The engine after it emitted some bytes, at a given fetch position. -/
def midway (bytes : List Byte) (outLen : Word) (emitted : List Byte) (ip : Word) (ctl : Byte) (bi : Fin 9) : State :=
  { emitted.foldl (fun s b => emit b s) (running bytes outLen) with ip := ip, ipStart := ip, ctl := ctl, bi := bi }

/-- An idle core with one host move pending. -/
def asked (h : HostOp) : State := { State.reset with host := [h] }

/-! ## Well-formedness -/

theorem test_illformed_longS : (Instr.longS 3 0 7).wf = false := by decide

theorem test_illformed_longL : (Instr.longL 0 0 7).wf = false := by decide

theorem test_wellformed :
    (Instr.longS 0 1 0).wf = true ∧ (Instr.longL 1 0 0).wf = true ∧ (Instr.longL 0 1 0).wf = true := by decide

/-! ## Decoding (30_encoding R61 to R65 and R70, bit patterns written out) -/

theorem test_decode_lit : decodeTableWord 9 0b1_01000001 = some (.lit 0x41) := by decide

theorem test_decode_lit_bytes : decodeTableWord 16 0x4101 = some (.lit 0x41) := by decide

theorem test_decode_short : decodeTableWord 12 0b0010_11111110 = some (.short true false 0xFE) := by decide

theorem test_decode_short_bytes : decodeTableWord 16 0xFE04 = some (.short true false 0xFE) := by decide

theorem test_decode_longS : decodeTableWord 18 0b01_11010_100_11111111 = some (.longS 26 4 0xFF) := by decide

theorem test_decode_longS_bytes : decodeTableWord 24 0xFFD402 = some (.longS 26 4 0xFF) := by decide

theorem test_decode_longL : decodeTableWord 26 0b01_00000_000_11111111_00000010 = some (.longL 0 0xFF 2) := by decide

theorem test_decode_longL_bytes : decodeTableWord 32 0x02FF0002 = some (.longL 0 0xFF 2) := by decide

theorem test_decode_eos : decodeTableWord 18 0b01_00000_000_00000000 = some .eos := by decide

theorem test_decode_eos_bytes : decodeTableWord 24 0x000002 = some .eos := by decide

theorem test_decode_commands :
    [0x00, 0x01, 0x10, 0x20, 0x21, 0x22, 0x23, 0x24, 0x30].map (decodeTableWord 8) =
      [some .nop, some .reset, some .prsdec, some .xorpass, some .bcdecStd, some .bcdecCmp, some .grpdec, some .hdrdec,
        some .kderive] := by decide

theorem test_decode_unlisted : decodeTableWord 8 0x02 = none ∧ decodeTableWord 8 0x7F = none := by decide

/-- Vector P3: three literals, both long forms, a short one; the second control byte after three data bytes. -/
theorem test_assemble_P3 :
    assemble [.lit 0x61, .lit 0x62, .lit 0x63, .longS 29 7 0xFF, .longL 20 0xFF 0x0A, .short false true 0xFE, .eos] =
      [0x57, 0x61, 0x62, 0x63, 0xEF, 0xFF, 0xA0, 0xFF, 0x0A, 0x14, 0xFE, 0x00, 0x00] := by decide

/-- Vector V-PRS-10: the eighth bit, then data bytes, then the next control byte. -/
theorem test_assemble_lazy :
    assemble [.lit 0x30, .lit 0x31, .lit 0x32, .lit 0x33, .lit 0x34, .lit 0x35, .longS 26 4 0xFF, .lit 0x21, .eos] =
      [0xBF, 0x30, 0x31, 0x32, 0x33, 0x34, 0x35, 0xD4, 0xFF, 0x05, 0x21, 0x00, 0x00] := by decide

/-- The corner of 30_encoding R71: `LONG -8192,3`. -/
theorem test_assemble_corner : assemble [.lit 0x5A, .longS 0 1 0] = [0x05, 0x5A, 0x01, 0x00] := by decide

/-! ## A step runs the placed instruction -/

theorem test_fetch_lit :
    (after (step (State.reset.withFetchWord 9 0b1_01000001))).map (fun t => (t.out, t.op, t.st)) =
      some ([(0, 0x41)], 1, .busy) := by decide

theorem test_fetch_eos :
    (after (step (State.reset.withFetchWord 18 0b01_00000_000_00000000))).map (fun t => (t.st, t.ending, t.ip)) =
      some (.done, .eos, 3) := by decide

/-- `GRPDEC` without keys: `FAULT`, `CAUSE = 5`, `FADDR = 1` (V-GD-3), also with an empty buffer. -/
theorem test_fetch_grpdec :
    (after (step (State.reset.withFetchWord 8 0x23))).map (fun t => (t.st, t.cause, t.faddr)) =
      some (.fault, .keyInvalid, 1) := by decide

/-! ## PRS instructions, one step each -/

/-- V-PRS-2, first step. -/
theorem test_lit :
    (after (step (running [0x17, 0x41, 0x42, 0x43, 0, 0] 100))).map (fun t => (t.out, t.op, t.ip, t.bi, t.ctl, t.wc)) =
      some ([(0, 0x41)], 1, 2, 1, 0x17, ⟨1, by decide⟩) := rfl

/-- The cursor wraps at 8191 (10_state R14). -/
theorem test_lit_wraps : (emit 7 { State.reset with wc := ⟨8190, by decide⟩, outLen := 9 }).wc = ⟨0, by decide⟩ := by decide

/-- Vector P2: `SHORT -1,5` copies the byte it has just written. -/
theorem test_short :
    (after (step (midway [0x59, 0x41, 0xFF, 0, 0] 100 [0x41] 2 0x59 1))).map (fun t => (t.out.map Prod.snd, t.op, t.ip, t.bi)) =
      some ([0x41, 0x41, 0x41, 0x41, 0x41, 0x41], 6, 3, 5) := by decide

/-- V-PRS-20: an offset beyond the output. -/
theorem test_short_corrupt :
    (after (step (midway [0x41, 0x41, 0xFE, 0, 0] 100 [0x41] 2 0x41 1))).map
      (fun t => (t.st, t.cause, t.faddr, t.op, t.out)) = some (.fault, .corruptData, 2, 1, [(0, 0x41)]) := rfl

/-- V-PRS-5: `LONG -2,3`, `-offset = op` is legal. -/
theorem test_longS :
    (after (step (midway [0x2B, 0x61, 0x62, 0xF1, 0xFF, 0, 0] 100 [0x61, 0x62] 3 0x2B 2))).map
      (fun t => (t.out.map Prod.snd, t.op, t.ip, t.bi)) = some ([0x61, 0x62, 0x61, 0x62, 0x61], 5, 5, 4) := by decide

/-- V-PRS-12's clamp with a long form: three bytes asked for, one fits. -/
theorem test_longS_clamped :
    (after (step (midway [0x2B, 0x61, 0x62, 0xF1, 0xFF, 0, 0] 3 [0x61, 0x62] 3 0x2B 2))).map (fun t => (t.op, t.st)) =
      some (3, .busy) := by decide

/-- V-PRS-6: `LONG -2,10`, the smallest size of the form. -/
theorem test_longL :
    (after (step (midway [0x2B, 0x78, 0x79, 0xF0, 0xFF, 0, 0, 0] 100 [0x78, 0x79] 3 0x2B 2))).map
      (fun t => (t.out.map Prod.snd, t.op, t.ip)) =
      some ([0x78, 0x79, 0x78, 0x79, 0x78, 0x79, 0x78, 0x79, 0x78, 0x79, 0x78, 0x79], 12, 6) := by decide

/-- V-PRS-22: `byte0 = 00`, `byte1 = FF` is `LONG.L -32,10`, no `EOS`. -/
theorem test_longL_corrupt :
    (after (step (midway [0x05, 0x41, 0x00, 0xFF, 0x00, 0x02, 0, 0] 100 [0x41] 2 0x05 1))).map
      (fun t => (t.cause, t.faddr, t.op)) = some (.corruptData, 2, 1) := by decide

/-- V-PRS-1. -/
theorem test_eos :
    (after (step (running [0x02, 0, 0] 5))).map (fun t => (statusReg t, t.op, t.ip, t.bi, t.ctl)) =
      some (0x06, 0, 3, 2, 0x02) := by decide

/-- V-PRS-13: an empty output is full before anything is fetched. -/
theorem test_full : (after (step (running [] 0))).map (fun t => (statusReg t, t.ip, t.bi)) = some (0x0A, 0, 8) := by decide

/-- V-PRS-24: the first control byte is missing. -/
theorem test_underrun :
    (after (step (running [] 1))).map (fun t => (t.st, t.cause, t.faddr, t.op)) = some (.fault, .inputUnderrun, 0, 0) := by
  decide

/-- V-PRS-28: `byte2` is missing, found before the offset is looked at. -/
theorem test_underrun_byte2 :
    (after (step (midway [0x05, 0x41, 0xF8, 0xFF] 100 [0x41] 2 0x05 1))).map (fun t => (t.cause, t.faddr, t.op)) =
      some (.inputUnderrun, 2, 1) := by decide

/-! ## Commands -/

/-- V-ST-1: `CMD = 00` changes nothing. -/
theorem test_nop : after (step (asked (.writeReg 0 0))) = some State.reset := by decide

/-- V-ST-1: `CMD = 7F`. -/
theorem test_illegal_command :
    (after (step (asked (.writeReg 0 0x7F)))).map (fun t => (statusReg t, t.cause.code, t.faddr)) = some (0x03, 4, 0x7F) := by
  decide

/-- V-ST-1 and P6: `RESET` from a fault; `BUF` stays. -/
theorem test_reset :
    (after (exec .reset { State.reset with st := .fault, cause := .corruptData, faddr := 2, op := 1, buf := [(0, 0x41)] })).map
      (fun t => (statusReg t, t.cause.code, t.faddr, t.op, t.ksel, t.shift, t.buf)) =
      some (0x00, 0, 0, 0, 5, 16, [(0, 0x41)]) := rfl

/-- P6: `PRSDEC` in `FAULT` is ignored. -/
theorem test_prsdec_ignored :
    after (exec .prsdec { State.reset with st := .fault, cause := .corruptData }) =
      some { State.reset with st := .fault, cause := .corruptData } := by decide

/-- `PRSDEC` on an empty stream starts the engine (41_prs_decoder R100). -/
theorem test_prsdec_starts :
    (after (exec .prsdec { State.reset with op := 3, wc := ⟨3, by decide⟩, bi := 5, ip := 6, st := .done, ending := .eos })).map
      (fun t => (statusReg t, t.op, t.wc, t.bi, t.ip, t.hist)) = some (0x01, 0, ⟨0, by decide⟩, 8, 0, []) := rfl

/-- A word above a capacity, where the capacity leaves one (00_scope R4 allows every value up to 2^32 - 1). -/
theorem above_capacity {m : Word} (h : m ≠ BitVec.allOnes 32) : m.toNat < (BitVec.allOnes 32).toNat := by
  have := m.isLt
  have : m.toNat ≠ (BitVec.allOnes 32).toNat := fun e => h (BitVec.eq_of_toNat_eq e)
  simp only [BitVec.toNat_allOnes] at *
  omega

/-- V-PRS-29: a length above the capacity is `BadLength` with the length in `FADDR`, `op` as before. -/
theorem test_prsdec_badLength (h : Config.bufMax ≠ BitVec.allOnes 32) :
    (after (exec .prsdec { State.reset with bufLen := BitVec.allOnes 32, op := 7 })).map
      (fun t => (t.st, t.cause, t.faddr, t.op)) = some (.fault, .badLength, BitVec.allOnes 32, 7) := by
  have hb : Config.bufMax.toNat < 4294967295 := above_capacity h
  simp [exec, execPrsdec, whenAccepted, accepts, State.reset, beginPrsdec, hb, after]

/-- V-XOR-5: `KSEL = 6`, and `KSEL = 1` without keys. -/
theorem test_xorpass_faults :
    [6, 1].map (fun k => (after (exec .xorpass { State.reset with ksel := k })).map fun t => (t.st, t.cause, t.faddr)) =
      [some (.fault, .illegalCommand, 6), some (.fault, .keyInvalid, 1)] := by decide

/-- The sixteen bytes of V-XOR-4 and V-GD-1. -/
def sixteen : State :=
  { State.reset with
    buf := placeBytes [0x00, 0x4C, 0x01, 0xFF, 0x41, 0x0D, 0x10, 0x20, 0x30, 0x40, 0x50, 0x60, 0x70, 0x80, 0x90, 0xA0] 0 []
    bufLen := 16, keyimm := 0x12345678 }

/-- V-XOR-4, where the buffer holds sixteen bytes. -/
theorem test_xorpass (h : 16 ≤ Config.bufMax.toNat) : ∃ t, exec .xorpass sixteen = .next t ∧ statusReg t = 0x02 ∧
    t.buf.map Prod.snd =
      [0x00, 0x4C, 0x4D, 0xB3, 0x0D, 0x41, 0x5C, 0x6C, 0x7C, 0x0C, 0x1C, 0x2C, 0x3C, 0xCC, 0xDC, 0xEC] :=
  ⟨_, congrArg Host.Outcome.next (cipherCommand_finished (k := 0x12345678) rfl h rfl rfl (xorBody_frame _)), rfl, by decide⟩

/-- V-XOR-1 and V-XOR-2. -/
theorem test_xor_bytes :
    [0, 8, 16, 24, 31].map (xorKeyByte 0x12345678) = [0x00, 0x2E, 0x4C, 0x6A, 0x78] ∧
    [0x00, 0x4C, 0x01, 0xFF, 0x41, 0x0D].map (xorDec 0x4C) = [0x00, 0x4C, 0x4D, 0xB3, 0x0D, 0x41] := by decide

/-- `BC_TEST` of V-BC-0. -/
def bcTest (key : Word) (b : Block) : Block := fun j => b ⟨7 - j.val, by omega⟩ ^^^ key.truncate 8

/-- V-BC-2: two blocks of nineteen bytes transformed, three bytes untouched. -/
theorem test_bcdecCmp :
    (blockPass (bcTest 0x12345678) (wholeBlocks { State.reset with bufLen := 19 }) { State.reset with
      buf := placeBytes [0x00, 0x4C, 0x4D, 0xB3, 0x0D, 0x41, 0x5C, 0x6C, 0x7C, 0x0C, 0x1C, 0x2C, 0x3C, 0xCC, 0xDC, 0xEC, 0xE6,
        0x4C, 0x00] 0 [] }).buf.map Prod.snd =
      [0x14, 0x24, 0x39, 0x75, 0xCB, 0x35, 0x34, 0x78, 0x94, 0xA4, 0xB4, 0x44, 0x54, 0x64, 0x74, 0x04, 0xE6, 0x4C, 0x00] := by
  decide +kernel

/-- V-BC-1: standard mode refuses fifteen bytes, where the buffer holds them. -/
theorem test_bcdecStd_length (h : 15 ≤ Config.bufMax.toNat) :
    exec .bcdecStd { State.reset with bufLen := 15 } = .next (State.reset.faulted .badLength 15 |>
      fun s => { s with bufLen := 15 }) := by
  have : ¬Config.bufMax.toNat < 15 := by omega
  simp [exec, execBcdecStd, whenAccepted, accepts, cipherFrame, selKey, notWholeBlocks, raise, State.reset, State.faulted, this]

/-- V-GD-1: the passes of `GRPDEC` under `BC_TEST` with the keys of V-KD-2. -/
theorem test_grpdec :
    (groupPasses bcTest (0x463729D9, 0x8C6E536B) sixteen).buf.map Prod.snd =
      [0xB2, 0x10, 0x5D, 0xA3, 0x1D, 0x51, 0x4C, 0x7C, 0x6C, 0x1C, 0x0C, 0x3C, 0x2C, 0xDC, 0xCC, 0xFC] := by decide +kernel

/-- V-GD-4: `HDRDEC` without keys. -/
theorem test_hdrdec_keys :
    (after (exec .hdrdec State.reset)).map (fun t => (t.cause, t.faddr)) = some (.keyInvalid, 0) := by decide

/-- V-GD-4: a length that is not 48 (here 0). -/
theorem test_hdrdec_length :
    (after (exec .hdrdec { State.reset with kvalid := true })).map (fun t => (t.cause, t.faddr)) =
      some (.badLength, 0) := by decide

/-- The parameters of V-KD-0. -/
def kdTest : KdParams where
  seedConst := 0
  mixA e s := rotl32 s 1 ^^^ (e ⟨s.toNat % 256, by omega⟩).zeroExtend 32
  mixB _ s := s + 0x01010101
  mixFinal e s := rotl32 s 1 ^^^ (e ⟨s.toNat % 256, by omega⟩).zeroExtend 32
  iterCount seed := seed.toNat % 7 + 2

/-- V-KD-2. -/
theorem test_kderive :
    deriveKeys kdTest (fun i => BitVec.ofNat 8 i.val) 0x1000 =
      { kh := 0xE53B28C6, k1a := 0x463729D9, k1b := 0x8C6E536B, k2a := 0x53B28C6E, k2b := 0xA6D718DC } := by decide +kernel

/-- V-KD-5: another byte in the window of the CRC. -/
theorem test_kderive_window :
    deriveKeys kdTest (fun i => if i.val = 124 then 0 else BitVec.ofNat 8 i.val) 0x1000 =
      { kh := 0x7F1A4004, k1a := 0x0023F8D2, k1b := 0x0047F176, k2a := 0xF1A40047, k2b := 0xE2EC008F } := by decide +kernel

/-! ## The resolver and the host's side -/

/-- L1-1, V-RA-8 and V-RA-10. -/
theorem test_align :
    alignRangesOverCut ⟨8188, 8195⟩ ⟨8191, 8198⟩ 8191 =
      some ([⟨8188, 8190⟩, ⟨8191, 8195⟩], [⟨8191, 8193⟩, ⟨8194, 8198⟩]) ∧
    alignRangesOverCut ⟨8185, 8192⟩ ⟨8188, 8195⟩ 8191 =
      some ([⟨8185, 8187⟩, ⟨8188, 8190⟩, ⟨8191, 8192⟩], [⟨8188, 8190⟩, ⟨8191, 8193⟩, ⟨8194, 8195⟩]) ∧
    alignRangesOverCut ⟨7, 9⟩ ⟨8, 10⟩ 8191 = some ([⟨7, 7⟩, ⟨8, 8⟩, ⟨9, 9⟩], [⟨8, 8⟩, ⟨9, 9⟩, ⟨10, 10⟩]) := by decide

/-- V-RA-2, and the side that would need a fourth range (40_range_algebra R86). -/
theorem test_splitAt :
    splitAt [⟨0, 9⟩] 3 5 = some [⟨0, 2⟩, ⟨3, 5⟩, ⟨6, 9⟩] ∧ splitAt [⟨0, 2⟩, ⟨3, 7⟩] 3 7 = some [⟨0, 2⟩, ⟨3, 7⟩] ∧
    splitAt [⟨0, 9⟩, ⟨10, 19⟩] 3 5 = none := by decide

/-- A register keeps its width (10_state R22), and `KEY1` reads as written by `KDERIVE` (10_state R26). -/
theorem test_registers :
    (after (step (asked (.writeReg 0x0A 0xFF)))).map (fun t => t.shift) = some 31 ∧
    (after (step { asked (.readReg 0x11) with kvalid := true, keys := { kh := 1, k1a := 2, k1b := 3, k2a := 4, k2b := 5 } })).map
      (fun t => t.hostData) = some 2 := by decide

/-- An address outside `ENT` (20_memory R40), and a buffer write in `FAULT` (70_reset_and_hazards R240). -/
theorem test_host_stops :
    step (asked (.readByte .ent 256)) = .fault (.noSuchAddress .ent 256) ∧
    step { asked (.writeByte .ent 255 1) with st := .fault } = .refused (.hostWriteWhileFaulted .ent 255) := ⟨rfl, rfl⟩

/-! ## Witnesses: for each statement with hypotheses, a state and operands that meet them -/

theorem witness_HardwareResetSetsRegisters :
    (asked .hardReset).host = [.hardReset] ∧ ({ running [] 0 with host := [.hardReset] } : State).st = .busy := ⟨rfl, rfl⟩

theorem witness_ResetStateIsIdle : State.reset.st ≠ .busy ∧ State.reset.host = [] := by decide

theorem witness_ResetCommandSetsRegisters : (∃ s : State, s.st ≠ .busy) ∧ (running [] 0).st = .busy :=
  ⟨⟨State.reset, by decide⟩, rfl⟩

theorem witness_NopChangesNothing :
    (asked (.writeReg 0 0x100)).st ≠ .busy ∧ (asked (.writeReg 0 0x100)).host = [.writeReg 0 0x100] ∧
    (0x100 : Word).toNat % 256 = 0 := by decide

theorem witness_StepRunsPrsInstruction :
    (running [1, 0x41] 1).st = .busy ∧ (running [1, 0x41] 1).NotResetNow ∧
    (running [1, 0x41] 1).op.toNat < (running [1, 0x41] 1).outLen.toNat ∧
    decodePrs (fetchPosition (running [1, 0x41] 1)) = .ok (.lit 0x41, { rest := [], used := 2, ctl := 1, bi := 1 }) :=
  ⟨rfl, (nofun : none ≠ some HostOp.hardReset), by decide, rfl⟩

theorem witness_StepRunsWrittenCommand :
    (asked (.writeReg 0 0x30)).st ≠ .busy ∧ (asked (.writeReg 0 0x30)).host = [.writeReg 0 0x30] ∧
    encode .kderive = .command ((0x30 : Word).truncate 8) := by decide

theorem witness_FullOutputEndsRun :
    (running [] 0).st = .busy ∧ (running [] 0).NotResetNow ∧ (running [] 0).op = (running [] 0).outLen :=
  ⟨rfl, (nofun : none ≠ some HostOp.hardReset), rfl⟩

theorem witness_ExhaustedStreamFaults :
    (running [1] 1).st = .busy ∧ (running [1] 1).NotResetNow ∧ (running [1] 1).op.toNat < (running [1] 1).outLen.toNat ∧
    decodePrs (fetchPosition (running [1] 1)) = .error .inputUnderrun :=
  ⟨rfl, (nofun : none ≠ some HostOp.hardReset), by decide, rfl⟩

theorem witness_StepStopsOnlyOnHostAccess : ∀ t, step (asked (.readByte .ent 256)) ≠ .next t :=
  fun _ h => nomatch h

theorem witness_LiteralEmitsItsByte : (running [] 1).op.toNat < (running [] 1).outLen.toNat := by decide

/-- One byte produced: the nearest a back-reference can reach. -/
def produced1 : State := emit 0x41 (running [] 9000)

theorem produced1_ok : produced1.HistoryOk ∧ produced1.wc.val = produced1.op.toNat % 8191 ∧ produced1.op.toNat = 1 :=
  have h := emit_history (s := running [] 9000) (fun _ h => absurd h (Nat.not_lt_zero _)) rfl (by decide) 0x41
  ⟨h.1, h.2, rfl⟩

/-- `n` more bytes produced. -/
@[irreducible] def produced (n : Nat) : State := copyBytes (-1) n produced1

theorem produced_ok (n : Nat) (hn : n < 9000) :
    (produced n).HistoryOk ∧ (produced n).wc.val = (produced n).op.toNat % 8191 ∧ (produced n).op.toNat = 1 + n ∧
    (produced n).outLen = 9000 := by
  have h := copyBytes_output produced1_ok.1 produced1_ok.2.1 (off := -1) (by decide) (by rw [produced1_ok.2.2]; decide) n
    (by rw [produced1_ok.2.2]; omega)
  unfold produced
  refine ⟨h.1, h.2.1, h.2.2.1.trans (by rw [produced1_ok.2.2]), ?_⟩
  rw [copyBytes_frame]
  rfl

/-- 8192 bytes produced: the farthest a back-reference can reach. -/
abbrev produced8192 : State := produced 8191

theorem produced8192_ok :
    produced8192.HistoryOk ∧ produced8192.wc.val = produced8192.op.toNat % 8191 ∧ produced8192.op.toNat = 8192 :=
  have ⟨h1, h2, h3, _⟩ := produced_ok 8191 (by omega)
  ⟨h1, h2, h3.trans (by omega)⟩

theorem produced8192_outLen : produced8192.outLen = 9000 := (produced_ok 8191 (by omega)).2.2.2

theorem witness_ShortCopiesBack :
    produced1.HistoryOk ∧ produced1.wc.val = produced1.op.toNat % 8191 ∧ produced1.op.toNat < produced1.outLen.toNat ∧
    -(((0xFF : Byte).toNat : Int) - 256) ≤ (produced1.op.toNat : Int) :=
  ⟨produced1_ok.1, produced1_ok.2.1, by decide, by decide⟩

/-- The largest and the smallest offset of `LONG.S`. -/
theorem witness_LongShortSizeCopiesBack :
    ((0xF9 : Byte).toNat % 8 ≠ 0 ∧ -((((0xFF : Byte).toNat * 32 + (0xF9 : Byte).toNat / 8 : Nat) : Int) - 8192) ≤
      (produced1.op.toNat : Int)) ∧
    ((0x01 : Byte).toNat % 8 ≠ 0 ∧ produced8192.HistoryOk ∧ produced8192.wc.val = produced8192.op.toNat % 8191 ∧
      produced8192.op.toNat < produced8192.outLen.toNat ∧
      -((((0x00 : Byte).toNat * 32 + (0x01 : Byte).toNat / 8 : Nat) : Int) - 8192) ≤ (produced8192.op.toNat : Int)) := by
  refine ⟨⟨by decide, by rw [produced1_ok.2.2]; decide⟩, by decide, produced8192_ok.1, produced8192_ok.2.1, ?_, ?_⟩
  · rw [produced8192_ok.2.2, produced8192_outLen]
    decide
  · rw [produced8192_ok.2.2]
    decide

/-- `LONG.L -1` and `LONG.L -8191`; `-8192` is `EOS`. -/
theorem witness_LongLongSizeCopiesBack :
    ((0xF8 : Byte).toNat % 8 = 0 ∧ ¬((0xF8 : Byte) = 0 ∧ (0xFF : Byte) = 0) ∧
      -((((0xFF : Byte).toNat * 32 + (0xF8 : Byte).toNat / 8 : Nat) : Int) - 8192) ≤ (produced1.op.toNat : Int)) ∧
    ((0x08 : Byte).toNat % 8 = 0 ∧ ¬((0x08 : Byte) = 0 ∧ (0x00 : Byte) = 0) ∧
      produced8192.op.toNat < produced8192.outLen.toNat ∧
      -((((0x00 : Byte).toNat * 32 + (0x08 : Byte).toNat / 8 : Nat) : Int) - 8192) ≤ (produced8192.op.toNat : Int)) := by
  rw [produced1_ok.2.2, produced8192_ok.2.2, produced8192_outLen]
  decide

/-- Both clauses: an offset one too far, and one just in range. -/
theorem witness_OutOfRangeBackReferenceFaults :
    produced1.st = .busy ∧ (produced1.op.toNat : Int) < -(((0xFE : Byte).toNat : Int) - 256) ∧
    ¬(produced1.op.toNat : Int) < -(((0xFF : Byte).toNat : Int) - 256) := ⟨rfl, by decide, by decide⟩

theorem witness_EndOfStreamEndsRun :
    let s := midway [0xFF, 0, 0] 1 [] 1 0x80 6
    s.st = .busy ∧ s.NotResetNow ∧ s.op.toNat < s.outLen.toNat ∧ s.ip.toNat + 2 ≤ s.bufLen.toNat ∧ s.bi.val ≤ 6 ∧
    s.ctl.getLsbD s.bi.val = false ∧ s.ctl.getLsbD (s.bi.val + 1) = true ∧ readBuf s s.ip.toNat = 0 ∧
    readBuf s (s.ip.toNat + 1) = 0 :=
  ⟨rfl, (nofun : none ≠ some HostOp.hardReset), by decide, by decide, by decide, by decide, by decide, rfl, rfl⟩

/-- Each side of both limits. -/
theorem witness_FarthestOffsetsAlias :
    8192 ≤ (produced 8191).op.toNat ∧ 8191 ≤ (produced 8190).op.toNat ∧ (produced 8190).op.toNat < 8192 ∧
    (produced 8189).op.toNat < 8191 := by
  rw [(produced_ok 8191 (by omega)).2.2.1, (produced_ok 8190 (by omega)).2.2.1, (produced_ok 8189 (by omega)).2.2.1]
  omega

theorem witness_PrsInstructionsWriteOnlyEngineState :
    (Instr.lit 1).isPrs = true ∧ exec (.lit 1) State.reset = .next (emit 1 State.reset) := ⟨rfl, rfl⟩

theorem witness_EngineFaultsArePrecise :
    (running [] 1).st = .busy ∧
    ∃ t, step (running [] 1) = .next t ∧ t.st = .fault := ⟨rfl, _, rfl, rfl⟩

theorem witness_CopyMechanismMatchesReference :
    ((-8192 : Int) ≤ -8192 ∧ (-8192 : Int) ≤ -1 ∧ 1 ≤ 265 ∧ 265 ≤ 265) ∧ ((-8192 : Int) ≤ -1 ∧ 1 ≤ 1) := by decide

theorem witness_RangeAlignmentInvariants :
    (⟨8188, 8195⟩ : Range).start ≤ (⟨8188, 8195⟩ : Range).stop ∧ rangeLength ⟨8188, 8195⟩ = rangeLength ⟨8191, 8198⟩ := by
  decide

theorem witness_RangeAlgebraMeanings :
    (⟨0, 3⟩ : Range).start ≤ (⟨0, 3⟩ : Range).stop ∧ (⟨3, 5⟩ : Range).start ≤ (⟨3, 5⟩ : Range).stop := by decide

theorem witness_DecodeInvertsAssemble :
    ∀ i ∈ [Instr.lit 0, .short true true 0, .longS 0 1 0, .longL 1 0 0, .longL 0 1 0, .eos], i.wf = true ∧ i.isPrs = true := by
  decide

/-- All three clauses: bytes enough, an instruction decoded, and none. -/
theorem witness_DecodeTreeIsTotal :
    5 ≤ (Reader.start [1, 0x41, 0, 0, 0]).rest.length ∧
    decodePrs (Reader.start [1, 0x41]) = .ok (.lit 0x41, { rest := [], used := 2, ctl := 1, bi := 1 }) ∧
    decodePrs (Reader.start [1]) = .error .inputUnderrun := ⟨by decide, rfl, rfl⟩

theorem witness_LaterBytesAreNotExamined :
    decodePrs (Reader.start [2, 0, 0]) = .ok (.eos, { rest := [], used := 3, ctl := 2, bi := 2 }) := rfl

/-- All three clauses. -/
theorem witness_ControlBitsRefillLazily :
    (7 < 8 ∧ (⟨[], 0, 0x80, 7⟩ : Reader).bi.val = 7) ∧ ((Reader.start []).bi.val = 8 ∧ (Reader.start []).rest = []) ∧
    (Reader.start [5]).rest = [5] := by decide

theorem witness_CommandCodesRoundTrip : ∀ i : Instr, encode i ≠ .command 0x7F := by
  intro i
  cases i <;> simp [encode]

/-- All three clauses: the engine starts; `BUF_LEN` above its capacity; `OUT_LEN` above its own, `BUF_LEN` not. -/
theorem witness_PrsdecStartsEngine :
    (accepts State.reset = true ∧ ¬Config.bufMax.toNat < State.reset.bufLen.toNat ∧
      ¬Config.outMax.toNat < State.reset.outLen.toNat) ∧
    (Config.bufMax ≠ BitVec.allOnes 32 →
      ∃ s : State, accepts s = true ∧ Config.bufMax.toNat < s.bufLen.toNat) ∧
    (Config.outMax ≠ BitVec.allOnes 32 →
      ∃ s : State, accepts s = true ∧ ¬Config.bufMax.toNat < s.bufLen.toNat ∧ Config.outMax.toNat < s.outLen.toNat) :=
  ⟨⟨rfl, Nat.not_lt_zero _, Nat.not_lt_zero _⟩,
    fun h => ⟨{ State.reset with bufLen := BitVec.allOnes 32 }, rfl, above_capacity h⟩,
    fun h => ⟨{ State.reset with outLen := BitVec.allOnes 32 }, rfl, Nat.not_lt_zero _, above_capacity h⟩⟩

theorem witness_PrsdecTerminates :
    (running [1, 0x41] 1).st = .busy ∧ (running [1, 0x41] 1).op.toNat ≤ (running [1, 0x41] 1).outLen.toNat ∧
    (running [1, 0x41] 1).NoHardReset := ⟨rfl, by decide, List.not_mem_nil⟩

/-- Two cores with the same stream, of any length the buffer holds, and different keys, history and registers. -/
theorem witness_PrsdecDependsOnStreamOnly :
    let s : State := { State.reset with bufLen := Config.bufMax, outLen := Config.outMax }
    let s' : State := { s with st := .done, ending := .full, op := 7, ip := 9, kvalid := true, hist := [(3, 1)], out := [(0, 1)] }
    accepts s = true ∧ accepts s' = true ∧ s.host = [] ∧ s'.host = [] ∧ s.bufLen = s'.bufLen ∧ s.outLen = s'.outLen ∧
    s.bufLen.toNat ≤ Config.bufMax.toNat ∧ s.outLen.toNat ≤ Config.outMax.toNat ∧
    ∀ a, a < s.bufLen.toNat → readBuf s a = readBuf s' a :=
  ⟨rfl, rfl, rfl, rfl, rfl, rfl, le_rfl, le_rfl, fun _ _ => rfl⟩

/-- An idle core with valid keys and the whole buffer as its operand. -/
def keyed (ksel : BitVec 3) (bufLen : Word) : State :=
  { State.reset with
    kvalid := true, keys := { kh := 1, k1a := 2, k1b := 3, k2a := 4, k2b := 5 }, ksel := ksel, keyimm := 6, bufLen := bufLen }

/-- Every key operand can be selected (also for `StandardModeDecryptsBlocks`, `CompatibilityModeKeepsTail`). -/
theorem witness_XorpassDecryptsEachByte :
    accepts (keyed 0 Config.bufMax) = true ∧ (keyed 0 Config.bufMax).bufLen.toNat ≤ Config.bufMax.toNat ∧
    ∀ k : BitVec 3, k.toNat ≤ 5 → ∃ key, (keyed k Config.bufMax).Selects key := by
  refine ⟨rfl, le_rfl, fun k hk => ?_⟩
  have hs : k = 0 ∨ k = 1 ∨ k = 2 ∨ k = 3 ∨ k = 4 ∨ k = 5 := by
    revert k
    decide
  rcases hs with rfl | rfl | rfl | rfl | rfl | rfl
  · exact ⟨1, Or.inl ⟨rfl, Or.inl ⟨rfl, rfl⟩⟩⟩
  · exact ⟨2, Or.inl ⟨rfl, Or.inr (Or.inl ⟨rfl, rfl⟩)⟩⟩
  · exact ⟨3, Or.inl ⟨rfl, Or.inr (Or.inr (Or.inl ⟨rfl, rfl⟩))⟩⟩
  · exact ⟨4, Or.inl ⟨rfl, Or.inr (Or.inr (Or.inr (Or.inl ⟨rfl, rfl⟩)))⟩⟩
  · exact ⟨5, Or.inl ⟨rfl, Or.inr (Or.inr (Or.inr (Or.inr ⟨rfl, rfl⟩)))⟩⟩
  · exact ⟨6, Or.inr ⟨rfl, rfl⟩⟩

/-- The largest multiple of 8 the buffer holds. -/
def wholeLength : Word := BitVec.ofNat 32 (8 * (Config.bufMax.toNat / 8))

theorem wholeLength_val : wholeLength.toNat = 8 * (Config.bufMax.toNat / 8) := by
  have := Config.bufMax.isLt
  unfold wholeLength
  rw [BitVec.toNat_ofNat]
  omega

theorem witness_StandardModeDecryptsBlocks :
    accepts (keyed 5 wholeLength) = true ∧ (keyed 5 wholeLength).bufLen.toNat ≤ Config.bufMax.toNat ∧
    (keyed 5 wholeLength).Selects 6 ∧ (keyed 5 wholeLength).bufLen.toNat % 8 = 0 := by
  refine ⟨rfl, ?_, Or.inr ⟨rfl, rfl⟩, ?_⟩
  · show wholeLength.toNat ≤ _
    rw [wholeLength_val]
    omega
  · show wholeLength.toNat % 8 = 0
    rw [wholeLength_val]
    omega

theorem witness_CompatibilityModeKeepsTail :
    accepts (keyed 4 Config.bufMax) = true ∧ (keyed 4 Config.bufMax).bufLen.toNat ≤ Config.bufMax.toNat ∧
    (keyed 4 Config.bufMax).Selects 5 :=
  ⟨rfl, le_rfl, Or.inl ⟨rfl, Or.inr (Or.inr (Or.inr (Or.inr ⟨rfl, rfl⟩)))⟩⟩

theorem witness_GroupDecryptPasses :
    accepts (keyed 5 wholeLength) = true ∧ (keyed 5 wholeLength).bufLen.toNat ≤ Config.bufMax.toNat ∧
    (keyed 5 wholeLength).kvalid = true ∧
    ((keyed 5 wholeLength).bufLen.toNat % 8 = 0 ∨ 102400 < (keyed 5 wholeLength).bufLen.toNat) :=
  ⟨rfl, witness_StandardModeDecryptsBlocks.2.1, rfl, Or.inl witness_StandardModeDecryptsBlocks.2.2.2⟩

theorem witness_HeaderDecryptBlocks :
    accepts (keyed 5 48) = true ∧ (keyed 5 48).kvalid = true ∧ (keyed 5 48).bufLen.toNat = 48 := ⟨rfl, rfl, rfl⟩

theorem witness_HeaderAndModesAgree :
    accepts (keyed 0 48) = true ∧ (keyed 0 48).ksel = 0 ∧ (keyed 0 48).bufLen.toNat = 48 ∧ (keyed 0 48).bufLen.toNat % 8 = 0 :=
  ⟨rfl, rfl, rfl, rfl⟩

/-- On the largest multiple of 8 that is within the buffer and up to 102400. -/
theorem witness_GroupDecryptIsPrimitiveChain :
    ∃ n : Word, accepts (keyed 5 n) = true ∧ (keyed 5 n).kvalid = true ∧ (keyed 5 n).bufLen.toNat ≤ Config.bufMax.toNat ∧
      (keyed 5 n).bufLen.toNat % 8 = 0 ∧ (keyed 5 n).bufLen.toNat ≤ 102400 ∧
      (102400 ≤ Config.bufMax.toNat → (keyed 5 n).bufLen.toNat = 102400) := by
  have hb := Config.bufMax.isLt
  refine ⟨BitVec.ofNat 32 (min 102400 (8 * (Config.bufMax.toNat / 8))), rfl, rfl, ?_⟩
  simp only [keyed, BitVec.toNat_ofNat]
  omega

theorem witness_CipherChecksInOrder : accepts (keyed 6 7) = true := rfl

theorem witness_KderiveWritesKeys : accepts State.reset = true := rfl

/-- Two states that differ, with the same entropy and size. -/
theorem witness_KeysArePureFunction :
    let s' : State := { keyed 0 8 with st := .done, kdSize := 0 }
    accepts State.reset = true ∧ accepts s' = true ∧ State.reset.kdSize = s'.kdSize ∧
    (∀ a, a < 256 → readEnt State.reset a = readEnt s' a) ∧ (∃ t, exec .kderive State.reset = .next t) ∧
    ∃ t, exec .kderive s' = .next t := ⟨rfl, rfl, rfl, fun _ _ => rfl, ⟨_, rfl⟩, ⟨_, rfl⟩⟩

/-- Both clauses. -/
theorem witness_IllegalCommandIsRaised :
    ((asked (.writeReg 0 0x7F)).st ≠ .busy ∧ (asked (.writeReg 0 0x7F)).host = [.writeReg 0 0x7F] ∧
      ∀ i : Instr, encode i ≠ .command ((0x7F : Word).truncate 8)) ∧
    (accepts (keyed 7 0) = true ∧ (keyed 7 0).bufLen.toNat ≤ Config.bufMax.toNat ∧ (keyed 7 0).ksel = 7) :=
  ⟨⟨by decide, rfl, witness_CommandCodesRoundTrip⟩, rfl, Nat.zero_le _, rfl⟩

/-- Each clause at the ends of its range. -/
theorem witness_SelKeyGivesTheOperand :
    ((keyed 0 0).kvalid = true ∧ (keyed 0 0).ksel = 0) ∧ (keyed 4 0).ksel = 4 ∧
    (({ keyed 4 0 with kvalid := false } : State).kvalid = false ∧ (keyed 4 0).ksel.toNat ≤ 4) ∧ (keyed 5 0).ksel = 5 ∧
    6 ≤ (keyed 6 0).ksel.toNat := by decide

theorem witness_CommandsIgnoredUnlessAccepted :
    Instr.kderive.isPrs = false ∧ Instr.kderive ≠ .reset ∧ (running [] 0).st = .busy := ⟨rfl, by decide, rfl⟩

/-- A step that stays in `FAULT` and one that leaves it. -/
theorem witness_FaultLeftOnlyByReset :
    (∃ t, step ({ asked (.writeReg 0 0x10) with st := .fault } : State) = .next t ∧ t.st = .fault) ∧
    (∃ t, step ({ asked (.writeReg 0 0x01) with st := .fault } : State) = .next t ∧ t.st = .idle) :=
  ⟨⟨_, rfl, rfl⟩, ⟨_, rfl, rfl⟩⟩

theorem witness_OperandWritesAreTruncated :
    (asked (.writeReg 0x08 0xFF)).st ≠ .busy ∧ (asked (.writeReg 0x08 0xFF)).host = [.writeReg 0x08 0xFF] ∧ 0x08 ≠ 0 ∧
    ({ asked (.writeReg 0x08 0xFF) with st := .fault } : State).st = .fault := ⟨by decide, rfl, by decide, rfl⟩

theorem witness_RegisterReads :
    (asked (.readReg 0x14)).st ≠ .busy ∧ (asked (.readReg 0x14)).host = [.readReg 0x14] ∧
    ({ asked (.readReg 0x14) with kvalid := true } : State).kvalid = true ∧ (0x0C < 0x10 ∧ 0x14 < 0x15) :=
  ⟨by decide, rfl, rfl, by decide, by decide⟩

/-- The last byte of `ENT`. -/
theorem witness_HostReadsWhatItWrote :
    let s : State := { State.reset with host := [.writeByte .ent 255 7, .readByte .ent 255] }
    accepts s = true ∧ 255 < capacity .ent ∧ s.host = [.writeByte .ent 255 7, .readByte .ent 255] := ⟨rfl, by decide, rfl⟩

theorem witness_OnlyKderiveAndResetWriteKeys :
    ∃ t, step (asked (.writeReg 0 0x30)) = .next t ∧ t.kvalid = true := ⟨_, rfl, rfl⟩

theorem witness_InstructionsKeepOperandsAndEntropy : ∃ t, exec .xorpass sixteen = .next t := ⟨_, rfl⟩

theorem witness_WhoWritesTheBuffers (h : 16 ≤ Config.bufMax.toNat) :
    Instr.xorpass.isPrs = false ∧ ∃ t, exec .xorpass sixteen = .next t ∧ t.buf ≠ sixteen.buf := by
  obtain ⟨t, ht, -, hb⟩ := test_xorpass h
  refine ⟨rfl, t, ht, fun hc => ?_⟩
  rw [hc] at hb
  revert hb
  decide

/-- A running engine in the invariants, with a step. -/
theorem witness_running :
    (running [] 0).MemoryOk ∧ (running [] 0).RunOk ∧ (running [] 0).StatusOk ∧ (running [] 0).KeysOk ∧
    ∃ t, step (running [] 0) = .next t :=
  ⟨by constructor <;> simp [running, State.reset, placeBytes],
    fun _ => ⟨le_rfl, Nat.zero_le _, le_rfl, Nat.zero_le _, rfl, fun _ h => absurd h (Nat.not_lt_zero _)⟩,
    by constructor <;> simp [running, State.reset], by simp [State.KeysOk, running, State.reset], _, rfl⟩

end Sys2Proof.Tests
end

section
/-! The range algebra (40_range_algebra R80 to R83). Two ranges intersect when the larger start is at most the smaller stop; the
endpoint tests of R82, a common value and the intersection of R83 are each read through that one inequality. -/

namespace Sys2Proof.Machine

theorem one_le_rangeLength {a : Range} (ha : a.start ≤ a.stop) : 1 ≤ rangeLength a := by
  unfold rangeLength
  omega

@[simp] theorem rangeContains_iff (r : Range) (v : Int) : rangeContains r v = true ↔ r.start ≤ v ∧ v ≤ r.stop := by
  simp [rangeContains]

theorem rangeIntersects_iff_contains_endpoint (a b : Range) :
    rangeIntersects a b = true ↔ rangeContains a b.start = true ∨ rangeContains a b.stop = true ∨
      rangeContains b a.start = true ∨ rangeContains b a.stop = true := by
  simp only [rangeIntersects, Bool.or_eq_true, or_assoc]

/-- The inequality of R82: if it holds, the range that starts later has its start in the other one; an endpoint inside the other
range gives it back. -/
theorem rangeIntersects_iff_max_le_min {a b : Range} (ha : a.start ≤ a.stop) (hb : b.start ≤ b.stop) :
    rangeIntersects a b = true ↔ max a.start b.start ≤ min a.stop b.stop := by
  rw [rangeIntersects_iff_contains_endpoint]
  simp only [rangeContains_iff, max_le_iff, le_min_iff]
  omega

/-- The larger start is the least value both ranges can have. -/
theorem exists_rangeContains_both_iff_max_le_min (a b : Range) :
    (∃ v, rangeContains a v = true ∧ rangeContains b v = true) ↔ max a.start b.start ≤ min a.stop b.stop := by
  simp only [rangeContains_iff]
  constructor
  · rintro ⟨v, ⟨ha, ha'⟩, hb, hb'⟩
    exact (max_le ha hb).trans (le_min ha' hb')
  · intro h
    obtain ⟨ha, hb⟩ := le_min_iff.mp h
    exact ⟨max a.start b.start, ⟨le_max_left _ _, ha⟩, le_max_right _ _, hb⟩

theorem rangeIntersection_eq {a b : Range} (ha : a.start ≤ a.stop) (hb : b.start ≤ b.stop) :
    rangeIntersection a b =
      if max a.start b.start ≤ min a.stop b.stop then ⟨max a.start b.start, min a.stop b.stop⟩ else ⟨-1, -1⟩ := by
  simp only [rangeIntersection, rangeIntersects_iff_max_le_min ha hb]

/-- Settles O23: the test, a common value and the intersection all through `max start ≤ min stop`. -/
theorem rangeAlgebraMeanings : Obligations.RangeAlgebraMeanings := by
  intro a b ha hb
  have hmax := rangeIntersects_iff_max_le_min ha hb
  have hcommon := hmax.trans (exists_rangeContains_both_iff_max_le_min a b).symm
  exact ⟨rfl, one_le_rangeLength ha, rangeContains_iff a, rangeIntersects_iff_contains_endpoint a b, hcommon, hmax,
    rangeIntersection_eq ha hb⟩

end Sys2Proof.Machine
end

section
/-! The control bits (41_prs_decoder R103): the two cases of `CtlBit()`, a bit still latched and a control byte to be fetched. -/

namespace Sys2Proof

/-- Before the eighth bit is used nothing is fetched. -/
theorem ctlBit_latched {r : Reader} (h : r.bi ≠ 8) : r.ctlBit = .ok r.deliver := by
  simp only [Reader.ctlBit, if_neg h]

/-- With all eight bits used, an empty stream has no control byte. -/
theorem ctlBit_exhausted {r : Reader} (h : r.bi = 8) (hr : r.rest = []) : r.ctlBit = .error .inputUnderrun := by
  simp only [Reader.ctlBit, if_pos h, Reader.fetch, hr]

/-- With all eight bits used, the next byte of the stream becomes the control byte and its bit 0 is delivered. -/
theorem ctlBit_refill {r : Reader} {c : Byte} {cs : List Byte} (h : r.bi = 8) (hr : r.rest = c :: cs) :
    r.ctlBit = .ok (c.getLsbD 0, { rest := cs, used := r.used + 1, ctl := c, bi := 1 }) := by
  simp only [Reader.ctlBit, if_pos h, Reader.fetch, hr]
  rfl

/-- Settles O27: `bi` below 8 is the latched case; at 8 the stream is empty or has a first byte. -/
theorem controlBitsRefillLazily : Obligations.ControlBitsRefillLazily := by
  intro r
  refine ⟨fun k hk hbi => ?_, fun hbi => ?_⟩
  · have hne : r.bi ≠ 8 := by
      rintro h8
      simp [h8] at hbi
      omega
    have hnext : (r.bi + 1).val = k + 1 := by
      rw [Fin.val_add_one_of_lt (Fin.lt_def.2 (by simp; omega)), hbi]
    exact ⟨r.deliver.2, by rw [ctlBit_latched hne, ← hbi]; rfl, hnext, rfl, rfl, rfl⟩
  · have h8 : r.bi = 8 := Fin.ext hbi
    exact ⟨ctlBit_exhausted h8, fun c cs hr => ⟨_, ctlBit_refill h8 hr, rfl, rfl, rfl, rfl⟩⟩

end Sys2Proof
end

section
/-! The back-references (41_prs_decoder R110 to R115): what the three instruction forms run, and that their copy depends on the
offset modulo 8191 only. -/

namespace Sys2Proof.Machine

theorem exec_short (a b : Bool) (o : Byte) (s : State) :
    exec (.short a b o) s = .next (copy (shortOffset o) (shortSize a b) s) := rfl

theorem exec_longS (l : BitVec 5) (z : BitVec 3) (h : Byte) (s : State) :
    exec (.longS l z h) s = .next (copy (longOffset l h) (longShortSize z) s) := rfl

theorem exec_longL (l : BitVec 5) (h n : Byte) (s : State) :
    exec (.longL l h n) s = .next (copy (longOffset l h) (longLongSize n) s) := rfl

theorem copy_out_of_range {off : Int} {s : State} (h : (s.op.toNat : Int) < -off) (size : Nat) :
    copy off size s = raisePrs .corruptData s.ipStart s := if_pos h

theorem copy_in_range {off : Int} {s : State} (h : -off ≤ (s.op.toNat : Int)) (size : Nat) :
    copy off size s = copyBytes off (clampSize size s) s := if_neg (not_lt.2 h)

@[simp] theorem copyBytes_st (off : Int) (n : Nat) (s : State) : (copyBytes off n s).st = s.st := by
  rw [copyBytes_frame]

/-- In a running engine a back-reference faults exactly when it reaches before the first byte produced. -/
theorem copy_st_fault_iff {s : State} (hb : s.st = .busy) (off : Int) (size : Nat) :
    (copy off size s).st = .fault ↔ (s.op.toNat : Int) < -off := by
  by_cases h : (s.op.toNat : Int) < -off
  · simp [copy_out_of_range h, h]
  · simp [copy_in_range (not_lt.1 h), hb, h]

/-- Settles O16: each of the three forms is a copy from an offset of at most -1, whose range check decides. -/
theorem outOfRangeBackReferenceFaults : Obligations.OutOfRangeBackReferenceFaults := by
  intro i off s hi hb
  have hrun : off ≤ -1 ∧ ∃ size, exec i s = .next (copy off size s) := by
    rcases hi with ⟨a, b, o, rfl, rfl⟩ | ⟨l, z, h, rfl, rfl⟩ | ⟨l, h, n, rfl, rfl⟩
    · exact ⟨shortOffset_le o, _, exec_short a b o s⟩
    · rw [← longOffset_eq]
      exact ⟨longOffset_le l h, _, exec_longS l z h s⟩
    · rw [← longOffset_eq]
      exact ⟨longOffset_le l h, _, exec_longL l h n s⟩
  obtain ⟨hoff, size, hexec⟩ := hrun
  refine ⟨hoff, _, hexec, copy_st_fault_iff hb off size, fun hfar => ?_⟩
  rw [copy_out_of_range hfar]
  exact raisePrs_faulted _ _ s

theorem histIndex_congr {off off' : Int} (h : off % 8191 = off' % 8191) (w : Fin 8191) :
    histIndex w off = histIndex w off' := by
  apply Fin.ext
  have := histIndex_val w off
  have := histIndex_val w off'
  omega

/-- A copy reads and writes the same addresses for offsets that agree modulo 8191 (20_memory R43). -/
theorem copyBytes_congr {off off' : Int} (h : off % 8191 = off' % 8191) (n : Nat) (s : State) :
    copyBytes off n s = copyBytes off' n s := by
  induction n with
  | zero => rfl
  | succ n ih => simp only [copyBytes, copyByte, ih, histIndex_congr h]

theorem histIndex_neg_8191 (w : Fin 8191) : histIndex w (-8191) = w := by
  apply Fin.ext
  have := histIndex_val w (-8191)
  omega

/-- At offset -8191 the byte read is the byte about to be overwritten (41_prs_decoder R114). -/
theorem readHist_copyBytes_neg_8191 (n : Nat) (s : State) (a : Fin 8191) :
    readHist (copyBytes (-8191) n s) a = readHist s a := by
  induction n with
  | zero => rfl
  | succ n ih =>
    rw [copyBytes, copyByte, readHist_emit, histIndex_neg_8191]
    split_ifs with h
    · rw [← h, ih]
    · exact ih

/-- A long back-reference at offset -8191, of either size form: harmless to `HIST` in range, `CorruptData` out of range. -/
theorem copy_neg_8191 (size : Nat) (s : State) :
    (8191 ≤ s.op.toNat → (copy (-8191) size s).st = s.st ∧ ∀ a, readHist (copy (-8191) size s) a = readHist s a) ∧
    (s.op.toNat < 8191 → (copy (-8191) size s).st = .fault ∧ (copy (-8191) size s).cause = .corruptData) := by
  refine ⟨fun h => ?_, fun h => ?_⟩
  · rw [copy_in_range (by omega)]
    exact ⟨copyBytes_st _ _ s, readHist_copyBytes_neg_8191 _ s⟩
  · rw [copy_out_of_range (by omega)]
    exact ⟨rfl, rfl⟩

/-- Settles O18: -8192 and -1 agree modulo 8191, and -8191 is 0 modulo 8191. -/
theorem farthestOffsetsAlias : Obligations.FarthestOffsetsAlias := by
  intro z n s
  have h8192 : longOffset 0 0 = -8192 := by decide
  have h8191 : longOffset 1 0 = -8191 := by decide
  have h1 : longOffset 31 255 = -1 := by decide
  refine ⟨fun hop => ?_, fun hop => ?_, fun i hi => ?_⟩
  · rw [exec_longS, exec_longS, h8192, h1, copy_in_range (by omega), copy_in_range (by omega),
      copyBytes_congr (off := -8192) (off' := -1) (by decide)]
  · rw [exec_longS, h8192, copy_out_of_range (by omega)]
    exact ⟨_, rfl, rfl, rfl⟩
  · have hrun : ∃ size, exec i s = .next (copy (-8191) size s) := by
      rcases hi with rfl | rfl
      · exact ⟨_, by rw [exec_longS, h8191]⟩
      · exact ⟨_, by rw [exec_longL, h8191]⟩
    obtain ⟨size, hexec⟩ := hrun
    obtain ⟨hin, hout⟩ := copy_neg_8191 size s
    exact ⟨fun hop => ⟨_, hexec, hin hop⟩, fun hop => ⟨_, hexec, hout hop⟩⟩

end Sys2Proof.Machine
end

section
/-! The copy mechanism (41_prs_decoder R112). A side is a range cut at positions (40_range_algebra R85); both sides of the resolver
end as one and the same refinement of `[0, n-1]`, and cutting a pair of parts alike does not change what the sub-copies do. -/

namespace Sys2Proof.Machine

/-! ### Cutting a side -/

@[simp] theorem cutBefore_nil (p : Int) : cutBefore p [] = [] := rfl

theorem cutBefore_cons_inside {p : Int} {r : Range} (h : r.start < p ∧ p ≤ r.stop) (rs : List Range) :
    cutBefore p (r :: rs) = ⟨r.start, p - 1⟩ :: ⟨p, r.stop⟩ :: cutBefore p rs := by
  simp [cutBefore, h]

theorem cutBefore_cons_outside {p : Int} {r : Range} (h : ¬(r.start < p ∧ p ≤ r.stop)) (rs : List Range) :
    cutBefore p (r :: rs) = r :: cutBefore p rs := by
  simp [cutBefore, h]

@[simp] theorem shiftSide_nil (d : Int) : shiftSide d [] = [] := rfl

@[simp] theorem shiftSide_cons (d : Int) (r : Range) (rs : List Range) :
    shiftSide d (r :: rs) = ⟨r.start + d, r.stop + d⟩ :: shiftSide d rs := rfl

/-- Moving a side moves its cuts with it (40_range_algebra R90). -/
theorem shiftSide_cutBefore (d p : Int) (side : List Range) :
    shiftSide d (cutBefore p side) = cutBefore (p + d) (shiftSide d side) := by
  induction side with
  | nil => rfl
  | cons r rs ih =>
    by_cases h : r.start < p ∧ p ≤ r.stop
    · rw [cutBefore_cons_inside h, shiftSide_cons, shiftSide_cons, shiftSide_cons, ih,
        cutBefore_cons_inside ⟨by simp only; omega, by simp only; omega⟩, sub_add_eq_add_sub]
    · rw [cutBefore_cons_outside h, shiftSide_cons, shiftSide_cons, ih, cutBefore_cons_outside (by simp only; omega)]

/-! ### The resolver -/

/-- Two ranges that overlap cut both sides at the ends of their intersection (40_range_algebra R89, R91), if the capacity allows. -/
theorem splitBoth_overlap {a b : Range} (ha : a.start ≤ a.stop) (hb : b.start ≤ b.stop) {S D S' D' : List Range} {lo hi : Int}
    (hlo : max a.start b.start = lo) (hhi : min a.stop b.stop + 1 = hi) (hlt : lo < hi)
    (hS : cutBefore hi (cutBefore lo S) = S') (hD : cutBefore hi (cutBefore lo D) = D')
    (lS : S'.length ≤ rangeSetCap) (lD : D'.length ≤ rangeSetCap) : splitBoth a b (S, D) = some (S', D') := by
  subst hlo hhi hS hD
  have hle : max a.start b.start ≤ min a.stop b.stop := by omega
  simp only [splitBoth, (rangeIntersects_iff_max_le_min ha hb).2 hle, if_true, rangeIntersection_eq ha hb, if_pos hle, splitAt,
    if_pos lS, if_pos lD]

theorem cutBefore_single_length_le (p : Int) (r : Range) : (cutBefore p [r]).length ≤ 2 := by
  by_cases h : r.start < p ∧ p ≤ r.stop
  · rw [cutBefore_cons_inside h]
    rfl
  · rw [cutBefore_cons_outside h]
    exact Nat.le_succ 1

/-- A position behind a range cuts none of its parts. -/
theorem cutBefore_behind {p q : Int} {r : Range} (h : r.stop < p) : cutBefore p (cutBefore q [r]) = cutBefore q [r] := by
  by_cases hq : r.start < q ∧ q ≤ r.stop
  · rw [cutBefore_cons_inside hq, cutBefore_cons_outside (by simp only; omega), cutBefore_cons_outside (by simp only; omega)]
    rfl
  · rw [cutBefore_cons_outside hq, cutBefore_nil, cutBefore_cons_outside (by omega), cutBefore_nil]

/-- Of two overlapping ranges, the one that starts and stops first is cut where the other starts, and the other where the first has
ended (40_range_algebra R89). -/
theorem splitBoth_shifted {a b : Range} (hstart : a.start ≤ b.start) (hmeet : b.start ≤ a.stop) (hstop : a.stop ≤ b.stop) :
    splitBoth a b ([a], [b]) = some (cutBefore b.start [a], cutBefore (a.stop + 1) [b]) ∧
    splitBoth b a ([b], [a]) = some (cutBefore (a.stop + 1) [b], cutBefore b.start [a]) := by
  have ha : cutBefore (a.stop + 1) (cutBefore b.start [a]) = cutBefore b.start [a] := cutBefore_behind (by omega)
  have hb : cutBefore (a.stop + 1) (cutBefore b.start [b]) = cutBefore (a.stop + 1) [b] := by
    rw [cutBefore_cons_outside (p := b.start) (by omega), cutBefore_nil]
  have la := (cutBefore_single_length_le b.start a).trans (Nat.le_succ 2)
  have lb := (cutBefore_single_length_le (a.stop + 1) b).trans (Nat.le_succ 2)
  exact ⟨splitBoth_overlap (by omega) (by omega) (by omega) (by omega) (by omega) ha hb la lb,
    splitBoth_overlap (by omega) (by omega) (by omega) (by omega) (by omega) hb ha lb la⟩

/-- Steps 1 and 2 cut each side at one position or not at all (40_range_algebra R88, R89). -/
theorem splitSelfOverlap_cutBefore {src dst : Range} (h : src.start ≤ src.stop) (hlen : rangeLength src = rangeLength dst)
    (cut : Int) : ∃ p q, splitSelfOverlap (cutBefore cut [src], cutBefore cut [dst]) =
      some (cutBefore p [src], cutBefore q [dst]) := by
  by_cases hs : src.start < cut ∧ cut ≤ src.stop
  · refine ⟨cut, cut, ?_⟩
    rw [cutBefore_cons_inside hs]
    rfl
  by_cases hd : dst.start < cut ∧ cut ≤ dst.stop
  · refine ⟨cut, cut, ?_⟩
    rw [cutBefore_cons_outside hs, cutBefore_cons_inside hd]
    rfl
  cases hx : rangeIntersects src dst with
  | false =>
    refine ⟨cut, cut, ?_⟩
    simp only [cutBefore_cons_outside hs, cutBefore_cons_outside hd, cutBefore_nil, splitSelfOverlap, splitBoth, hx,
      Bool.false_eq_true, if_false]
  | true =>
    simp only [rangeLength] at hlen
    have hle := (rangeIntersects_iff_max_le_min h (by omega)).1 hx
    rw [cutBefore_cons_outside hs, cutBefore_cons_outside hd]
    rcases le_total src.start dst.start with hstart | hstart
    · exact ⟨_, _, (splitBoth_shifted hstart (by omega) (by omega)).1⟩
    · exact ⟨_, _, (splitBoth_shifted hstart (by omega) (by omega)).2⟩

theorem propagate_two {S D : List Range} (h : max S.length D.length = 2) :
    propagate (S, D) = (splitBoth (clampedPart S 0) (clampedPart D 0) (S, D)).bind fun t =>
      splitBoth (clampedPart t.1 1) (clampedPart t.2 1) t := by
  simp [propagate, h, List.range_succ, Option.bind_eq_bind]

theorem propagate_one {S D : List Range} (h : max S.length D.length = 1) :
    propagate (S, D) = splitBoth (clampedPart S 0) (clampedPart D 0) (S, D) := by
  simp [propagate, h]

theorem cutBefore_inside {p a b : Int} (h : a < p) (h' : p ≤ b) (rs : List Range) :
    cutBefore p (⟨a, b⟩ :: rs) = ⟨a, p - 1⟩ :: ⟨p, b⟩ :: cutBefore p rs := cutBefore_cons_inside ⟨h, h'⟩ rs

theorem cutBefore_not_after {p a b : Int} (h : p ≤ a) (rs : List Range) :
    cutBefore p (⟨a, b⟩ :: rs) = ⟨a, b⟩ :: cutBefore p rs := cutBefore_cons_outside (fun hc => absurd hc.1 (not_lt.2 h)) rs

theorem cutBefore_past {p a b : Int} (h : b < p) (rs : List Range) :
    cutBefore p (⟨a, b⟩ :: rs) = ⟨a, b⟩ :: cutBefore p rs := cutBefore_cons_outside (fun hc => absurd hc.2 (not_le.2 h)) rs

/-- Two parts that start together cut both sides where the shorter one ends (40_range_algebra R91). -/
theorem splitBoth_from {u v w hi : Int} (hlt : u < hi) (hhi : min v w + 1 = hi) {S D S' D' : List Range}
    (hS : cutBefore hi (cutBefore u S) = S') (hD : cutBefore hi (cutBefore u D) = D')
    (lS : S'.length ≤ 3) (lD : D'.length ≤ 3) : splitBoth ⟨u, v⟩ ⟨u, w⟩ (S, D) = some (S', D') :=
  splitBoth_overlap (by simp only; omega) (by simp only; omega) (max_self u) hhi hlt hS hD lS lD

/-- Neither side cut: one pair of parts, the whole range on both sides. -/
theorem propagate_uncut {n : Int} (hn : 0 ≤ n) : propagate ([⟨0, n⟩], [⟨0, n⟩]) = some ([⟨0, n⟩], [⟨0, n⟩]) := by
  have hkeep : cutBefore (n + 1) (cutBefore 0 [⟨0, n⟩]) = [⟨0, n⟩] := by
    simp (disch := omega) only [cutBefore_not_after, cutBefore_past, cutBefore_nil]
  rw [propagate_one rfl]
  exact splitBoth_from (by omega) (by omega) hkeep hkeep (by simp) (by simp)

/-- A side cut at `c`, the other one cut there too or nowhere: after the first pair both are cut at `c`, and the second pair changes
nothing. -/
theorem propagate_cut_at {n c : Int} (h0 : 0 < c) (hcn : c ≤ n) {D : List Range}
    (hD : D = [⟨0, n⟩] ∨ D = [⟨0, c - 1⟩, ⟨c, n⟩]) :
    propagate ([⟨0, c - 1⟩, ⟨c, n⟩], D) = some ([⟨0, c - 1⟩, ⟨c, n⟩], [⟨0, c - 1⟩, ⟨c, n⟩]) := by
  have hkeep : cutBefore c (cutBefore 0 [⟨0, c - 1⟩, ⟨c, n⟩]) = [⟨0, c - 1⟩, ⟨c, n⟩] := by
    simp (disch := omega) only [cutBefore_not_after, cutBefore_past, cutBefore_nil]
  have hcut : cutBefore c (cutBefore 0 [⟨0, n⟩]) = [⟨0, c - 1⟩, ⟨c, n⟩] := by
    simp (disch := omega) only [cutBefore_inside, cutBefore_not_after, cutBefore_nil]
  have hkeep' : cutBefore (n + 1) (cutBefore c [⟨0, c - 1⟩, ⟨c, n⟩]) = [⟨0, c - 1⟩, ⟨c, n⟩] := by
    simp (disch := omega) only [cutBefore_not_after, cutBefore_past, cutBefore_nil]
  rw [propagate_two (by rcases hD with rfl | rfl <;> rfl)]
  refine Option.bind_eq_some_iff.2 ⟨([⟨0, c - 1⟩, ⟨c, n⟩], [⟨0, c - 1⟩, ⟨c, n⟩]), ?_, ?_⟩
  · rcases hD with rfl | rfl
    · exact splitBoth_from h0 (by omega) hkeep hcut (by simp) (by simp)
    · exact splitBoth_from h0 (by omega) hkeep hkeep (by simp) (by simp)
  · exact splitBoth_from (by omega) (by omega) hkeep' hkeep' (by simp) (by simp)

/-- Each side cut once, the first one earlier: the first pair cuts the second side at `c`, the second pair the first side at `e`
(40_range_algebra R91). -/
theorem propagate_cut_twice {n c e : Int} (h0 : 0 < c) (hce : c < e) (hen : e ≤ n) :
    propagate ([⟨0, c - 1⟩, ⟨c, n⟩], [⟨0, e - 1⟩, ⟨e, n⟩]) =
      some ([⟨0, c - 1⟩, ⟨c, e - 1⟩, ⟨e, n⟩], [⟨0, c - 1⟩, ⟨c, e - 1⟩, ⟨e, n⟩]) := by
  have hS : cutBefore c (cutBefore 0 [⟨0, c - 1⟩, ⟨c, n⟩]) = [⟨0, c - 1⟩, ⟨c, n⟩] := by
    simp (disch := omega) only [cutBefore_not_after, cutBefore_past, cutBefore_nil]
  have hD : cutBefore c (cutBefore 0 [⟨0, e - 1⟩, ⟨e, n⟩]) = [⟨0, c - 1⟩, ⟨c, e - 1⟩, ⟨e, n⟩] := by
    simp (disch := omega) only [cutBefore_inside, cutBefore_not_after, cutBefore_nil]
  have hS' : cutBefore e (cutBefore c [⟨0, c - 1⟩, ⟨c, n⟩]) = [⟨0, c - 1⟩, ⟨c, e - 1⟩, ⟨e, n⟩] := by
    simp (disch := omega) only [cutBefore_inside, cutBefore_not_after, cutBefore_past, cutBefore_nil]
  have hD' : cutBefore e (cutBefore c [⟨0, c - 1⟩, ⟨c, e - 1⟩, ⟨e, n⟩]) = [⟨0, c - 1⟩, ⟨c, e - 1⟩, ⟨e, n⟩] := by
    simp (disch := omega) only [cutBefore_not_after, cutBefore_past, cutBefore_nil]
  rw [propagate_two rfl]
  refine Option.bind_eq_some_iff.2 ⟨_, splitBoth_from h0 (by omega) hS hD (by simp) (by simp), ?_⟩
  exact splitBoth_from hce (by omega) hS' hD' (by simp) (by simp)

theorem splitBoth_swap (a b : Range) (S D : List Range) :
    splitBoth b a (D, S) = (splitBoth a b (S, D)).map Prod.swap := by
  have hi : rangeIntersects b a = rangeIntersects a b := by
    rw [Bool.eq_iff_iff, rangeIntersects_iff_contains_endpoint, rangeIntersects_iff_contains_endpoint]
    tauto
  have hx : rangeIntersection b a = rangeIntersection a b := by
    simp only [rangeIntersection, hi, max_comm b.start, min_comm b.stop]
  simp only [splitBoth, hi, hx]
  split_ifs
  · cases splitAt S (rangeIntersection a b).start (rangeIntersection a b).stop <;>
      cases splitAt D (rangeIntersection a b).start (rangeIntersection a b).stop <;> rfl
  · rfl

/-- The two sides play the same part in the resolver. -/
theorem propagate_swap (S D : List Range) : propagate (D, S) = (propagate (S, D)).map Prod.swap := by
  unfold propagate
  simp only [max_comm D.length]
  generalize List.range (max S.length D.length) = is
  induction is generalizing S D with
  | nil => rfl
  | cons i is ih =>
    simp only [List.foldlM_cons, splitBoth_swap (clampedPart S i) (clampedPart D i) S D]
    cases splitBoth (clampedPart S i) (clampedPart D i) (S, D) with
    | none => rfl
    | some t => exact ih t.1 t.2

/-- A cut of `[0, n]` anywhere is a cut before one of `1 .. n + 1`, the last of which cuts nothing. -/
theorem exists_cutBefore_eq {n : Int} (hn : 0 ≤ n) (p : Int) :
    ∃ c, 0 < c ∧ c ≤ n + 1 ∧ cutBefore p [⟨0, n⟩] = cutBefore c [⟨0, n⟩] := by
  by_cases hp : 0 < p ∧ p ≤ n
  · exact ⟨p, hp.1, by omega, rfl⟩
  · exact ⟨n + 1, by omega, le_rfl, by rw [cutBefore_cons_outside hp, cutBefore_past (by omega), cutBefore_nil, cutBefore_nil]⟩

/-- Step 4 takes two sides with one cut each to the refinement by both cuts, the same on both sides (40_range_algebra R91). -/
theorem propagate_cutBefore {n : Int} (hn : 0 ≤ n) (p q : Int) :
    ∃ c e, propagate (cutBefore p [⟨0, n⟩], cutBefore q [⟨0, n⟩]) =
      some (cutBefore e (cutBefore c [⟨0, n⟩]), cutBefore e (cutBefore c [⟨0, n⟩])) := by
  obtain ⟨c, hc0, hcn, hp⟩ := exists_cutBefore_eq hn p
  obtain ⟨e, he0, hen, hq⟩ := exists_cutBefore_eq hn q
  rw [hp, hq]
  clear hp hq
  wlog hce : c ≤ e generalizing c e
  · obtain ⟨c', e', h⟩ := this e he0 hen c hc0 hcn (by omega)
    exact ⟨c', e', by rw [propagate_swap, h]; rfl⟩
  refine ⟨c, e, ?_⟩
  rcases hcn.eq_or_lt with rfl | hcn
  · obtain rfl : e = n + 1 := by omega
    have hT : cutBefore (n + 1) [⟨0, n⟩] = [⟨0, n⟩] := cutBefore_past (by omega) []
    rw [hT, hT]
    exact propagate_uncut hn
  have hTc : cutBefore c [⟨0, n⟩] = [⟨0, c - 1⟩, ⟨c, n⟩] := cutBefore_inside hc0 (by omega) []
  rw [hTc]
  by_cases hlt : c < e ∧ e ≤ n
  · have hTe : cutBefore e [⟨0, n⟩] = [⟨0, e - 1⟩, ⟨e, n⟩] := cutBefore_inside he0 hlt.2 []
    have hTce : cutBefore e [⟨0, c - 1⟩, ⟨c, n⟩] = [⟨0, c - 1⟩, ⟨c, e - 1⟩, ⟨e, n⟩] := by
      simp (disch := omega) only [cutBefore_inside, cutBefore_past, cutBefore_nil]
    rw [hTe, hTce]
    exact propagate_cut_twice hc0 hlt.1 hlt.2
  · have hTce : cutBefore e [⟨0, c - 1⟩, ⟨c, n⟩] = [⟨0, c - 1⟩, ⟨c, n⟩] := by
      rw [cutBefore_past (by omega), cutBefore_cons_outside (by simp only; omega), cutBefore_nil]
    rw [hTce]
    refine propagate_cut_at hc0 (by omega) ?_
    rcases hce.eq_or_lt with rfl | hce
    · exact Or.inr hTc
    · exact Or.inl (cutBefore_past (by omega) [])

/-- The resolver never fails on ranges of equal length, and its two sides are one refinement of `[0, n-1]` moved to each start
(40_range_algebra R95). -/
theorem alignRangesOverCut_eq {src dst : Range} (h : src.start ≤ src.stop) (hlen : rangeLength src = rangeLength dst) (cut : Int) :
    ∃ c e, alignRangesOverCut src dst cut =
      some (shiftSide src.start (cutBefore e (cutBefore c [⟨0, rangeLength src - 1⟩])),
        shiftSide dst.start (cutBefore e (cutBefore c [⟨0, rangeLength src - 1⟩]))) := by
  obtain ⟨p, q, hsplit⟩ := splitSelfOverlap_cutBefore h hlen cut
  have hn : 0 ≤ rangeLength src - 1 := by
    have := one_le_rangeLength h
    omega
  obtain ⟨c, e, hprop⟩ := propagate_cutBefore hn (p + -src.start) (q + -dst.start)
  have hnorm : ∀ r : Range, rangeLength src = rangeLength r → shiftSide (-r.start) [r] = [⟨0, rangeLength src - 1⟩] := by
    intro r hr
    rw [hr]
    simp [rangeLength, sub_eq_add_neg]
  refine ⟨c, e, ?_⟩
  rw [alignRangesOverCut, if_neg (not_not.2 hlen)]
  simp only [hsplit, Option.bind_eq_bind, Option.bind_some, shiftSide_cutBefore, hnorm src rfl, hnorm dst hlen, hprop]

/-! ### The sub-copies -/

/-- A sub-copy in two pieces. -/
theorem moveBytes_add (src dst : Int) (m k : Nat) (s : State) :
    moveBytes src dst (m + k) s = moveBytes (src + m) (dst + m) k (moveBytes src dst m s) := by
  induction k with
  | zero => rfl
  | succ k ih =>
    rw [← Nat.add_assoc]
    simp only [moveBytes, ih, Nat.cast_add, add_assoc]

/-- Cutting a pair of parts alike changes nothing, whatever the cut (41_prs_decoder R112, "whatever the split"). -/
theorem moveParts_cutBefore (a b p : Int) (side : List Range) (s : State) :
    moveParts ((shiftSide a (cutBefore p side)).zip (shiftSide b (cutBefore p side))) s =
      moveParts ((shiftSide a side).zip (shiftSide b side)) s := by
  induction side generalizing s with
  | nil => rfl
  | cons r rs ih =>
    by_cases h : r.start < p ∧ p ≤ r.stop
    · have hfirst : ((rangeLength ⟨r.start + a, p - 1 + a⟩).toNat : Int) = p - r.start := by
        simp only [rangeLength]
        omega
      have hsum : (rangeLength ⟨r.start + a, r.stop + a⟩).toNat =
          (rangeLength ⟨r.start + a, p - 1 + a⟩).toNat + (rangeLength ⟨p + a, r.stop + a⟩).toNat := by
        simp only [rangeLength]
        omega
      have hnext : ∀ d, r.start + d + (p - r.start) = p + d := fun d => by omega
      simp only [cutBefore_cons_inside h, shiftSide_cons, List.zip_cons_cons, moveParts, ih, hsum, moveBytes_add, hfirst, hnext]
    · simp only [cutBefore_cons_outside h, shiftSide_cons, List.zip_cons_cons, moveParts, ih]

/-- Whatever parts the resolver finds, the sub-copies do what one sub-copy of the whole range does. -/
theorem moveParts_alignRangesOverCut {src dst : Range} (h : src.start ≤ src.stop) (hlen : rangeLength src = rangeLength dst)
    (cut : Int) (s : State) :
    (alignRangesOverCut src dst cut).map (fun sides => moveParts (sides.1.zip sides.2) s) =
      some (moveBytes src.start dst.start (rangeLength src).toNat s) := by
  obtain ⟨c, e, halign⟩ := alignRangesOverCut_eq h hlen cut
  rw [halign, Option.map_some]
  simp only [moveParts_cutBefore]
  simp [moveParts, rangeLength]

/-- A sub-copy reads as before where it has not written. -/
theorem readHist_moveBytes_of_ne (src dst : Int) {n : Nat} {a : Fin 8191} (s : State)
    (h : ∀ j : Nat, j < n → a ≠ physical (dst + j)) : readHist (moveBytes src dst n s) a = readHist s a := by
  induction n with
  | zero => rfl
  | succ n ih =>
    have hne : a.val ≠ (physical (dst + n)).val := fun hc => h n (Nat.lt_succ_self n) (Fin.ext hc)
    rw [← ih fun j hj => h j (Nat.lt_succ_of_lt hj)]
    simp only [moveBytes, moveByte, readHist, Memory.read_set, if_neg hne]

/-- A block copy is a byte-wise one where nothing is read after it was written (41_prs_decoder R112 (1)). -/
theorem moveBlock_eq_moveBytes {src dst : Int} {n : Nat} (s : State)
    (h : ∀ i j : Nat, j < i → i < n → physical (src + i) ≠ physical (dst + j)) :
    moveBlock src dst s n = moveBytes src dst n s := by
  induction n with
  | zero => rfl
  | succ n ih =>
    have hread := readHist_moveBytes_of_ne src dst (n := n) (a := physical (src + n)) s fun j hj =>
      h n j hj (Nat.lt_succ_self n)
    simp only [moveBlock, moveBytes, hread, ih fun i j hj hi => h i j hj (Nat.lt_succ_of_lt hi)]

theorem physical_val (v : Int) : ((physical v).val : Int) = v % 8191 := by
  show (((v % 8191).toNat : Nat) : Int) = _
  omega

/-- The addresses a back-reference reads run on from the first one, and so do those it writes (41_prs_decoder R112). -/
theorem histIndex_physical (w : Fin 8191) (off : Int) (n : Nat) :
    histIndex (physical (w.val + n)) off = physical ((histIndex w off).val + n) := by
  apply Fin.ext
  have := histIndex_val w off
  have := histIndex_val (physical (w.val + n)) off
  have := physical_val (w.val + n)
  have := physical_val ((histIndex w off).val + n)
  omega

theorem cursorNext_physical (v : Int) : cursorNext (physical v) = physical (v + 1) := by
  apply Fin.ext
  have := cursorNext_val (physical v)
  have := physical_val v
  have := physical_val (v + 1)
  omega

theorem physical_cursor (w : Fin 8191) : physical w.val = w := by
  apply Fin.ext
  have := physical_val w.val
  omega

/-- The reference copy is one sub-copy, but for the cursor (41_prs_decoder R110, R112). -/
theorem copyBytes_eq_moveBytes (off : Int) (n : Nat) (s : State) :
    copyBytes off n s = { moveBytes (histIndex s.wc off).val s.wc.val n s with wc := physical (s.wc.val + n) } := by
  induction n with
  | zero =>
    simp only [Nat.cast_zero, add_zero, physical_cursor]
    rfl
  | succ n ih =>
    simp only [copyBytes, copyByte, ih, histIndex_physical]
    simp only [emit, moveBytes, moveByte, cursorNext_physical, Nat.cast_add, Nat.cast_one, add_assoc]
    rfl

/-- On the fast path nothing is read after it was written: the ranges lie apart, below the end of the history. -/
theorem physical_ne_of_apart {src dst : Range} {n : Nat} (hs : 0 ≤ src.start) (hd : 0 ≤ dst.start)
    (hsn : src.stop = src.start + n - 1) (hdn : dst.stop = dst.start + n - 1) (hs' : src.stop < 8191) (hd' : dst.stop < 8191)
    (hx : rangeIntersects src dst = false) {i j : Nat} (hi : i < n) (hj : j < n) :
    physical (src.start + i) ≠ physical (dst.start + j) := by
  intro heq
  have hval := congrArg (fun x : Fin 8191 => (x.val : Int)) heq
  simp only [physical_val] at hval
  have := mt (rangeIntersects_iff_max_le_min (a := src) (b := dst) (by omega) (by omega)).2 (by simp [hx])
  omega

/-- Settles O21: on both paths the mechanism is one sub-copy of the whole range, and so is the reference copy. -/
theorem copyMechanismMatchesReference : Obligations.CopyMechanismMatchesReference := by
  intro off n s _ _ hn _
  rw [copyBytes_eq_moveBytes]
  unfold copyByParts
  simp only
  split_ifs with hfast
  · obtain ⟨hs, hd, hx⟩ := hfast
    rw [Option.map_some, moveBlock_eq_moveBytes s fun i j hj hi =>
      physical_ne_of_apart (by simp) (by simp) rfl rfl hs hd hx hi (hj.trans hi)]
  · have hlen : ∀ a : Int, rangeLength ⟨a, a + n - 1⟩ = n := fun a => by simp only [rangeLength]; omega
    rw [moveParts_alignRangesOverCut (by simp only; omega) (by rw [hlen, hlen]), hlen, Option.map_some, Int.toNat_natCast]

end Sys2Proof.Machine
end

section
/-! Determinism of `PRSDEC` (41_prs_decoder R117) as a simulation: two running engines that agree on the stream, on the engine's
registers and on the output produced so far step alike. What each has in `HIST` is tied to its own output, so that a
back-reference reads the same bytes in both (R113). -/

namespace Sys2Proof.Machine

/-- What R117 compares of two cores at the same point of a run. -/
structure SameResult (s s' : State) : Prop where
  st : s.st = s'.st
  ending : s.ending = s'.ending
  op : s.op = s'.op
  output : ∀ p, p < s.op.toNat → readOut s p = readOut s' p
  ip : s.st ≠ .fault → s.ip = s'.ip
  fault : s.st = .fault → s.cause = s'.cause ∧ s.faddr = s'.faddr

/-- The history of a running engine is its own output, and the cursor is where the next byte goes (41_prs_decoder R108). -/
structure State.TracksOutput (s : State) : Prop where
  history : s.HistoryOk
  cursor : s.wc.val = s.op.toNat % 8191

/-- Two running engines at the same point of the same stream. -/
structure SameEngine (s s' : State) : Prop where
  busy : s.st = .busy
  busy' : s'.st = .busy
  quiet : s.host = []
  quiet' : s'.host = []
  ending : s.ending = s'.ending
  bufLen : s.bufLen = s'.bufLen
  outLen : s.outLen = s'.outLen
  ip : s.ip = s'.ip
  ipStart : s.ipStart = s'.ipStart
  ctl : s.ctl = s'.ctl
  bi : s.bi = s'.bi
  op : s.op = s'.op
  stream : ∀ a, a < s.bufLen.toNat → readBuf s a = readBuf s' a
  output : ∀ p, p < s.op.toNat → readOut s p = readOut s' p
  tracks : s.TracksOutput
  tracks' : s'.TracksOutput

/-- Two cores at the same point of a run: both engines running alike, or both stopped with the same result. -/
inductive SameRun (s s' : State) : Prop where
  | running (h : SameEngine s s')
  | stopped (h : SameResult s s') (hs : s.st ≠ .busy) (hq : s.host = []) (hq' : s'.host = [])

theorem SameEngine.result {s s' : State} (h : SameEngine s s') : SameResult s s' where
  st := h.busy.trans h.busy'.symm
  ending := h.ending
  op := h.op
  output := h.output
  ip _ := h.ip
  fault hf := absurd (h.busy.symm.trans hf) (by decide)

theorem SameRun.result {s s' : State} (h : SameRun s s') : SameResult s s' := by
  cases h with
  | running h => exact h.result
  | stopped h => exact h

/-! ### The operations of the engine keep two engines alike -/

theorem SameEngine.finish {s s' : State} (h : SameEngine s s') (e : EndKind) : SameRun (finishPrs e s) (finishPrs e s') :=
  .stopped ⟨rfl, rfl, h.op, h.output, fun _ => h.ip, nofun⟩ nofun h.quiet h.quiet'

theorem SameEngine.fault {s s' : State} (h : SameEngine s s') (c : Cause) (info : Word) :
    SameRun (raisePrs c info s) (raisePrs c info s') :=
  .stopped ⟨rfl, rfl, h.op, h.output, fun hne => absurd rfl hne, fun _ => ⟨rfl, rfl⟩⟩ nofun h.quiet h.quiet'

theorem SameEngine.advance {s s' : State} (h : SameEngine s s') (r : Reader) : SameEngine (advance r s) (advance r s') where
  __ := h
  ip := congrArg (· + BitVec.ofNat 32 r.used) h.ip
  ipStart := h.ip
  ctl := rfl
  bi := rfl
  tracks := ⟨h.tracks.history, h.tracks.cursor⟩
  tracks' := ⟨h.tracks'.history, h.tracks'.cursor⟩

theorem State.TracksOutput.emit {s : State} (h : s.TracksOutput) (ho : s.op.toNat + 1 < 2 ^ 32) (b : Byte) :
    (emit b s).TracksOutput :=
  have ⟨hh, hc⟩ := emit_history h.history h.cursor ho b
  ⟨hh, hc⟩

theorem SameEngine.emit {s s' : State} (h : SameEngine s s') (ho : s.op.toNat < s.outLen.toNat) (b : Byte) :
    SameEngine (emit b s) (emit b s') where
  __ := h
  op := congrArg (· + 1#32) h.op
  output p hp := by
    have hlt := s.outLen.isLt
    simp only [emit_op, BitVec.toNat_add, BitVec.toNat_ofNat] at hp
    rw [readOut_emit, readOut_emit, ← h.op]
    split_ifs with heq
    · rfl
    · exact h.output p (by omega)
  tracks := h.tracks.emit (by have := s.outLen.isLt; omega) b
  tracks' := h.tracks'.emit (by rw [← h.op]; have := s.outLen.isLt; omega) b

/-- A back-reference reads the same byte in both engines: a byte of the output each has produced (41_prs_decoder R113). -/
theorem SameEngine.copyByte {s s' : State} (h : SameEngine s s') (ho : s.op.toNat < s.outLen.toNat) {off : Int} (hoff : off ≤ -1)
    (hd : -off ≤ (s.op.toNat : Int)) : SameEngine (copyByte off s) (copyByte off s') := by
  obtain ⟨-, hpos, -⟩ := backDistance_le off hoff
  have hread : readHist s (histIndex s.wc off) = readHist s' (histIndex s'.wc off) := by
    rw [copyByte_value h.tracks.history h.tracks.cursor hoff hd,
      copyByte_value h.tracks'.history h.tracks'.cursor hoff (h.op ▸ hd), ← h.op]
    exact h.output _ (by omega)
  unfold Machine.copyByte
  rw [← hread]
  exact h.emit ho _

theorem SameEngine.copyBytes {s s' : State} (h : SameEngine s s') {off : Int} (hoff : off ≤ -1) (hd : -off ≤ (s.op.toNat : Int))
    {n : Nat} (hn : n ≤ s.outLen.toNat - s.op.toNat) : SameEngine (copyBytes off n s) (copyBytes off n s') := by
  induction n with
  | zero => exact h
  | succ n ih =>
    have hlt := s.outLen.isLt
    have hop : (Machine.copyBytes off n s).op.toNat = s.op.toNat + n := by
      rw [copyBytes_op, BitVec.toNat_add, BitVec.toNat_ofNat]
      omega
    have hout : (Machine.copyBytes off n s).outLen = s.outLen := by rw [copyBytes_frame]
    exact (ih (by omega)).copyByte (by rw [hop, hout]; omega) hoff (by rw [hop]; omega)

theorem SameEngine.copy {s s' : State} (h : SameEngine s s') {off : Int} (hoff : off ≤ -1) (size : Nat) :
    SameRun (copy off size s) (copy off size s') := by
  by_cases hd : (s.op.toNat : Int) < -off
  · rw [copy_out_of_range hd, copy_out_of_range (h.op ▸ hd), ← h.ipStart]
    exact h.fault _ _
  · have hd := not_lt.1 hd
    have hclamp : clampSize size s = clampSize size s' := by simp only [clampSize, h.op, h.outLen]
    rw [copy_in_range hd, copy_in_range (h.op ▸ hd), ← hclamp]
    exact .running (h.copyBytes hoff hd (clampSize_le size s))

/-! ### Steps and runs -/

theorem SameEngine.fetchPosition_eq {s s' : State} (h : SameEngine s s') : fetchPosition s = fetchPosition s' := by
  simp only [fetchPosition, ← h.bufLen, ← h.ip, ← h.ctl, ← h.bi]
  rw [bytesFrom_congr _ _ fun x _ _ => h.stream x (by omega)]

theorem SameEngine.exec {s s' : State} (h : SameEngine s s') (ho : s.op.toNat < s.outLen.toNat) {i : Instr} (hi : i.isPrs = true) :
    ∃ t t', exec i s = .next t ∧ exec i s' = .next t' ∧ SameRun t t' := by
  cases i with
  | lit d => exact ⟨_, _, rfl, rfl, .running (h.emit ho d)⟩
  | short a b o => exact ⟨_, _, exec_short a b o s, exec_short a b o s', h.copy (shortOffset_le o) _⟩
  | longS l z w => exact ⟨_, _, exec_longS l z w s, exec_longS l z w s', h.copy (longOffset_le l w) _⟩
  | longL l w n => exact ⟨_, _, exec_longL l w n s, exec_longL l w n s', h.copy (longOffset_le l w) _⟩
  | eos => exact ⟨_, _, rfl, rfl, h.finish .eos⟩
  | _ => simp [Instr.isPrs] at hi

theorem SameEngine.prsStep {s s' : State} (h : SameEngine s s') :
    ∃ t t', prsStep s = .next t ∧ prsStep s' = .next t' ∧ SameRun t t' := by
  unfold Machine.prsStep
  rw [← h.fetchPosition_eq, ← h.op, ← h.outLen, ← h.ip]
  split_ifs with hfull
  · exact ⟨_, _, rfl, rfl, h.finish .full⟩
  · cases hd : decodePrs (fetchPosition s) with
    | error e => exact ⟨_, _, rfl, rfl, h.fault _ _⟩
    | ok x =>
      obtain ⟨hprs, -⟩ := decodePrs_ok hd
      exact (h.advance x.2).exec (not_le.1 hfull) hprs

/-- With no input pending a running engine does one `PRS_Step`. -/
theorem step_engine {s : State} (hb : s.st = .busy) (hq : s.host = []) : step s = prsStep s := by
  have hdrop : dropWait s = s := by simp only [dropWait, hq]
  rw [step_busy hb (by simp [State.NotResetNow, hq]), hdrop]

theorem SameRun.step {s s' : State} (h : SameRun s s') : ∃ t t', step s = .next t ∧ step s' = .next t' ∧ SameRun t t' := by
  cases h with
  | running h =>
    rw [step_engine h.busy h.quiet, step_engine h.busy' h.quiet']
    exact h.prsStep
  | stopped h hs hq hq' =>
    exact ⟨s, s', step_idle hs hq, step_idle (h.st ▸ hs) hq', .stopped h hs hq hq'⟩

theorem SameRun.stepN {s s' : State} (h : SameRun s s') (n : Nat) :
    ∃ t t', stepN n s = .next t ∧ stepN n s' = .next t' ∧ SameRun t t' := by
  induction n generalizing s s' with
  | zero => exact ⟨s, s', rfl, rfl, h⟩
  | succ n ih =>
    obtain ⟨u, u', hu, hu', hrun⟩ := h.step
    simp only [Machine.stepN, hu, hu']
    exact ih hrun

/-- `PRSDEC` starts the engine where both lengths are within their capacities (41_prs_decoder R100). -/
theorem exec_prsdec_starts {s : State} (ha : accepts s = true) (hb : s.bufLen.toNat ≤ Config.bufMax.toNat)
    (ho : s.outLen.toNat ≤ Config.outMax.toNat) : Machine.exec .prsdec s = .next (startPrs s) := by
  simp only [Machine.exec, execPrsdec, whenAccepted, ha, if_true, beginPrsdec, if_neg (not_lt.2 hb), if_neg (not_lt.2 ho)]

/-- With nothing produced, any history is the output's. -/
theorem startPrs_tracksOutput (s : State) : (startPrs s).TracksOutput :=
  ⟨fun _ hq => absurd hq (Nat.not_lt_zero _), rfl⟩

theorem startPrs_sameEngine {s s' : State} (hq : s.host = []) (hq' : s'.host = []) (hb : s.bufLen = s'.bufLen)
    (ho : s.outLen = s'.outLen) (hstream : ∀ a, a < s.bufLen.toNat → readBuf s a = readBuf s' a) :
    SameEngine (startPrs s) (startPrs s') where
  busy := rfl
  busy' := rfl
  quiet := hq
  quiet' := hq'
  ending := rfl
  bufLen := hb
  outLen := ho
  ip := rfl
  ipStart := rfl
  ctl := rfl
  bi := rfl
  op := rfl
  stream := hstream
  output _ hp := absurd hp (Nat.not_lt_zero _)
  tracks := startPrs_tracksOutput s
  tracks' := startPrs_tracksOutput s'

/-- Settles O32: the start makes two engines alike, and every step keeps them so. -/
theorem prsdecDependsOnStreamOnly : Obligations.PrsdecDependsOnStreamOnly := by
  intro s s' ha ha' hq hq' hb ho hbm hom hstream
  refine ⟨_, _, exec_prsdec_starts ha hbm hom, exec_prsdec_starts ha' (hb ▸ hbm) (ho ▸ hom), fun n => ?_⟩
  obtain ⟨t, t', ht, ht', hrun⟩ := (SameRun.running (startPrs_sameEngine hq hq' hb ho hstream)).stepN n
  obtain ⟨hst, hending, hop, houtput, hip, hfault⟩ := hrun.result
  exact ⟨t, t', ht, ht', hst, hending, hop, houtput, hip, hfault⟩

end Sys2Proof.Machine
end

section
/-! The primitives and the checks of the cipher commands (42_cipher R130, R131, R133, R139; 44_container_sequence R170, R171): the
XOR key byte and byte map, the key operand, and the one rule per outcome of the common frame that every command's checks follow. -/

namespace Sys2Proof.Machine

/-! ### The XOR cipher's key byte and byte map -/

/-- Bits above 31 of the key read as 0, so this holds at every shift (42_cipher R130). -/
theorem getLsbD_xorKeyByte (key : Word) (shift : Nat) {i : Nat} (h : i < 8) :
    (xorKeyByte key shift).getLsbD i = (key.getLsbD (shift + i) ^^ key.getLsbD i) := by
  simp [xorKeyByte, h]

/-- At shift 0 the two bytes of the key are the same one. -/
@[simp] theorem xorKeyByte_shift_zero (key : Word) : xorKeyByte key 0 = 0 := by simp [xorKeyByte]

/-- Settles O42: the bit-level reading at every shift, and R130's examples. -/
theorem xorKeyByteBits : Obligations.XorKeyByteBits := fun key shift =>
  ⟨fun _ h => getLsbD_xorKeyByte key shift.toNat h, xorKeyByte_shift_zero key, rfl, rfl, rfl⟩

theorem xorDec_of_fixed {kb b : Byte} (h : b = 0 ∨ b = kb) : xorDec kb b = b := if_pos h

theorem xorDec_of_not_fixed {kb b : Byte} (h : ¬(b = 0 ∨ b = kb)) : xorDec kb b = b ^^^ kb := if_neg h

/-- XOR with the key byte exchanges the two fixed points, so no other byte becomes one of them. -/
theorem xor_not_fixed {kb b : Byte} (h : ¬(b = 0 ∨ b = kb)) : ¬(b ^^^ kb = 0 ∨ b ^^^ kb = kb) := by
  simpa [or_comm] using h

theorem xorDec_xorDec (kb b : Byte) : xorDec kb (xorDec kb b) = b := by
  by_cases h : b = 0 ∨ b = kb
  · rw [xorDec_of_fixed h, xorDec_of_fixed h]
  · rw [xorDec_of_not_fixed h, xorDec_of_not_fixed (xor_not_fixed h), BitVec.xor_assoc, BitVec.xor_self, BitVec.xor_zero]

/-- A fixed point of the map has no other preimage, the map being its own inverse. -/
theorem eq_of_xorDec_eq_fixed {kb b c : Byte} (hc : xorDec kb c = c) (h : xorDec kb b = c) : b = c := by
  rw [← xorDec_xorDec kb b, h, hc]

theorem xorDec_zero_key (b : Byte) : xorDec 0 b = b := by simp [xorDec]

/-- Settles O41: the map is its own inverse, so zero and the key byte come from themselves only. -/
theorem xorByteMapProperties : Obligations.XorByteMapProperties := fun kb b =>
  ⟨rfl, xorDec_xorDec kb b, eq_of_xorDec_eq_fixed (xorDec_fixed_zero kb),
    fun _ => eq_of_xorDec_eq_fixed (xorDec_fixed_key kb), xorDec_zero_key b⟩

/-! ### The key operands -/

theorem selKey_keyInvalid {s : State} (hk : s.ksel.toNat ≤ 4) (hv : s.kvalid = false) :
    selKey s = .error (.keyInvalid, s.ksel.zeroExtend 32) := by
  simp [selKey, hk, hv]

theorem selKey_illegalCommand {s : State} (hk : 6 ≤ s.ksel.toNat) :
    selKey s = .error (.illegalCommand, s.ksel.zeroExtend 32) := by
  have h5 : s.ksel ≠ 5 := by
    intro h
    simp [h] at hk
  rw [selKey, if_neg (by omega), if_neg h5]

/-- Where neither fault applies there is a key operand. -/
theorem exists_selKey_ok {s : State} (hv : ¬(s.ksel.toNat ≤ 4 ∧ s.kvalid = false)) (hk : ¬6 ≤ s.ksel.toNat) :
    ∃ key, selKey s = .ok key := by
  by_cases h4 : s.ksel.toNat ≤ 4
  · exact ⟨keyAt s.keys s.ksel.toNat, by simpa [selKey, h4] using hv⟩
  · have h5 : s.ksel = 5 := BitVec.eq_of_toNat_eq (show s.ksel.toNat = 5 by omega)
    exact ⟨s.keyimm, selKey_ok (.inr ⟨h5, rfl⟩)⟩

/-- Settles O33: `KSEL` 0 to 5 through the key that `Selects` names, the rest through the two faults. -/
theorem selKeyGivesTheOperand : Obligations.SelKeyGivesTheOperand := by
  intro s
  rw [BitVec.ofNat_toNat]
  refine ⟨fun hv => ⟨?_, ?_, ?_, ?_, ?_⟩, fun hv hk => selKey_keyInvalid hk hv, fun h => selKey_ok (.inr ⟨h, rfl⟩),
    selKey_illegalCommand⟩
  all_goals
    intro h
    exact selKey_ok (.inl ⟨hv, by simp [h]⟩)

theorem groupKeys_keyInvalid {s : State} (hv : s.kvalid = false) :
    groupKeys s = .error (.keyInvalid, if s.gsel = 0 then 1 else 3) := by
  rcases BitVec.eq_zero_or_eq_one s.gsel with h | h <;> simp [groupKeys, hv, h]

theorem headerKey_keyInvalid {s : State} (hv : s.kvalid = false) : headerKey s = .error (.keyInvalid, 0) := by
  simp [headerKey, hv]

theorem headerKey_ok {s : State} (hv : s.kvalid = true) : headerKey s = .ok s.keys.kh := if_pos hv

/-! ### The faults of the common frame, in the order of its checks; `cipherCommand_finished` is the rule where there is none -/

section
variable {κ : Type} {keyOperands : State → Except Trap κ} {lengthBad : State → Bool} {body : κ → State → State} {s : State}

theorem cipherCommand_overCapacity (ha : accepts s = true) (hb : Config.bufMax.toNat < s.bufLen.toNat) :
    whenAccepted (cipherFrame keyOperands lengthBad body) s = s.faulted .badLength s.bufLen := by
  simp only [whenAccepted, ha, if_true, cipherFrame, if_pos hb]
  rfl

theorem cipherCommand_keyFault {c : Cause} {info : Word} (ha : accepts s = true)
    (hb : ¬Config.bufMax.toNat < s.bufLen.toNat) (hk : keyOperands s = .error (c, info)) :
    whenAccepted (cipherFrame keyOperands lengthBad body) s = s.faulted c info := by
  simp only [whenAccepted, ha, if_true, cipherFrame, if_neg hb, hk]
  rfl

theorem cipherCommand_lengthBad {k : κ} (ha : accepts s = true) (hb : ¬Config.bufMax.toNat < s.bufLen.toNat)
    (hk : keyOperands s = .ok k) (hl : lengthBad s = true) :
    whenAccepted (cipherFrame keyOperands lengthBad body) s = s.faulted .badLength s.bufLen := by
  simp only [whenAccepted, ha, if_true, cipherFrame, if_neg hb, hk, hl]
  rfl

theorem cipherCommand_runs {k : κ} (ha : accepts s = true) (hb : ¬Config.bufMax.toNat < s.bufLen.toNat)
    (hk : keyOperands s = .ok k) (hl : ¬lengthBad s = true) (hf : ∀ s, body k s = { s with buf := (body k s).buf }) :
    whenAccepted (cipherFrame keyOperands lengthBad body) s =
      s.finished (whenAccepted (cipherFrame keyOperands lengthBad body) s).buf := by
  rw [cipherCommand_finished ha (not_lt.1 hb) hk (eq_false_of_ne_true hl) hf]
  rfl

end

/-- The checks of a command that calls `SelKey()`, in their order (42_cipher R133, R139). -/
theorem selKeyCommand_checks {i : Instr} {lengthBad : State → Bool} {body : Word → State → State} {s : State} {bad : Prop}
    [Decidable bad] (hi : exec i s = .next (whenAccepted (cipherFrame selKey lengthBad body) s)) (ha : accepts s = true)
    (hl : lengthBad s = true ↔ bad) (hf : ∀ key s, body key s = { s with buf := (body key s).buf }) :
    ∃ t, exec i s = .next t ∧
      if Config.bufMax.toNat < s.bufLen.toNat then t = s.faulted .badLength s.bufLen
      else if s.ksel.toNat ≤ 4 ∧ s.kvalid = false then t = s.faulted .keyInvalid (s.ksel.zeroExtend 32)
      else if 6 ≤ s.ksel.toNat then t = s.faulted .illegalCommand (s.ksel.zeroExtend 32)
      else if bad then t = s.faulted .badLength s.bufLen
      else t = s.finished t.buf := by
  refine ⟨_, hi, ?_⟩
  split_ifs with hb hv hk hbad
  · exact cipherCommand_overCapacity ha hb
  · exact cipherCommand_keyFault ha hb (selKey_keyInvalid hv.1 hv.2)
  · exact cipherCommand_keyFault ha hb (selKey_illegalCommand hk)
  · obtain ⟨key, hkey⟩ := exists_selKey_ok hv hk
    exact cipherCommand_lengthBad ha hb hkey (hl.2 hbad)
  · obtain ⟨key, hkey⟩ := exists_selKey_ok hv hk
    exact cipherCommand_runs ha hb hkey (mt hl.1 hbad) (hf key)

/-- The checks of a command on a key of its own, in their order: it needs the keys valid, whatever `KSEL` is
(44_container_sequence R170, R171; 42_cipher R139). -/
theorem keyedCommand_checks {i : Instr} {κ : Type} {keyOperands : State → Except Trap κ} {lengthBad : State → Bool}
    {body : κ → State → State} {s : State} {info : Word} {k : κ} {bad : Prop} [Decidable bad]
    (hi : exec i s = .next (whenAccepted (cipherFrame keyOperands lengthBad body) s)) (ha : accepts s = true)
    (he : s.kvalid = false → keyOperands s = .error (.keyInvalid, info)) (hk : s.kvalid = true → keyOperands s = .ok k)
    (hl : lengthBad s = true ↔ bad) (hf : ∀ s, body k s = { s with buf := (body k s).buf }) :
    ∃ t, exec i s = .next t ∧
      if Config.bufMax.toNat < s.bufLen.toNat then t = s.faulted .badLength s.bufLen
      else if s.kvalid = false then t = s.faulted .keyInvalid info
      else if bad then t = s.faulted .badLength s.bufLen
      else t = s.finished t.buf := by
  refine ⟨_, hi, ?_⟩
  split_ifs with hb hv hbad
  · exact cipherCommand_overCapacity ha hb
  · exact cipherCommand_keyFault ha hb (he hv)
  · exact cipherCommand_lengthBad ha hb (hk (eq_true_of_ne_false hv)) (hl.2 hbad)
  · exact cipherCommand_runs ha hb (hk (eq_true_of_ne_false hv)) (mt hl.1 hbad) hf

/-- Settles O43: three commands call `SelKey()`, and only standard mode has a length check of its own; `GRPDEC` and `HDRDEC` bring
their keys. -/
theorem cipherChecksInOrder : Obligations.CipherChecksInOrder := by
  intro s ha
  refine ⟨?_, ?_, ?_⟩
  · rintro i (rfl | rfl | rfl)
    · exact selKeyCommand_checks rfl ha (by simp [anyLength]) xorBody_frame
    · exact selKeyCommand_checks rfl ha (by simp [anyLength]) blockBody_frame
    · exact selKeyCommand_checks rfl ha (by simp [notWholeBlocks]) blockBody_frame
  · exact keyedCommand_checks rfl ha groupKeys_keyInvalid groupKeys_ok (groupLengthBad_iff s) (groupBody_frame _)
  · exact keyedCommand_checks rfl ha headerKey_keyInvalid headerKey_ok (headerLengthBad_iff s) (headerBody_frame _)

end Sys2Proof.Machine
end

section
/-! The command `KDERIVE` (43_key_derivation R151 to R159): the model's words of the entropy block and its rotation, in the
arithmetic of the rules. -/

namespace Sys2Proof.Machine

theorem toNat_append_eq_add {v w : Nat} (x : BitVec v) (y : BitVec w) :
    (x ++ y).toNat = x.toNat * 2 ^ w + y.toNat := by
  rw [BitVec.toNat_append, ← Nat.shiftLeft_add_eq_or_of_lt y.isLt, Nat.shiftLeft_eq]

/-- Appended byte by byte, a word is the sum of its bytes at their places (00_scope R7). -/
theorem be32_eq_ofNat (b0 b1 b2 b3 : Byte) :
    be32 b0 b1 b2 b3 =
      BitVec.ofNat 32 (b0.toNat * 2 ^ 24 + b1.toNat * 2 ^ 16 + b2.toNat * 2 ^ 8 + b3.toNat) := by
  refine BitVec.eq_of_toNat_eq ?_
  simp only [be32, toNat_append_eq_add, BitVec.toNat_ofNat]
  omega

theorem rotl32_eq_rotateLeft (x : Word) {n : Nat} (hn : n < 32) : rotl32 x n = x.rotateLeft n := by
  rw [rotl32, BitVec.rotateLeft_def, Nat.mod_eq_of_lt hn]

theorem crcWindow_entropy (s : State) : crcWindow (entropy s) = (List.range 96).map fun i => readEnt s (124 + i) := by
  rw [← List.map_coe_finRange_eq_range, List.map_map]
  rfl

/-- The seed of a state's entropy block (43_key_derivation R151 to R153). -/
theorem kdSeed_entropy (s : State) :
    kdSeed kdConfig (entropy s) s.kdSize =
      crc32 ((List.range 96).map fun i => readEnt s (124 + i)) ^^^
        BitVec.ofNat 32 ((readEnt s 108).toNat * 2 ^ 24 + (readEnt s 109).toNat * 2 ^ 16 +
          (readEnt s 110).toNat * 2 ^ 8 + (readEnt s 111).toNat) ^^^ s.kdSize ^^^ Config.kdSeedConst := by
  rw [kdSeed, crcWindow_entropy, entropyWord, be32_eq_ofNat]
  rfl

theorem exec_kderive {s : State} (ha : accepts s = true) : exec .kderive s = .next (deriveBody s) := by
  simp only [exec, execKderive, whenAccepted, ha, if_true]

/-- Settles O44: the body of the command writes the derived keys; what the rules add is the seed as a sum of bytes and the
rotations. -/
theorem kderiveWritesKeys : Obligations.KderiveWritesKeys := by
  intro s ha
  refine ⟨deriveBody s, exec_kderive ha, rfl, rfl, rfl, rfl, ?_, rfl, rotl32_eq_rotateLeft _ (by decide),
    rotl32_eq_rotateLeft _ (by decide), rotl32_eq_rotateLeft _ (by decide)⟩
  rw [← kdSeed_entropy]
  rfl

end Sys2Proof.Machine
end

section
/-! The cause `IllegalCommand` (60_exceptions R206) and its two sources: a code that is no command, and a key selection that names
no key. -/

namespace Sys2Proof

/-- A command's code is the code it decodes from (30_encoding R70). -/
theorem encode_of_decodeCmd {code : Byte} {i : Instr} (h : decodeCmd code = .ok i) : encode i = .command code := by
  unfold decodeCmd at h
  split_ifs at h <;> cases h <;> subst code <;> rfl

namespace Machine

theorem zeroExtend_truncate_eq_ofNat_mod (v : Word) :
    (v.truncate 8 : Byte).zeroExtend 32 = BitVec.ofNat 32 (v.toNat % 256) := by
  refine BitVec.eq_of_toNat_eq ?_
  simp

@[simp] theorem whenAccepted_fault (f : State → State) {s : State} (h : s.st = .fault) : whenAccepted f s = s := by
  simp [whenAccepted, accepts, h]

/-- The states other than `BUSY` and `FAULT` are `IDLE` and `DONE`, in which commands and writes take effect (10_state R26). -/
theorem accepts_of_not_busy_not_fault {s : State} (hb : s.st ≠ .busy) (hf : s.st ≠ .fault) : accepts s = true := by
  cases h : s.st with
  | idle => simp [accepts, h]
  | done => simp [accepts, h]
  | busy => exact absurd h hb
  | fault => exact absurd h hf

theorem whenAccepted_of_accepts (f : State → State) {s : State} (h : accepts s = true) : whenAccepted f s = f s := if_pos h

/-- The write of a code that is no command. -/
theorem writeCmd_unlisted {code : Byte} (h : ∀ i : Instr, encode i ≠ .command code) (s : State) :
    writeCmd code s = .next (whenAccepted (raise (.illegalCommand, code.zeroExtend 32)) s) := by
  rcases writeCmd_cases code s with ⟨i, hd, -, -⟩ | ⟨-, hw⟩
  · exact absurd (encode_of_decodeCmd hd) (h i)
  · exact hw

/-- A step at the host's write of `CMD`, no command running. -/
theorem step_writeCmd {s : State} {v : Word} {q : List HostOp} (hb : s.st ≠ .busy) (hh : s.host = .writeReg 0x00 v :: q) :
    step s = writeCmd (v.truncate 8) { s with host := q } :=
  step_quiet hb hh

theorem selKeyCommand_illegalCommand {lengthBad : State → Bool} {body : Word → State → State} {s : State}
    (ha : accepts s = true) (hb : s.bufLen.toNat ≤ Config.bufMax.toNat) (hk : 6 ≤ s.ksel.toNat) :
    whenAccepted (cipherFrame selKey lengthBad body) s =
      s.faulted .illegalCommand (BitVec.ofNat 32 s.ksel.toNat) := by
  rw [BitVec.ofNat_toNat]
  exact cipherCommand_keyFault ha (not_lt.2 hb) (selKey_illegalCommand hk)

/-- Settles O47: an unlisted code decodes to nothing, so its write raises the fault where writes are accepted; the three commands
that call `SelKey()` share the frame that passes its fault on. -/
theorem illegalCommandIsRaised : Obligations.IllegalCommandIsRaised := by
  constructor
  · intro s v q hb hh hi
    refine ⟨_, (step_writeCmd hb hh).trans (writeCmd_unlisted hi _), ?_⟩
    split_ifs with hf
    · exact whenAccepted_fault _ hf
    · rw [zeroExtend_truncate_eq_ofNat_mod]
      exact whenAccepted_of_accepts _ (accepts_of_not_busy_not_fault hb hf)
  · intro s i hi ha hb hk
    have h6 : 6 ≤ s.ksel.toNat := by rcases hk with h | h <;> simp [h]
    rcases hi with rfl | rfl | rfl <;> exact congrArg Host.Outcome.next (selKeyCommand_illegalCommand ha hb h6)

end Machine
end Sys2Proof
end

section
/-! The two resets (70_reset_and_hazards R230, R231): what the host reads after one, how each is reached from a state, and what
follows it: with no input the core rests, and in `FAULT` the other commands do nothing. -/

namespace Sys2Proof.Machine

/-- `STATUS` reads 0 when the core is idle, no run has ended and no keys are derived (10_state R23). -/
theorem statusReg_eq_zero {s : State} (hs : s.st = .idle) (he : s.ending = .none) (hv : s.kvalid = false) :
    statusReg s = 0 := by
  rw [statusReg, hs, he, hv]
  rfl

@[simp] theorem resetRegisters_statusReg (s : State) : statusReg (resetRegisters s) = 0 := statusReg_eq_zero rfl rfl rfl

@[simp] theorem hardReset_statusReg (s : State) : statusReg (hardReset s) = 0 := statusReg_eq_zero rfl rfl rfl

/-- A hardware reset lands in every state, `BUSY` included (70_reset_and_hazards R230, 93 U20). -/
theorem step_hardReset {s : State} {q : List HostOp} (hh : s.host = .hardReset :: q) :
    step s = .next (hardReset { s with host := q }) := by
  by_cases hb : s.st = .busy
  · simp only [step, if_pos hb, busyStep, hh]
  · exact step_quiet hb hh

/-- With no command running and no move pending, no number of steps changes anything (20_memory R46). -/
theorem stepN_idle {s : State} (hb : s.st ≠ .busy) (hh : s.host = []) (n : Nat) : stepN n s = .next s := by
  induction n with
  | zero => rfl
  | succ n ih => simp only [stepN, step_idle hb hh, ih]

/-- Settles O1: the step is `hardReset`, whose state is idle, so with no further input it stays. -/
theorem hardwareResetSetsRegisters : Obligations.HardwareResetSetsRegisters := by
  intro s q hh
  have hrest : q = [] → ∀ n, stepN n (hardReset { s with host := q }) = .next (hardReset { s with host := q }) :=
    fun hq => stepN_idle (by simp) hq
  refine ⟨hardReset { s with host := q }, step_hardReset hh, ?_⟩
  simpa using hrest

theorem exec_reset {s : State} (hb : s.st ≠ .busy) : exec .reset s = .next (resetRegisters s) := by
  simp only [exec, execReset, if_neg hb]

theorem exec_reset_busy {s : State} (hb : s.st = .busy) : exec .reset s = .next s := by
  simp only [exec, execReset, if_pos hb]

theorem accepts_fault {s : State} (hf : s.st = .fault) : accepts s = false := by simp [accepts, hf]

/-- In `FAULT` a command other than `RESET` has no effect: every other thing a command can do needs `IDLE` or `DONE`
(10_state R26). -/
theorem eq_reset_or_eq_of_exec_fault {i : Instr} {s t : State} (hi : i.isPrs = false) (hf : s.st = .fault)
    (h : exec i s = .next t) : i = .reset ∨ t = s := by
  have hna : accepts s ≠ true := by simp [accepts_fault hf]
  rcases exec_command_cases hi h with hs | ⟨hr, -⟩ | ⟨-, ha, -⟩ | ⟨-, ha, -⟩ | ⟨-, ha, -⟩ | ⟨-, ha, -⟩ | ⟨-, ha, -⟩
  · exact .inr hs
  · exact .inl hr
  all_goals exact absurd ha hna

/-- Settles O4: outside `BUSY` the command is `resetRegisters`; another command that left `FAULT` would have had an effect
there. -/
theorem resetCommandSetsRegisters : Obligations.ResetCommandSetsRegisters := by
  refine fun s => ⟨fun hb => ⟨resetRegisters s, exec_reset hb, ?_⟩, exec_reset_busy, fun i t hi hf h hleft => ?_⟩
  · simp
  · rcases eq_reset_or_eq_of_exec_fault hi hf h with hr | rfl
    · exact hr
    · exact absurd hf hleft

end Sys2Proof.Machine
end

section
/-! Reading back what the assembler packs (30_encoding R72). A reader spells a list of items when the stream from its position on is
their packing and its latched control byte holds the bits placed next; each decoder then takes its own items off the front. -/

namespace Sys2Proof

/-- The reader stands before the packing of `items`, with `tail` behind it; `total` bytes are fetched or still to be fetched. -/
structure Reader.Spells (r : Reader) (items : List Item) (tail : List Byte) (total : Nat) : Prop where
  rest : r.rest = packItems r.bi.val items ++ tail
  latch : ∀ j, r.bi.val + j < 8 → r.ctl.getLsbD (r.bi.val + j) = (itemBits items).getD j false
  total : r.used + r.rest.length = total

/-- Before any packing of `items` the decoder `p` answers `a` and stops right behind them. -/
def Reads {α : Type} (p : Reader → Except DecodeError (α × Reader)) (a : α) (items : List Item) : Prop :=
  ∀ (r : Reader) (more : List Item) (tail : List Byte) (total : Nat), r.Spells (items ++ more) tail total →
    ∃ q, p r = .ok (a, q) ∧ q.Spells more tail total

theorem reads_fetch (b : Byte) : Reads Reader.fetch b [.byte b] := by
  intro r more tail total h
  obtain ⟨hrest, hlatch, htotal⟩ := h
  have hr : r.rest = b :: (packItems r.bi.val more ++ tail) := hrest
  refine ⟨{ r with rest := packItems r.bi.val more ++ tail, used := r.used + 1 }, by simp only [Reader.fetch, hr], rfl, hlatch,
    ?_⟩
  simp only [hr, List.length_cons] at htotal
  simp only
  omega

theorem getLsbD_controlByte (bits : List Bool) {j : Nat} (h : j < 8) : (controlByte bits).getLsbD j = bits.getD j false := by
  rw [controlByte, BitVec.getLsbD_ofFnLE, dif_pos h]

/-- The bit placed next is the one `CtlBit()` delivers, and a control byte stands in the stream exactly where it is fetched. -/
theorem reads_ctlBit (v : Bool) : Reads Reader.ctlBit v [.bit v] := by
  intro r more tail total h
  obtain ⟨hrest, hlatch, htotal⟩ := h
  by_cases h8 : r.bi = 8
  · have hr : r.rest = controlByte (v :: itemBits more) :: (packItems 1 more ++ tail) := by
      simpa [h8, packItems, itemBits] using hrest
    have hbits : ∀ j, j < 8 → (controlByte (v :: itemBits more)).getLsbD j = (v :: itemBits more).getD j false :=
      fun j => getLsbD_controlByte _
    refine ⟨{ rest := packItems 1 more ++ tail, used := r.used + 1, ctl := controlByte (v :: itemBits more), bi := 1 },
      (ctlBit_refill h8 hr).trans (by rw [hbits 0 (by decide)]; rfl), rfl, fun j hj => ?_, ?_⟩
    · rw [hbits _ hj]
      simp [Nat.add_comm 1 j]
    · simp only [hr, List.length_cons] at htotal
      simp only
      omega
  · have hlt : r.bi.val < 8 := Nat.lt_of_le_of_ne (Fin.is_le r.bi) fun h => h8 (Fin.ext h)
    have hnext : (r.bi + 1).val = r.bi.val + 1 := Fin.val_add_one_of_lt (Fin.lt_def.2 hlt)
    have hv : r.ctl.getLsbD r.bi.val = v := hlatch 0 hlt
    refine ⟨{ r with bi := r.bi + 1 }, (ctlBit_latched h8).trans (by rw [Reader.deliver, hv]), ?_, fun j hj => ?_, htotal⟩
    · simpa [packItems, hlt.ne, hnext] using hrest
    · simp only [hnext] at hj ⊢
      rw [Nat.add_assoc, Nat.add_comm 1 j]
      exact hlatch (j + 1) (by omega)

theorem reads_decodeLit (d : Byte) : Reads decodeLit (.lit d) [.byte d] := by
  intro r more tail total h
  obtain ⟨q, hd, h⟩ := reads_fetch d r more tail total h
  exact ⟨q, by simp only [decodeLit, hd]; rfl, h⟩

theorem reads_decodeShort (a b : Bool) (o : Byte) : Reads decodeShort (.short a b o) [.bit a, .bit b, .byte o] := by
  intro r more tail total h
  obtain ⟨q1, ha, h⟩ := reads_ctlBit a r _ tail total h
  obtain ⟨q2, hb, h⟩ := reads_ctlBit b q1 _ tail total h
  obtain ⟨q3, ho, h⟩ := reads_fetch o q2 more tail total h
  exact ⟨q3, by simp only [decodeShort, ha, hb, ho, bind, Except.bind], h⟩

/-- Two zero bytes behind the control bits `0, 1` (30_encoding R65). -/
theorem reads_decodeLong_eos : Reads decodeLong .eos [.byte 0, .byte 0] := by
  intro r more tail total h
  obtain ⟨q1, h0, h⟩ := reads_fetch 0 r _ tail total h
  obtain ⟨q2, h1, h⟩ := reads_fetch 0 q1 more tail total h
  exact ⟨q2, by simp only [decodeLong, h0, h1, bind, Except.bind, and_self, if_true], h⟩

/-- A size field of zero, the offset bytes not both zero (30_encoding R64). -/
theorem reads_decodeLong_longL {l : BitVec 5} {w n : Byte} (hw : (Instr.longL l w n).wf = true) :
    Reads decodeLong (.longL l w n) [.byte (l ++ (0 : BitVec 3)), .byte w, .byte n] := by
  intro r more tail total h
  obtain ⟨q1, h0, h⟩ := reads_fetch _ r _ tail total h
  obtain ⟨q2, h1, h⟩ := reads_fetch w q1 _ tail total h
  obtain ⟨q3, h2, h⟩ := reads_fetch n q2 more tail total h
  have hne : ¬(l = 0 ∧ w = 0) := by simpa [Instr.wf, ← or_iff_not_imp_left, imp_iff_not_or] using hw
  refine ⟨q3, ?_, h⟩
  simp only [decodeLong, h0, h1, h2, bind, Except.bind, Laws.EncodedForm.joined_zero, Laws.EncodedForm.joined_upper,
    Laws.EncodedForm.joined_lower, if_neg hne, if_true]

/-- A nonzero size field (30_encoding R63). -/
theorem reads_decodeLong_longS {l : BitVec 5} {z : BitVec 3} {w : Byte} (hw : (Instr.longS l z w).wf = true) :
    Reads decodeLong (.longS l z w) [.byte (l ++ z), .byte w] := by
  intro r more tail total h
  obtain ⟨q1, h0, h⟩ := reads_fetch _ r _ tail total h
  obtain ⟨q2, h1, h⟩ := reads_fetch w q1 more tail total h
  have hz : z ≠ 0 := by simpa [Instr.wf] using hw
  have hne : ¬(l ++ z = (0 : Byte) ∧ w = 0) := fun hc => Laws.EncodedForm.joined_ne_zero l z hz hc.1
  refine ⟨q2, ?_, h⟩
  simp only [decodeLong, h0, h1, bind, Except.bind, Laws.EncodedForm.joined_upper, Laws.EncodedForm.joined_lower, if_neg hne,
    if_neg hz]

/-- Behind the control bit `1` the decode tree is `decodeLit` (30_encoding R66). -/
theorem Reads.decodePrs_one {i : Instr} {items : List Item} (h : Reads decodeLit i items) :
    Reads decodePrs i (.bit true :: items) := by
  intro r more tail total hs
  obtain ⟨q1, h1, hs⟩ := reads_ctlBit true r _ tail total hs
  obtain ⟨q2, h2, hs⟩ := h q1 more tail total hs
  exact ⟨q2, by simp only [decodePrs, h1, bind, Except.bind, if_true, h2], hs⟩

/-- Behind the control bit `0` the next bit chooses between `decodeShort` and `decodeLong` (30_encoding R66). -/
theorem Reads.decodePrs_zero {i : Instr} {items : List Item} {c : Bool}
    (h : Reads (if c then decodeLong else decodeShort) i items) : Reads decodePrs i (.bit false :: .bit c :: items) := by
  intro r more tail total hs
  obtain ⟨q1, h1, hs⟩ := reads_ctlBit false r _ tail total hs
  obtain ⟨q2, h2, hs⟩ := reads_ctlBit c q1 _ tail total hs
  obtain ⟨q3, h3, hs⟩ := h q2 more tail total hs
  refine ⟨q3, ?_, hs⟩
  cases c <;> simpa only [decodePrs, h1, h2, bind, Except.bind, Bool.false_eq_true, if_false, if_true] using h3

/-- A well-formed PRS instruction is read back from its own items (30_encoding R61 to R65). -/
theorem reads_decodePrs {i : Instr} (hw : i.wf = true) (hp : i.isPrs = true) : Reads decodePrs i (encode i).items := by
  cases i with
  | lit d => exact (reads_decodeLit d).decodePrs_one
  | short a b o => exact Reads.decodePrs_zero (c := false) (reads_decodeShort a b o)
  | longS l z w => exact Reads.decodePrs_zero (c := true) (reads_decodeLong_longS hw)
  | longL l w n => exact Reads.decodePrs_zero (c := true) (reads_decodeLong_longL hw)
  | eos => exact Reads.decodePrs_zero (c := true) reads_decodeLong_eos
  | _ => simp [Instr.isPrs] at hp

theorem reads_decodeMany {prog : List Instr} (h : ∀ i ∈ prog, i.wf = true ∧ i.isPrs = true) :
    Reads (decodeMany prog.length) prog (prog.flatMap fun i => (encode i).items) := by
  induction prog with
  | nil => exact fun r _ _ _ hs => ⟨r, rfl, hs⟩
  | cons i prog ih =>
    intro r more tail total hs
    obtain ⟨hw, hp⟩ := h i List.mem_cons_self
    rw [List.flatMap_cons, List.append_assoc] at hs
    obtain ⟨q1, h1, hs⟩ := reads_decodePrs hw hp r _ tail total hs
    obtain ⟨q2, h2, hs⟩ := ih (fun j hj => h j (List.mem_cons_of_mem i hj)) q1 more tail total hs
    exact ⟨q2, by simp only [List.length_cons, decodeMany, h1, h2, bind, Except.bind], hs⟩

/-- At the start of a stream no bit is latched, so the reader stands before any packing. -/
theorem start_spells (items : List Item) (tail : List Byte) :
    (Reader.start (packItems 8 items ++ tail)).Spells items tail (packItems 8 items ++ tail).length where
  rest := rfl
  latch j hj := absurd (show 8 + j < 8 from hj) (by omega)
  total := Nat.zero_add _

/-- Settles O24: every decoder reads its own items off the packing, so the program is read back and `tail` is left. -/
theorem decodeInvertsAssemble : Obligations.DecodeInvertsAssemble := by
  intro prog tail h
  have hstart := start_spells (prog.flatMap fun i => (encode i).items) tail
  obtain ⟨q, hq, hrest, -, htotal⟩ := reads_decodeMany h _ [] tail _ (by rwa [List.append_nil])
  have htail : q.rest = tail := hrest
  refine ⟨q, hq, htail, ?_⟩
  rw [htail, List.length_append] at htotal
  exact Nat.add_right_cancel htotal

end Sys2Proof
end

section
/-! What a run of `PRSDEC` does to the state, said once (41_prs_decoder R101 to R111): a step stops the engine, faults, or emits
bytes; and what emitting keeps. -/

namespace Sys2Proof.Machine

/-! ### Emitting -/

/-- `t` is `s` after `Emit` of `n` bytes (41_prs_decoder R108). -/
inductive Emits (s : State) : Nat → State → Prop
  | none : Emits s 0 s
  | byte {n : Nat} {t : State} (b : Byte) (h : Emits s n t) : Emits s (n + 1) (emit b t)

theorem emits_copyBytes (off : Int) (n : Nat) (s : State) : Emits s n (copyBytes off n s) := by
  induction n with
  | zero => exact .none
  | succ n ih => exact .byte _ ih

theorem Emits.frame {s t : State} {n : Nat} (h : Emits s n t) :
    t = { s with out := t.out, op := t.op, hist := t.hist, wc := t.wc } := by
  induction h with
  | none => rfl
  | byte b _ ih =>
    rw [emit_frame, ih]

theorem Emits.op_toNat {s t : State} {n : Nat} (h : Emits s n t) (hn : s.op.toNat + n < 2 ^ 32) :
    t.op.toNat = s.op.toNat + n := by
  induction h with
  | none => rfl
  | byte b _ ih =>
    simp only [emit_op, BitVec.toNat_add, BitVec.toNat_ofNat, ih (by omega)]
    omega

/-- Emitting keeps the history in step with the output (41_prs_decoder R108). -/
theorem Emits.tracksOutput {s t : State} {n : Nat} (h : Emits s n t) (hn : s.op.toNat + n < 2 ^ 32) (hs : s.TracksOutput) :
    t.TracksOutput := by
  induction h with
  | none => exact hs
  | byte b ht ih =>
    have hop := ht.op_toNat (by omega)
    exact (ih (by omega)).emit (by omega) b

theorem emit_memoryOk {s : State} (h : s.MemoryOk) (ho : s.op.toNat < Config.outMax.toNat) (b : Byte) : (emit b s).MemoryOk where
  __ := h
  out_wf := (emit_wf h.out_wf h.hist_wf b).1
  hist_wf := (emit_wf h.out_wf h.hist_wf b).2
  out_within := Memory.within_set h.out_within ho b
  hist_within := Memory.within_set h.hist_within s.wc.isLt b

theorem Emits.memoryOk {s t : State} {n : Nat} (h : Emits s n t) (hn : s.op.toNat + n ≤ Config.outMax.toNat) (hs : s.MemoryOk) :
    t.MemoryOk := by
  have hmax := Config.outMax.isLt
  induction h with
  | none => exact hs
  | byte b ht ih =>
    have hop := ht.op_toNat (by omega)
    exact emit_memoryOk (ih (by omega)) (by omega) b

/-! ### The pending moves -/

theorem dropWait_host_sublist (s : State) : (dropWait s).host.Sublist s.host := by
  unfold dropWait
  split
  · rename_i q hq
    simp [hq]
  · exact List.Sublist.refl _

/-! ### A step of the running engine -/

/-- `u` is the running engine of `s` when an instruction runs or the run ends: past the bytes fetched, none beyond the stream. -/
structure Fetched (s u : State) : Prop where
  frame : u = { s with host := u.host, ip := u.ip, ipStart := u.ipStart, ctl := u.ctl, bi := u.bi }
  host : u.host = (dropWait s).host
  ip_le : s.ip.toNat ≤ s.bufLen.toNat → u.ip.toNat ≤ s.bufLen.toNat

theorem Fetched.op_eq {s u : State} (h : Fetched s u) : u.op = s.op := by rw [h.frame]

theorem Fetched.tracksOutput {s u : State} (h : Fetched s u) (hs : s.TracksOutput) : u.TracksOutput := by
  rw [h.frame]
  exact ⟨hs.history, hs.cursor⟩

theorem fetched_dropWait (s : State) : Fetched s (dropWait s) where
  frame := by rw [dropWait_eq]
  host := rfl
  ip_le := by
    rw [dropWait_eq]
    exact id

theorem fetched_advance {s : State} {r : Reader} (hu : r.used ≤ s.bufLen.toNat - s.ip.toNat) :
    Fetched s (advance r (dropWait s)) where
  frame := by rw [dropWait_eq]; rfl
  host := rfl
  ip_le h := by
    rw [dropWait_eq]
    simp only [advance_ip, BitVec.toNat_add, BitVec.toNat_ofNat]
    have := s.bufLen.isLt
    omega

/-- What a step of the running engine does. -/
inductive EngineStep (s t : State) : Prop
  /-- The run ends (41_prs_decoder R101, R107). -/
  | ended (u : State) (hu : Fetched s u) (e : EndKind) (ht : t = finishPrs e u)
  /-- The run faults, with the address the instruction began at (60_exceptions R208, 10_state R25). -/
  | faulted (u : State) (hu : Fetched s u) (c : Cause) (hc : c = .corruptData ∨ c = .inputUnderrun) (ht : t = raisePrs c s.ip u)
  /-- At least one byte is emitted, none beyond the end of the output (41_prs_decoder R115). -/
  | emitted (u : State) (hu : Fetched s u) (n : Nat) (hpos : 1 ≤ n) (hn : s.op.toNat + n ≤ s.outLen.toNat) (ht : Emits u n t)

theorem engineStep_of_prs {s t : State} (ho : s.op.toNat < s.outLen.toNat) {i : Instr} {r : Reader} (hp : i.isPrs = true)
    (hu : r.used ≤ s.bufLen.toNat - s.ip.toNat) (he : exec i (advance r (dropWait s)) = .next t) : EngineStep s t := by
  have hf := fetched_advance hu
  have hclamp : ∀ size, clampSize size (advance r (dropWait s)) = min size (s.outLen.toNat - s.op.toNat) := by
    intro size
    rw [dropWait_eq]
    rfl
  rcases exec_prs_cases hp he with ⟨b, rfl⟩ | rfl | rfl | ⟨off, size, -, -, hsize, rfl⟩
  · exact .emitted _ hf 1 le_rfl ho (.byte b .none)
  · exact .ended _ hf .eos rfl
  · refine .faulted _ hf .corruptData (.inl rfl) ?_
    rw [dropWait_eq]
    rfl
  · exact .emitted _ hf _ (by rw [hclamp]; omega) (by rw [hclamp]; omega) (emits_copyBytes off _ _)

theorem step_busy_cases {s t : State} (hb : s.st = .busy) (hr : s.NotResetNow) (h : step s = .next t) : EngineStep s t := by
  cases step_cases h with
  | full _ _ _ ht => exact .ended _ (fetched_dropWait s) .full ht
  | underrun _ _ _ ht => exact .faulted _ (fetched_dropWait s) .inputUnderrun (.inr rfl) ht
  | prs _ _ ho i r _ hp hu he => exact engineStep_of_prs ho hp hu he
  | hardReset q hh _ => exact absurd (by simp [hh]) hr
  | store ha => simp [accepts, hb] at ha
  | _ => contradiction

/-! ### Everything a step can do -/

theorem writeOperand_frame (reg : Nat) (v : Word) (s : State) :
    writeOperand reg v s = { s with
      bufLen := (writeOperand reg v s).bufLen, outLen := (writeOperand reg v s).outLen, ksel := (writeOperand reg v s).ksel
      keyimm := (writeOperand reg v s).keyimm, shift := (writeOperand reg v s).shift
      kdSize := (writeOperand reg v s).kdSize, gsel := (writeOperand reg v s).gsel } := by
  unfold writeOperand
  split <;> rfl

theorem writeByte_frame (m : HostMem) (a : Nat) (b : Byte) (s : State) :
    writeByte m a b s = { s with
      buf := (writeByte m a b s).buf, out := (writeByte m a b s).out, ent := (writeByte m a b s).ent } := by
  cases m <;> rfl

theorem hostReadReg_frame (reg : Nat) (s : State) :
    hostReadReg reg s = { s with hostData := (hostReadReg reg s).hostData, freeCtr := (hostReadReg reg s).freeCtr } := by
  unfold hostReadReg
  split_ifs <;> rfl

theorem accepts_iff (s : State) : accepts s = true ↔ s.st = .idle ∨ s.st = .done := by simp [accepts]

theorem not_busy_of_accepts {s : State} (ha : accepts s = true) : s.st ≠ .busy := by
  rcases (accepts_iff s).1 ha with h | h <;> simp [h]

theorem not_fault_of_accepts {s : State} (ha : accepts s = true) : s.st ≠ .fault := by
  rcases (accepts_iff s).1 ha with h | h <;> simp [h]

theorem whenAccepted_of_not_accepts (f : State → State) {s : State} (ha : accepts s = false) : whenAccepted f s = s :=
  if_neg (by simp [ha])

/-- What a command does, by name. -/
inductive CommandEffect (i : Instr) (s t : State) : Prop
  /-- No effect. -/
  | ignored (ht : t = s)
  /-- `RESET` (70_reset_and_hazards R231). -/
  | reset (hi : i = .reset) (hb : s.st ≠ .busy) (ht : t = resetRegisters s)
  /-- A check fails before anything is changed (42_cipher R139). -/
  | fault (hi : i ≠ .reset) (ha : accepts s = true) (c : Cause) (info : Word) (hc : c ≠ .none) (ht : t = raise (c, info) s)
  /-- `PRSDEC` refuses a length (41_prs_decoder R100). -/
  | badLength (hi : i = .prsdec) (ha : accepts s = true) (info : Word) (ht : t = raisePrs .badLength info s)
  /-- `PRSDEC` starts the engine (41_prs_decoder R100). -/
  | start (hi : i = .prsdec) (ha : accepts s = true) (hb : s.bufLen.toNat ≤ Config.bufMax.toNat)
      (ho : s.outLen.toNat ≤ Config.outMax.toNat) (ht : t = startPrs s)
  /-- A cipher command rewrites the buffer (42_cipher R139). -/
  | cipher (hi : CipherCommand i) (ha : accepts s = true) (hb : s.bufLen.toNat ≤ Config.bufMax.toNat)
      (ht : t = s.finished t.buf) (hg : Memory.GrownBelow s.bufLen.toNat s.buf t.buf)
  /-- `KDERIVE` writes the keys (43_key_derivation R158). -/
  | derive (hi : i = .kderive) (ha : accepts s = true) (ht : t = deriveBody s)

theorem exec_command_effect {i : Instr} {s t : State} (hi : i.isPrs = false) (h : exec i s = .next t) : CommandEffect i s t := by
  rcases exec_command_cases hi h with ht | ⟨hi, hb, ht⟩ | ⟨hi, ha, c, info, hc, ht⟩ | ⟨hi, ha, info, ht⟩ |
    ⟨hi, ha, hb, ho, ht⟩ | ⟨hi, ha, hb, ht, hg⟩ | ⟨hi, ha, ht⟩
  · exact .ignored ht
  · exact .reset hi hb ht
  · exact .fault hi ha c info hc ht
  · exact .badLength hi ha info ht
  · exact .start hi ha hb ho ht
  · exact .cipher hi ha hb ht hg
  · exact .derive hi ha ht

/-- The kinds of step by what they may change: a reset, the engine, a command, and the host's own moves. -/
inductive StepEffect (s t : State) : Prop
  /-- Hardware reset (70_reset_and_hazards R230). -/
  | hardReset (q : List HostOp) (hh : s.host = .hardReset :: q) (ht : t = Sys2Proof.Machine.hardReset { s with host := q })
  /-- A step of the running engine (41_prs_decoder R101). -/
  | engine (hb : s.st = .busy) (he : EngineStep s t)
  /-- A command (10_state R26). -/
  | command (hb : s.st ≠ .busy) (v : Word) (q : List HostOp) (hh : s.host = .writeReg 0 v :: q) (i : Instr)
      (hd : decodeCmd (v.truncate 8) = .ok i) (hp : i.isPrs = false) (he : exec i { s with host := q } = .next t)
  /-- A code that no command has (60_exceptions R206). -/
  | illegal (ha : accepts s = true) (info : Word) (q : List HostOp) (ht : t = raise (.illegalCommand, info) { s with host := q })
  /-- A write of an operand register (10_state R22). -/
  | operand (ha : accepts s = true) (reg : Nat) (v : Word) (q : List HostOp) (ht : t = writeOperand reg v { s with host := q })
  /-- A write of a buffer byte (20_memory R40). -/
  | store (ha : accepts s = true) (m : HostMem) (a : Nat) (b : Byte) (q : List HostOp) (hc : a < capacity m)
      (ht : t = writeByte m a b { s with host := q })
  /-- A read, a wait, a write that is ignored, or nothing: the core is as before. -/
  | observed (hb : s.st ≠ .busy) (ht : t = { s with host := t.host, hostData := t.hostData, freeCtr := t.freeCtr })

theorem step_effect {s t : State} (h : step s = .next t) : StepEffect s t := by
  by_cases hr : s.NotResetNow
  case neg =>
    obtain ⟨q, hq⟩ := host_of_reset hr
    exact .hardReset q hq (Host.Outcome.next.inj ((step_hardReset hq).symm.trans h)).symm
  by_cases hb : s.st = .busy
  · exact .engine hb (step_busy_cases hb hr h)
  have hignored : ∀ (f : State → State) (q : List HostOp), accepts s = false → t = whenAccepted f { s with host := q } →
      StepEffect s t := by
    rintro f q ha rfl
    rw [whenAccepted_of_not_accepts f (s := { s with host := q }) ha]
    exact .observed hb rfl
  cases step_cases h with
  | hardReset q hh ht => exact .hardReset q hh ht
  | idle _ _ ht => exact .observed hb (by rw [ht])
  | command _ v q hh i hd hp he => exact .command hb v q hh i hd hp he
  | unknown _ v q hh hd ht =>
    cases ha : accepts s with
    | false => exact hignored _ q ha ht
    | true => exact .illegal ha _ q (ht.trans (whenAccepted_of_accepts _ ha))
  | operand _ reg v q hh _ ht =>
    cases ha : accepts s with
    | false => exact hignored _ q ha ht
    | true => exact .operand ha reg v q (ht.trans (whenAccepted_of_accepts _ ha))
  | register _ reg q _ ht =>
    rw [hostReadReg_frame] at ht
    exact .observed hb (by rw [ht])
  | wait _ q _ ht => exact .observed hb (by rw [ht])
  | store ha m a b q _ hc ht => exact .store ha m a b q hc ht
  | load _ m a q _ _ ht => exact .observed hb (by rw [ht])
  | _ => contradiction

end Sys2Proof.Machine
end

section
/-! The invariants of the machine (20_memory R40; 10_state R12, R15, R20, R23 to R25): each is kept by every step, one case for each
kind of step. -/

namespace Sys2Proof.Machine

/-! ### The four memories -/

/-- The memories are the same, but that `HIST` may be forgotten. -/
theorem State.MemoryOk.congr {s t : State} (h : s.MemoryOk) (hb : t.buf = s.buf) (ho : t.out = s.out) (he : t.ent = s.ent)
    (hh : t.hist = s.hist ∨ t.hist = []) : t.MemoryOk := by
  obtain ⟨bw, ow, hw, ew, bl, ol, hl, el⟩ := h
  rcases hh with hh | hh
  · exact ⟨hb ▸ bw, ho ▸ ow, hh ▸ hw, he ▸ ew, hb ▸ bl, ho ▸ ol, hh ▸ hl, he ▸ el⟩
  · exact ⟨hb ▸ bw, ho ▸ ow, hh ▸ Memory.wf_nil, he ▸ ew, hb ▸ bl, ho ▸ ol, hh ▸ Memory.within_nil _, he ▸ el⟩

theorem reset_memoryOk : State.reset.MemoryOk :=
  ⟨Memory.wf_nil, Memory.wf_nil, Memory.wf_nil, Memory.wf_nil, Memory.within_nil _, Memory.within_nil _, Memory.within_nil _,
    Memory.within_nil _⟩

theorem Fetched.memoryOk {s u : State} (hu : Fetched s u) (h : s.MemoryOk) : u.MemoryOk := by
  rw [hu.frame]
  exact h.congr rfl rfl rfl (.inl rfl)

theorem exec_command_memoryOk {i : Instr} {s t : State} (hi : i.isPrs = false) (he : exec i s = .next t) (h : s.MemoryOk) :
    t.MemoryOk := by
  cases exec_command_effect hi he with
  | ignored ht => exact ht ▸ h
  | reset _ _ ht => exact ht ▸ h.congr rfl rfl rfl (.inr rfl)
  | fault _ _ c info _ ht => exact ht ▸ h.congr rfl rfl rfl (.inl rfl)
  | badLength _ _ info ht => exact ht ▸ h.congr rfl rfl rfl (.inr rfl)
  | start _ _ _ _ ht => exact ht ▸ h.congr rfl rfl rfl (.inr rfl)
  | cipher _ _ hlen ht hg =>
    rw [ht]
    exact { h with buf_wf := hg.1 h.buf_wf, buf_within := hg.2 _ hlen h.buf_within }
  | derive _ _ ht => exact ht ▸ h.congr rfl rfl rfl (.inl rfl)

theorem writeByte_memoryOk {m : HostMem} {a : Nat} (ha : a < capacity m) (b : Byte) {s : State} (h : s.MemoryOk) :
    (writeByte m a b s).MemoryOk := by
  cases m with
  | buf => exact { h with buf_wf := Memory.wf_set h.buf_wf a b, buf_within := Memory.within_set h.buf_within ha b }
  | out => exact { h with out_wf := Memory.wf_set h.out_wf a b, out_within := Memory.within_set h.out_within ha b }
  | ent => exact { h with ent_wf := Memory.wf_set h.ent_wf a b, ent_within := Memory.within_set h.ent_within ha b }

theorem EngineStep.memoryOk {s t : State} (he : EngineStep s t) (h : s.MemoryOk) (hs : s.EngineOk) : t.MemoryOk := by
  cases he with
  | ended u hu e ht => exact ht ▸ (hu.memoryOk h).congr rfl rfl rfl (.inr rfl)
  | faulted u hu c _ ht => exact ht ▸ (hu.memoryOk h).congr rfl rfl rfl (.inr rfl)
  | emitted u hu n _ hn ht => exact ht.memoryOk (hu.op_eq ▸ hn.trans hs.out_le) (hu.memoryOk h)

/-- Settles O57: only the engine, the cipher commands and the host's byte writes list bytes, each below the capacity. -/
theorem stepKeepsMemory : Obligations.StepKeepsMemory := by
  intro s t h hrun hstep
  cases step_effect hstep with
  | hardReset q _ ht => exact ht ▸ reset_memoryOk.congr rfl rfl rfl (.inl rfl)
  | engine hb he => exact he.memoryOk h (hrun hb)
  | command _ v q _ i _ hp he => exact exec_command_memoryOk hp he (h.congr rfl rfl rfl (.inl rfl))
  | illegal _ info q ht => exact ht ▸ h.congr rfl rfl rfl (.inl rfl)
  | operand _ reg v q ht =>
    rw [ht, writeOperand_frame]
    exact h.congr rfl rfl rfl (.inl rfl)
  | store _ m a b q hc ht => exact ht ▸ writeByte_memoryOk hc b (h.congr rfl rfl rfl (.inl rfl))
  | observed _ ht =>
    rw [ht]
    exact h.congr rfl rfl rfl (.inl rfl)

/-! ### The engine -/

theorem startPrs_engineOk {s : State} (hb : s.bufLen.toNat ≤ Config.bufMax.toNat) (ho : s.outLen.toNat ≤ Config.outMax.toNat) :
    (startPrs s).EngineOk where
  ip_le := Nat.zero_le _
  buf_le := hb
  op_le := Nat.zero_le _
  out_le := ho
  cursor := (startPrs_tracksOutput s).cursor
  history := (startPrs_tracksOutput s).history

/-- A step after which the engine still runs has emitted bytes within the output. -/
theorem EngineStep.engineOk {s t : State} (he : EngineStep s t) (hb : t.st = .busy) (hs : s.EngineOk) : t.EngineOk := by
  cases he with
  | ended u _ e ht => simp [ht] at hb
  | faulted u _ c _ ht => simp [ht] at hb
  | emitted u hu n _ hn ht =>
    have hlt := s.outLen.isLt
    have hop : t.op.toNat = s.op.toNat + n := by rw [ht.op_toNat (hu.op_eq ▸ by omega), hu.op_eq]
    obtain ⟨hhist, hcur⟩ := ht.tracksOutput (hu.op_eq ▸ by omega) (hu.tracksOutput ⟨hs.history, hs.cursor⟩)
    have hbuf : t.bufLen = s.bufLen := by rw [ht.frame, hu.frame]
    have hout : t.outLen = s.outLen := by rw [ht.frame, hu.frame]
    have hip : t.ip = u.ip := by rw [ht.frame]
    exact { ip_le := hip ▸ hbuf ▸ hu.ip_le hs.ip_le, buf_le := hbuf ▸ hs.buf_le, op_le := by rw [hop, hout]; exact hn,
            out_le := hout ▸ hs.out_le, cursor := hcur, history := hhist }

/-- Settles O58: the engine is left running by its own steps and by its start alone. -/
theorem stepKeepsEngine : Obligations.StepKeepsEngine := by
  intro s t hrun hstep hb
  cases step_effect hstep with
  | hardReset q _ ht => simp [ht] at hb
  | engine hbs he => exact he.engineOk hb (hrun hbs)
  | command hbs v q _ i _ hp he =>
    cases exec_command_effect hp he with
    | ignored ht =>
      rw [ht] at hb
      exact absurd hb hbs
    | reset _ _ ht => simp [ht] at hb
    | fault _ _ c info _ ht => simp [ht] at hb
    | badLength _ _ info ht => simp [ht] at hb
    | start _ _ hlen hout ht => exact ht ▸ startPrs_engineOk hlen hout
    | cipher _ _ _ ht =>
      rw [ht] at hb
      exact nomatch hb
    | derive _ _ ht => simp [ht, deriveBody] at hb
  | illegal _ info q ht => simp [ht] at hb
  | operand ha reg v q ht =>
    rw [ht, writeOperand_frame] at hb
    exact absurd hb (not_busy_of_accepts ha)
  | store ha m a b q _ ht =>
    rw [ht, writeByte_frame] at hb
    exact absurd hb (not_busy_of_accepts ha)
  | observed hbs ht =>
    rw [ht] at hb
    exact absurd hb hbs

/-! ### The fault registers and `END` -/

theorem State.StatusOk.congr {s t : State} (h : s.StatusOk) (hst : t.st = s.st) (he : t.ending = s.ending)
    (hc : t.cause = s.cause) (hf : t.faddr = s.faddr) : t.StatusOk := by
  obtain ⟨h1, h2, h3⟩ := h
  exact ⟨by rw [hc, hst]; exact h1, by rw [hf, hst]; exact h2, by rw [he, hst]; exact h3⟩

/-- Outside `FAULT` a command may start or end without a word about the fault registers. -/
theorem State.StatusOk.proceed {s t : State} (h : s.StatusOk) (hs : s.st ≠ .fault) (ht : t.st ≠ .fault) (hc : t.cause = s.cause)
    (hf : t.faddr = s.faddr) (he : t.ending = .none ∨ t.st = .done) : t.StatusOk where
  cause_iff := by rw [hc]; exact iff_of_true (h.cause_iff.2 hs) ht
  faddr_zero _ := hf.trans (h.faddr_zero hs)
  ending_done hne := he.resolve_left hne

theorem statusOk_of_fault {t : State} (ht : t.st = .fault) (hc : t.cause ≠ .none) (he : t.ending = .none) : t.StatusOk where
  cause_iff := iff_of_false hc (not_not.2 ht)
  faddr_zero hne := absurd ht hne
  ending_done hne := absurd he hne

theorem statusOk_of_reset {t : State} (ht : t.st = .idle) (hc : t.cause = .none) (hf : t.faddr = 0) (he : t.ending = .none) :
    t.StatusOk where
  cause_iff := iff_of_true hc (by simp [ht])
  faddr_zero _ := hf
  ending_done hne := absurd he hne

theorem Fetched.status {s u : State} (h : Fetched s u) :
    u.st = s.st ∧ u.ending = s.ending ∧ u.cause = s.cause ∧ u.faddr = s.faddr := by
  rw [h.frame]
  exact ⟨rfl, rfl, rfl, rfl⟩

theorem EngineStep.statusOk {s t : State} (he : EngineStep s t) (hb : s.st = .busy) (h : s.StatusOk) : t.StatusOk := by
  cases he with
  | ended u hu e ht =>
    obtain ⟨-, -, hc, hf⟩ := hu.status
    exact ht ▸ h.proceed (by simp [hb]) nofun hc hf (.inr rfl)
  | faulted u _ c hc ht => exact ht ▸ statusOk_of_fault rfl (by rcases hc with rfl | rfl <;> exact nofun) rfl
  | emitted u hu n _ _ ht =>
    obtain ⟨hst, he, hc, hf⟩ := hu.status
    rw [ht.frame]
    exact h.congr hst he hc hf

theorem exec_command_statusOk {i : Instr} {s t : State} (hp : i.isPrs = false) (he : exec i s = .next t) (h : s.StatusOk) :
    t.StatusOk := by
  cases exec_command_effect hp he with
  | ignored ht => exact ht ▸ h
  | reset _ _ ht => exact ht ▸ statusOk_of_reset rfl rfl rfl rfl
  | fault _ _ c info hc ht => exact ht ▸ statusOk_of_fault rfl hc rfl
  | badLength _ _ info ht => exact ht ▸ statusOk_of_fault rfl nofun rfl
  | start _ ha _ _ ht => exact ht ▸ h.proceed (not_fault_of_accepts ha) nofun rfl rfl (.inl rfl)
  | cipher _ ha _ ht =>
    rw [ht]
    exact h.proceed (not_fault_of_accepts ha) nofun rfl rfl (.inl rfl)
  | derive _ ha ht => exact ht ▸ h.proceed (not_fault_of_accepts ha) nofun rfl rfl (.inl rfl)

/-- Settles O59: a fault sets `CAUSE`, a reset clears it, and everything else is no fault and leaves it. -/
theorem stepKeepsStatus : Obligations.StepKeepsStatus := by
  intro s t h hstep
  cases step_effect hstep with
  | hardReset q _ ht => exact ht ▸ statusOk_of_reset rfl rfl rfl rfl
  | engine hb he => exact he.statusOk hb h
  | command _ v q _ i _ hp he => exact exec_command_statusOk hp he (h.congr rfl rfl rfl rfl)
  | illegal _ info q ht => exact ht ▸ statusOk_of_fault rfl nofun rfl
  | operand _ reg v q ht =>
    rw [ht, writeOperand_frame]
    exact h.congr rfl rfl rfl rfl
  | store _ m a b q _ ht =>
    rw [ht, writeByte_frame]
    exact h.congr rfl rfl rfl rfl
  | observed _ ht =>
    rw [ht]
    exact h.congr rfl rfl rfl rfl

/-! ### The keys -/

/-- What a command does to the keys: `RESET` makes them invalid, `KDERIVE` writes them, the others keep them. -/
theorem exec_command_keys {i : Instr} {s t : State} (hp : i.isPrs = false) (he : exec i s = .next t) :
    (t.keys = s.keys ∧ t.kvalid = s.kvalid) ∨ (i = .reset ∧ t.kvalid = false) ∨
    (i = .kderive ∧ accepts s = true ∧ t.keys = deriveKeys kdConfig (entropy s) s.kdSize) := by
  cases exec_command_effect hp he with
  | ignored ht => exact .inl (ht ▸ ⟨rfl, rfl⟩)
  | reset hi _ ht => exact .inr (.inl ⟨hi, ht ▸ rfl⟩)
  | fault _ _ c info _ ht => exact .inl (ht ▸ ⟨rfl, rfl⟩)
  | badLength _ _ info ht => exact .inl (ht ▸ ⟨rfl, rfl⟩)
  | start _ _ _ _ ht => exact .inl (ht ▸ ⟨rfl, rfl⟩)
  | cipher _ _ _ ht =>
    rw [ht]
    exact .inl ⟨rfl, rfl⟩
  | derive hi ha ht => exact .inr (.inr ⟨hi, ha, ht ▸ rfl⟩)

theorem Fetched.keys {s u : State} (h : Fetched s u) : u.keys = s.keys ∧ u.kvalid = s.kvalid := by
  rw [h.frame]
  exact ⟨rfl, rfl⟩

theorem EngineStep.keys {s t : State} (he : EngineStep s t) : t.keys = s.keys ∧ t.kvalid = s.kvalid := by
  cases he with
  | ended u hu e ht => exact ht ▸ ⟨hu.keys.1, hu.keys.2⟩
  | faulted u hu c _ ht => exact ht ▸ ⟨hu.keys.1, hu.keys.2⟩
  | emitted u hu n _ _ ht =>
    rw [ht.frame]
    exact ⟨hu.keys.1, hu.keys.2⟩

/-- What a step does to the keys, and the input it takes to change them (10_state R20, 70_reset_and_hazards R231). -/
theorem step_keys {s t : State} (hstep : step s = .next t) :
    (t.keys = s.keys ∧ t.kvalid = s.kvalid) ∨
    (t.kvalid = false ∧ ∃ q, s.host = .hardReset :: q ∨
      (s.st ≠ .busy ∧ ∃ v : Word, s.host = .writeReg 0x00 v :: q ∧ decodeCmd (v.truncate 8) = .ok .reset)) ∨
    ((∃ e size, t.keys = deriveKeys kdConfig e size) ∧ accepts s = true ∧
      ∃ (q : _) (v : Word), s.host = .writeReg 0x00 v :: q ∧ decodeCmd (v.truncate 8) = .ok .kderive) := by
  cases step_effect hstep with
  | hardReset q hh ht => exact .inr (.inl ⟨ht ▸ rfl, q, .inl hh⟩)
  | engine _ he => exact .inl he.keys
  | command hb v q hh i hd hp he =>
    rcases exec_command_keys hp he with hkeep | ⟨rfl, hv⟩ | ⟨rfl, ha, hk⟩
    · exact .inl hkeep
    · exact .inr (.inl ⟨hv, q, .inr ⟨hb, v, hh, hd⟩⟩)
    · exact .inr (.inr ⟨⟨_, _, hk⟩, ha, q, v, hh, hd⟩)
  | illegal _ info q ht => exact .inl (ht ▸ ⟨rfl, rfl⟩)
  | operand _ reg v q ht =>
    rw [ht, writeOperand_frame]
    exact .inl ⟨rfl, rfl⟩
  | store _ m a b q _ ht =>
    rw [ht, writeByte_frame]
    exact .inl ⟨rfl, rfl⟩
  | observed _ ht =>
    rw [ht]
    exact .inl ⟨rfl, rfl⟩

/-- Settles O60: keys that a step leaves valid are the ones before it or a derivation's, which are rotations by definition. -/
theorem stepKeepsKeys : Obligations.StepKeepsKeys := by
  intro s t h hstep hv
  rcases step_keys hstep with ⟨hk, hkv⟩ | ⟨hf, -⟩ | ⟨⟨e, size, hk⟩, -⟩
  · rw [hk]
    exact h (hkv ▸ hv)
  · simp [hf] at hv
  · rw [hk]
    exact ⟨rfl, rfl, rfl⟩

/-- The written value's low byte is the code of the command it decodes to. -/
theorem toNat_mod_of_decodeCmd {v : Word} {i : Instr} {code : Byte} (hd : decodeCmd (v.truncate 8) = .ok i)
    (hi : encode i = .command code) : v.toNat % 256 = code.toNat := by
  have : (v.truncate 8 : Byte) = code := Encoding.command.inj ((encode_of_decodeCmd hd).symm.trans hi)
  simpa using congrArg BitVec.toNat this

/-- Settles O54: from what a step does to the keys, the codes of the two commands read off the written value. -/
theorem onlyKderiveAndResetWriteKeys : Obligations.OnlyKderiveAndResetWriteKeys := by
  intro s t hstep
  rcases step_keys hstep with hkeep | ⟨-, q, hh | ⟨hb, v, hh, hd⟩⟩ | ⟨-, ha, q, v, hh, hd⟩
  · exact .inl hkeep
  · exact .inr ⟨q, .inl hh⟩
  · exact .inr ⟨q, .inr ⟨hb, v, hh, .inl (toNat_mod_of_decodeCmd hd rfl)⟩⟩
  · exact .inr ⟨q, .inr ⟨not_busy_of_accepts ha, v, hh, .inr ⟨ha, toNat_mod_of_decodeCmd hd rfl⟩⟩⟩

end Sys2Proof.Machine
end

section
/-! Who writes what, and how a step can stop (10_state R11, R17 to R20; 20_memory R40, R49; 60_exceptions R205, R208, R209). -/

namespace Sys2Proof.Machine

/-- Settles O10: every arm of `exec` is a `next`. -/
theorem everyInstructionAnswersNext : Obligations.EveryInstructionAnswersNext := by
  intro i s
  cases i <;> exact ⟨_, rfl⟩

/-- Settles O48: what a command can do outside `IDLE` and `DONE` is nothing, or `RESET`. -/
theorem commandsIgnoredUnlessAccepted : Obligations.CommandsIgnoredUnlessAccepted := by
  intro i s hp hne hst
  have hna : accepts s ≠ true := by
    rw [Ne, accepts_iff]
    rcases hst with h | h <;> simp [h]
  obtain ⟨t, ht⟩ := everyInstructionAnswersNext i s
  cases exec_command_effect hp ht with
  | ignored h => rw [ht, h]
  | reset hi => exact absurd hi hne
  | _ => contradiction

/-! ### What an instruction leaves alone -/

/-- Settles O19: `Emit`, a copy, the end of a run and a fault write the engine's registers, `HIST`, `OUT` and `STATUS` only. -/
theorem prsInstructionsWriteOnlyEngineState : Obligations.PrsInstructionsWriteOnlyEngineState := by
  intro i s t hi h
  rcases exec_prs_cases hi h with ⟨b, rfl⟩ | rfl | rfl | ⟨off, size, -, -, -, rfl⟩
  · rfl
  · rfl
  · rfl
  · rw [copyBytes_frame]

/-- A command other than `RESET` writes the engine's registers, `HIST`, `BUF`, the keys and the status registers at most. -/
theorem command_frame {i : Instr} {s t : State} (hp : i.isPrs = false) (hne : i ≠ .reset) (h : exec i s = .next t) :
    t = { s with
      ip := t.ip, ipStart := t.ipStart, ctl := t.ctl, bi := t.bi, wc := t.wc, op := t.op, hist := t.hist
      histEpoch := t.histEpoch, buf := t.buf, keys := t.keys, kvalid := t.kvalid, st := t.st, ending := t.ending
      cause := t.cause, faddr := t.faddr, freeCtr := t.freeCtr } := by
  cases exec_command_effect hp h with
  | ignored ht => rw [ht]
  | reset hi => exact absurd hi hne
  | fault _ _ c info _ ht => rw [ht]; rfl
  | badLength _ _ info ht => rw [ht]; rfl
  | start _ _ _ _ ht => rw [ht]; rfl
  | cipher _ _ _ ht => rw [ht]; rfl
  | derive _ _ ht => rw [ht]; rfl

theorem exec_reset_cases {s t : State} (h : exec .reset s = .next t) : t = s ∨ t = resetRegisters s := by
  by_cases hb : s.st = .busy
  · exact .inl (Host.Outcome.next.inj ((exec_reset_busy hb).symm.trans h)).symm
  · exact .inr (Host.Outcome.next.inj ((exec_reset hb).symm.trans h)).symm

/-- Settles O55: neither frame names `ENT`, an operand register or the host's side, and `RESET` writes the operand registers alone
of these. -/
theorem instructionsKeepOperandsAndEntropy : Obligations.InstructionsKeepOperandsAndEntropy := by
  intro i s t h
  cases hp : i.isPrs with
  | true =>
    rw [prsInstructionsWriteOnlyEngineState i s t hp h]
    exact ⟨rfl, rfl, rfl, rfl, fun _ => ⟨rfl, rfl, rfl, rfl, rfl, rfl, rfl⟩⟩
  | false =>
    by_cases hi : i = .reset
    · subst hi
      rcases exec_reset_cases h with rfl | rfl <;> exact ⟨rfl, rfl, rfl, rfl, fun hne => absurd rfl hne⟩
    · rw [command_frame hp hi h]
      exact ⟨rfl, rfl, rfl, rfl, fun _ => ⟨rfl, rfl, rfl, rfl, rfl, rfl, rfl⟩⟩

theorem command_out {i : Instr} {s t : State} (hp : i.isPrs = false) (h : exec i s = .next t) : t.out = s.out := by
  by_cases hi : i = .reset
  · subst hi
    rcases exec_reset_cases h with rfl | rfl <;> rfl
  · rw [command_frame hp hi h]

theorem command_buf {i : Instr} {s t : State} (hp : i.isPrs = false) (h : exec i s = .next t) :
    t.buf = s.buf ∨ CipherCommand i := by
  cases exec_command_effect hp h with
  | ignored ht => exact .inl (by rw [ht])
  | reset _ _ ht => exact .inl (by rw [ht]; rfl)
  | fault _ _ c info _ ht => exact .inl (by rw [ht]; rfl)
  | badLength _ _ info ht => exact .inl (by rw [ht]; rfl)
  | start _ _ _ _ ht => exact .inl (by rw [ht]; rfl)
  | cipher hi => exact .inr hi
  | derive _ _ ht => exact .inl (by rw [ht]; rfl)

/-- Settles O56: PRS instructions write no `BUF`, commands no `OUT`, and of the commands only the ciphers write `BUF`. -/
theorem whoWritesTheBuffers : Obligations.WhoWritesTheBuffers := by
  intro i s t h
  cases hp : i.isPrs with
  | true =>
    rw [prsInstructionsWriteOnlyEngineState i s t hp h]
    exact ⟨nofun, fun hne => absurd rfl hne⟩
  | false => exact ⟨fun _ => command_out hp h, (command_buf hp h).resolve_left⟩

/-! ### Faults -/

/-- Settles O20: a faulting step of the engine is a fault of a fetched state, which differs from `s` in the fetch position only. -/
theorem engineFaultsArePrecise : Obligations.EngineFaultsArePrecise := by
  intro s t hb hstep hf
  cases step_effect hstep with
  | hardReset q _ ht => simp [ht] at hf
  | engine _ he =>
    cases he with
    | ended u _ e ht => simp [ht] at hf
    | faulted u hu c hc ht =>
      rw [ht, hu.frame]
      exact ⟨rfl, rfl, rfl, rfl, hc⟩
    | emitted u hu n _ _ ht =>
      rw [ht.frame, hu.frame] at hf
      exact absurd (hb.symm.trans hf) nofun
  | illegal ha => exact absurd hb (not_busy_of_accepts ha)
  | operand ha => exact absurd hb (not_busy_of_accepts ha)
  | store ha => exact absurd hb (not_busy_of_accepts ha)
  | _ => contradiction

/-- Settles O49: in `FAULT` no write is accepted and no command but `RESET` has an effect. -/
theorem faultLeftOnlyByReset : Obligations.FaultLeftOnlyByReset := by
  intro s t hf hstep
  have hna : accepts s ≠ true := by simp [accepts_fault hf]
  cases step_effect hstep with
  | hardReset q hh ht => exact .inr (ht ▸ ⟨rfl, rfl, rfl, q, .inl hh⟩)
  | engine hb _ => exact absurd (hb.symm.trans hf) nofun
  | command hb v q hh i hd hp he =>
    rcases eq_reset_or_eq_of_exec_fault (s := { s with host := q }) hp hf he with rfl | rfl
    · have ht := Host.Outcome.next.inj ((exec_reset (s := { s with host := q }) hb).symm.trans he)
      exact .inr (ht ▸ ⟨rfl, rfl, rfl, q, .inr ⟨v, hh, toNat_mod_of_decodeCmd hd rfl⟩⟩)
    · exact .inl ⟨hf, rfl, rfl, rfl, ⟨rfl, rfl, rfl, rfl, rfl, rfl, rfl⟩, rfl, rfl, rfl, rfl, rfl⟩
  | observed _ ht =>
    rw [ht]
    exact .inl ⟨hf, rfl, rfl, rfl, ⟨rfl, rfl, rfl, rfl, rfl, rfl, rfl⟩, rfl, rfl, rfl, rfl, rfl⟩
  | _ => contradiction

/-! ### Stops -/

/-- A running engine always answers a next state. -/
theorem exists_step_busy {s : State} (hb : s.st = .busy) : ∃ t, step s = .next t := by
  by_cases hr : s.NotResetNow
  · rw [step_busy hb hr]
    rcases prsStep_cases (dropWait s) with ⟨-, h⟩ | ⟨-, h⟩ | ⟨-, i, r, -, -, -, h⟩
    · exact ⟨_, h⟩
    · exact ⟨_, h⟩
    · exact h ▸ everyInstructionAnswersNext i _
  · obtain ⟨q, hq⟩ := host_of_reset hr
    exact ⟨_, step_hardReset hq⟩

theorem exists_writeCmd (code : Byte) (s : State) : ∃ t, writeCmd code s = .next t := by
  rcases writeCmd_cases code s with ⟨i, -, -, h⟩ | ⟨-, h⟩
  · exact h ▸ everyInstructionAnswersNext i s
  · exact ⟨_, h⟩

theorem exists_hostWriteReg (reg : Nat) (v : Word) (s : State) : ∃ t, hostWriteReg reg v s = .next t := by
  unfold hostWriteReg
  split_ifs
  · exact exists_writeCmd _ s
  · exact ⟨_, rfl⟩

/-- Settles O11: of the host's moves only the two buffer accesses can answer anything but a next state. -/
theorem stepStopsOnlyOnHostAccess : Obligations.StepStopsOnlyOnHostAccess := by
  intro s hstop
  have hb : s.st ≠ .busy := fun hb => (exists_step_busy hb).elim hstop
  refine ⟨hb, ?_⟩
  cases hh : s.host with
  | nil => exact absurd (step_idle hb hh) (hstop s)
  | cons h q =>
    have hmove := step_quiet hb hh
    cases h with
    | writeReg reg v =>
      obtain ⟨t, ht⟩ := exists_hostWriteReg reg v { s with host := q }
      exact absurd (hmove.trans ht) (hstop t)
    | readReg reg => exact absurd hmove (hstop _)
    | wait => exact absurd hmove (hstop _)
    | hardReset => exact absurd hmove (hstop _)
    | readByte m a =>
      by_cases hc : capacity m ≤ a
      · exact ⟨m, a, q, .inl ⟨rfl, hmove.trans (if_pos hc)⟩⟩
      · exact absurd (hmove.trans (if_neg hc)) (hstop _)
    | writeByte m a b =>
      refine ⟨m, a, q, .inr ⟨b, rfl, ?_⟩⟩
      by_cases hc : capacity m ≤ a
      · exact .inl (hmove.trans (if_pos hc))
      · have hmove := hmove.trans (if_neg hc)
        by_cases hf : s.st = .fault
        · exact .inr ⟨hf, hmove.trans (if_neg (by simp [accepts_fault (s := { s with host := q }) hf]))⟩
        · exact absurd (hmove.trans (if_pos (accepts_of_not_busy_not_fault (s := { s with host := q }) hb hf))) (hstop _)

end Sys2Proof.Machine
end

section
/-! The decode tree and the command codes (30_encoding R62 to R70; 41_prs_decoder R118): decoding fails only for want of bytes,
looks at no byte behind the instruction, and a command has one code. -/

namespace Sys2Proof

/-- A decoder that fails at `r` for want of bytes, `n` of which would have been enough. -/
def FailsWithin {α : Type} (n : Nat) (r : Reader) (x : Except DecodeError α) : Prop :=
  ∀ e, x = .error e → e = .inputUnderrun ∧ r.rest.length < n

theorem fails_fetch (r : Reader) : FailsWithin 1 r r.fetch := fun _ h =>
  have ⟨he, hr⟩ := fetch_error h
  ⟨he, by omega⟩

theorem fails_ctlBit (r : Reader) : FailsWithin 1 r r.ctlBit := fun _ h =>
  have ⟨he, hr⟩ := ctlBit_error h
  ⟨he, by omega⟩

/-- A decoder that takes at most one byte and goes on with another: the bytes wanted add up. -/
theorem FailsWithin.bind {α β : Type} {n : Nat} {r : Reader} {x : Except DecodeError (α × Reader)}
    {f : α × Reader → Except DecodeError β} (hx : FailsWithin 1 r x) (heats : ∀ {a q}, x = .ok (a, q) → r.Eats q 1)
    (hf : ∀ a q, FailsWithin n q (f (a, q))) : FailsWithin (n + 1) r (x >>= f) := by
  intro e h
  rcases except_bind_error h with h | ⟨⟨a, q⟩, hok, h⟩
  · obtain ⟨he, hr⟩ := hx e h
    exact ⟨he, by omega⟩
  · obtain ⟨he, hq⟩ := hf a q e h
    have := (heats hok).length_le
    exact ⟨he, by omega⟩

theorem FailsWithin.ok {α : Type} (n : Nat) (r : Reader) (a : α) : FailsWithin n r (.ok a : Except DecodeError α) := nofun

theorem FailsWithin.mono {α : Type} {m n : Nat} {r : Reader} {x : Except DecodeError α} (h : FailsWithin m r x) (hmn : m ≤ n) :
    FailsWithin n r x := fun e he =>
  have ⟨hu, hr⟩ := h e he
  ⟨hu, by omega⟩

theorem decodeLit_fails (r : Reader) : FailsWithin 1 r (decodeLit r) :=
  (fails_fetch r).bind fetch_eats fun _ _ => .ok _ _ _

theorem decodeShort_fails (r : Reader) : FailsWithin 3 r (decodeShort r) :=
  (fails_ctlBit r).bind ctlBit_eats fun _ q => (fails_ctlBit q).bind ctlBit_eats fun _ q =>
    (fails_fetch q).bind fetch_eats fun _ _ => .ok _ _ _

theorem decodeLong_fails (r : Reader) : FailsWithin 3 r (decodeLong r) := by
  refine (fails_fetch r).bind fetch_eats fun b0 q => (fails_fetch q).bind fetch_eats fun b1 q => ?_
  simp only
  split_ifs
  · exact .ok _ _ _
  · exact (fails_fetch q).bind fetch_eats fun _ _ => .ok _ _ _
  · exact .ok _ _ _

theorem decodePrs_fails (r : Reader) : FailsWithin 5 r (decodePrs r) := by
  refine (fails_ctlBit r).bind ctlBit_eats fun c0 q => ?_
  cases c0 with
  | true => exact (decodeLit_fails q).mono (by omega)
  | false =>
    refine (fails_ctlBit q).bind ctlBit_eats fun c1 q => ?_
    cases c1 with
    | true => exact decodeLong_fails q
    | false => exact decodeShort_fails q

/-- Settles O25: what a decoded instruction is and takes stands in `decodePrs_ok`; each form fails only where a byte it needs is
missing. -/
theorem decodeTreeIsTotal : Obligations.DecodeTreeIsTotal := by
  refine fun r => ⟨fun hlen => ?_, fun i q h => ?_, fun e h => ?_⟩
  · cases h : decodePrs r with
    | ok x => exact ⟨x.1, x.2, rfl⟩
    | error e =>
      have := (decodePrs_fails r e h).2
      omega
  · obtain ⟨hp, hw, k, hk, hu, hrest, -⟩ := decodePrs_ok h
    have hk' : q.used - r.used = k := by omega
    exact ⟨hp, hw, hk' ▸ hrest, by omega, by omega⟩
  · obtain ⟨he, hr⟩ := decodePrs_fails r e h
    exact ⟨he, by omega⟩

/-! ### Bytes behind an instruction -/

/-- The position with more bytes behind the stream. -/
def Reader.before (r : Reader) (more : List Byte) : Reader := { r with rest := r.rest ++ more }

/-- The decoder does not look at bytes behind what it takes. -/
def IgnoresLater {α : Type} (p : Reader → Except DecodeError (α × Reader)) : Prop :=
  ∀ (r q : Reader) (a : α) (more : List Byte), p r = .ok (a, q) → p (r.before more) = .ok (a, q.before more)

theorem ignoresLater_fetch : IgnoresLater Reader.fetch := fun _ _ _ more => fetch_append more

theorem ignoresLater_ctlBit : IgnoresLater Reader.ctlBit := fun _ _ _ more => ctlBit_append more

theorem IgnoresLater.bind {α β : Type} {p : Reader → Except DecodeError (α × Reader)}
    {f : α × Reader → Except DecodeError (β × Reader)} (hp : IgnoresLater p) (hf : ∀ a, IgnoresLater fun r => f (a, r)) :
    IgnoresLater fun r => p r >>= f := by
  intro r q b more h
  obtain ⟨⟨a, r1⟩, h1, h⟩ := except_bind_ok h
  have := hp r r1 a more h1
  simp only [this]
  exact hf a r1 q b more h

theorem ignoresLater_ok {α : Type} (a : α) : IgnoresLater fun r => .ok (a, r) := by
  intro r q b more h
  cases h
  rfl

theorem ignoresLater_decodeLit : IgnoresLater decodeLit := ignoresLater_fetch.bind fun _ => ignoresLater_ok _

theorem ignoresLater_decodeShort : IgnoresLater decodeShort :=
  ignoresLater_ctlBit.bind fun _ => ignoresLater_ctlBit.bind fun _ => ignoresLater_fetch.bind fun _ => ignoresLater_ok _

theorem ignoresLater_decodeLong : IgnoresLater decodeLong := by
  refine ignoresLater_fetch.bind fun b0 => ignoresLater_fetch.bind fun b1 => ?_
  simp only
  split_ifs
  · exact ignoresLater_ok _
  · exact ignoresLater_fetch.bind fun n => ignoresLater_ok (Instr.longL (b0.extractLsb' 3 5) b1 n)
  · exact ignoresLater_ok _

theorem ignoresLater_decodePrs : IgnoresLater decodePrs := by
  refine ignoresLater_ctlBit.bind fun c0 => ?_
  cases c0 with
  | true => exact ignoresLater_decodeLit
  | false =>
    refine ignoresLater_ctlBit.bind fun c1 => ?_
    cases c1 with
    | true => exact ignoresLater_decodeLong
    | false => exact ignoresLater_decodeShort

/-- Settles O26: the decode tree is built from `Fetch()` and `CtlBit()`, which look at the first byte alone. -/
theorem laterBytesAreNotExamined : Obligations.LaterBytesAreNotExamined :=
  fun r q i more h => ignoresLater_decodePrs r q i more h

/-! ### Command codes -/

theorem decodeCmd_of_encode {code : Byte} {i : Instr} (h : encode i = .command code) : decodeCmd code = .ok i := by
  cases i <;> cases h <;> rfl

theorem decodeCmd_error {code : Byte} {e : DecodeError} (h : decodeCmd code = .error e) : e = .illegalCommand := by
  unfold decodeCmd at h
  split_ifs at h
  exact (Except.error.inj h).symm

/-- Settles O28: the two directions instruction by instruction; a code that decodes has a command. -/
theorem commandCodesRoundTrip : Obligations.CommandCodesRoundTrip := by
  refine ⟨fun code i => ⟨encode_of_decodeCmd, decodeCmd_of_encode⟩, fun code h => ?_⟩
  cases hd : decodeCmd code with
  | ok i => exact absurd (encode_of_decodeCmd hd) (h i)
  | error e => rw [decodeCmd_error hd]

/-- Settles O29: closed words, decoded. -/
theorem writtenOutWordsDecode : Obligations.WrittenOutWordsDecode := by
  unfold Obligations.WrittenOutWordsDecode
  decide

end Sys2Proof
end

section
/-! The single steps (41_prs_decoder R100 to R107; 10_state R26): what a step of a running engine and a written command come to. -/

namespace Sys2Proof.Machine

@[simp] theorem dropWait_ip (s : State) : (dropWait s).ip = s.ip := by rw [dropWait_eq]
@[simp] theorem dropWait_op (s : State) : (dropWait s).op = s.op := by rw [dropWait_eq]
@[simp] theorem dropWait_outLen (s : State) : (dropWait s).outLen = s.outLen := by rw [dropWait_eq]

theorem prsStep_full {s : State} (h : s.outLen.toNat ≤ s.op.toNat) : prsStep s = .next (finishPrs .full s) := if_pos h

theorem prsStep_exhausted {s : State} {e : DecodeError} (h : s.op.toNat < s.outLen.toNat)
    (hd : decodePrs (fetchPosition s) = .error e) : prsStep s = .next (raisePrs .inputUnderrun s.ip s) := by
  simp only [prsStep, if_neg (not_le.2 h), hd]

theorem prsStep_decoded {s : State} {i : Instr} {r : Reader} (h : s.op.toNat < s.outLen.toNat)
    (hd : decodePrs (fetchPosition s) = .ok (i, r)) : prsStep s = exec i (advance r s) := by
  simp only [prsStep, if_neg (not_le.2 h), hd]

/-- Settles O6: a `wait` that passes moves no part of the fetch position. -/
theorem stepRunsPrsInstruction : Obligations.StepRunsPrsInstruction := by
  intro s i r hb hr ho hd
  rw [step_busy hb hr, prsStep_decoded (by simpa using ho) (by rwa [fetchPosition_dropWait]), advance, dropWait_ip]

/-- Settles O7: the code written is the one the command decodes from. -/
theorem stepRunsWrittenCommand : Obligations.StepRunsWrittenCommand := by
  intro s i v q hb hh hi
  rw [step_writeCmd hb hh, writeCmd, decodeCmd_of_encode hi]

/-- Settles O8: the first test of `PRS_Step`. -/
theorem fullOutputEndsRun : Obligations.FullOutputEndsRun := by
  intro s hb hr ho
  exact ⟨_, (step_busy hb hr).trans (prsStep_full (by simp [ho])), finishPrs_ended .full _⟩

/-- Settles O9: the decoder's failure is the engine's fault. -/
theorem exhaustedStreamFaults : Obligations.ExhaustedStreamFaults := by
  intro s e hb hr ho hd
  refine ⟨_, (step_busy hb hr).trans (prsStep_exhausted (e := e) (by simpa using ho) (by rwa [fetchPosition_dropWait])), ?_⟩
  rw [dropWait_ip]
  exact raisePrs_faulted _ _ _

/-- Settles O5: code 0 is the code of `NOP`. -/
theorem nopChangesNothing : Obligations.NopChangesNothing := by
  refine ⟨fun s => rfl, fun s v q hb hh hv => ?_⟩
  have hcode : (v.truncate 8 : Byte) = 0 := BitVec.eq_of_toNat_eq (by simpa using hv)
  exact stepRunsWrittenCommand s .nop v q hb hh (by rw [hcode]; rfl)

/-- Settles O30: the three branches of `beginPrsdec`. -/
theorem prsdecStartsEngine : Obligations.PrsdecStartsEngine := by
  intro s ha
  refine ⟨beginPrsdec s, congrArg Host.Outcome.next (whenAccepted_of_accepts _ ha), ?_⟩
  unfold beginPrsdec
  split_ifs
  · exact raisePrs_faulted _ _ s
  · exact raisePrs_faulted _ _ s
  · exact ⟨rfl, rfl, rfl, rfl, rfl, rfl, rfl, rfl⟩

/-- Settles O2: the fields by evaluation, the runs by `stepN_idle`. -/
theorem resetStateIsIdle : Obligations.ResetStateIsIdle :=
  ⟨by decide, fun _ n hb hh => stepN_idle hb hh n⟩

/-- Settles O3: at reset nothing runs and no key is valid. -/
theorem resetHasInvariants : Obligations.ResetHasInvariants :=
  ⟨reset_memoryOk, nofun, statusOk_of_reset rfl rfl rfl rfl, nofun⟩

/-! ### PRS instructions -/

/-- Settles O12: `Emit` at `op` and `wc`. -/
theorem literalEmitsItsByte : Obligations.LiteralEmitsItsByte := by
  intro d s ho
  have hlt := s.outLen.isLt
  refine ⟨emit d s, rfl, ?_, rfl, ?_, fun a ha => ?_, ?_, fun a ha => ?_, rfl⟩
  · exact (Emits.byte d .none).op_toNat (by omega)
  · rw [readOut_emit, if_pos rfl]
  · rw [readOut_emit, if_neg ha]
  · rw [readHist_emit, if_pos rfl]
  · rw [readHist_emit, if_neg ha]

/-- An instruction that is a copy from an offset of at most -1 copies back (41_prs_decoder R110, R113, R115). -/
theorem copiesBack_of_exec {i : Instr} {off : Int} {size : Nat} (hoff : off ≤ -1)
    (hexec : ∀ s, exec i s = .next (copy off size s)) : CopiesBack i off size := by
  intro s hh hc ho hd
  have hlt := s.outLen.isLt
  have hn : s.op.toNat + clampSize size s ≤ s.outLen.toNat := by
    have := clampSize_le size s
    omega
  obtain ⟨hhist, hcur, hop, hback, hkeep⟩ := copyBytes_output hh hc hoff hd (clampSize size s) (by omega)
  refine ⟨_, (hexec s).trans (by rw [copy_in_range hd]), hop, ?_, ?_, hhist, hcur, copyBytes_frame _ _ s⟩
  · rw [hop]
    exact hback
  · rw [hop]
    exact hkeep

/-- Settles O13: the form is a copy, and its size is the two bits' sum. -/
theorem shortCopiesBack : Obligations.ShortCopiesBack := by
  intro a b o
  have hsize : shortSize a b = 2 + (if a then 2 else 0) + (if b then 1 else 0) := by cases a <;> cases b <;> rfl
  exact hsize ▸ copiesBack_of_exec (shortOffset_le o) (exec_short a b o)

/-- The offset of the long forms from the bytes that spell it (30_encoding R67). -/
theorem longOffset_upper_bits (byte0 byte1 : Byte) :
    longOffset (byte0.extractLsb' 3 5) byte1 = (byte1.toNat * 32 + byte0.toNat / 8 : Nat) - 8192 := by
  rw [longOffset_eq, upper_bits]

/-- Settles O14: the form is a copy, its fields the bits of the two bytes. -/
theorem longShortSizeCopiesBack : Obligations.LongShortSizeCopiesBack := by
  intro byte0 byte1 _
  rw [← longOffset_upper_bits, ← lower_bits]
  exact copiesBack_of_exec (longOffset_le _ _) (exec_longS _ _ _)

/-- Settles O15: the form is a copy, its offset the bits of the first two bytes. -/
theorem longLongSizeCopiesBack : Obligations.LongLongSizeCopiesBack := by
  intro byte0 byte1 byte2 _ _
  rw [← longOffset_upper_bits]
  exact copiesBack_of_exec (longOffset_le _ _) (exec_longL _ _ _)

/-- Two latched control bits `0, 1` and two zero bytes spell `EOS` (30_encoding R65). -/
theorem decodePrs_eos {r : Reader} {rest : List Byte} (hbi : r.bi.val ≤ 6) (h0 : r.ctl.getLsbD r.bi.val = false)
    (h1 : r.ctl.getLsbD (r.bi.val + 1) = true) (hrest : r.rest = 0 :: 0 :: rest) :
    ∃ q, decodePrs r = .ok (.eos, q) ∧ q.used = r.used + 2 ∧ q.ctl = r.ctl ∧ q.bi.val = r.bi.val + 2 := by
  have hnext : (r.bi + 1).val = r.bi.val + 1 := Fin.val_add_one_of_lt (Fin.lt_def.2 (by simp; omega))
  have hnext2 : (r.bi + 1 + 1).val = r.bi.val + 2 := by
    rw [Fin.val_add_one_of_lt (Fin.lt_def.2 (by simp [hnext]; omega)), hnext]
  have hb0 : r.ctlBit = .ok (false, { r with bi := r.bi + 1 }) :=
    (ctlBit_latched (Fin.ne_of_val_ne (by simp; omega))).trans (by rw [Reader.deliver, h0])
  have hb1 : Reader.ctlBit { r with bi := r.bi + 1 } = .ok (true, { r with bi := r.bi + 1 + 1 }) :=
    (ctlBit_latched (Fin.ne_of_val_ne (by simp [hnext]; omega))).trans (by simp only [Reader.deliver, hnext, h1])
  have hlong : decodePrs r = decodeLong { r with bi := r.bi + 1 + 1 } := by
    simp only [decodePrs, hb0, hb1, bind, Except.bind, Bool.false_eq_true, if_false, if_true]
  refine ⟨{ r with rest := rest, used := r.used + 2, bi := r.bi + 1 + 1 }, ?_, rfl, rfl, hnext2⟩
  rw [hlong]
  simp only [decodeLong, Reader.fetch, hrest, bind, Except.bind, and_self, if_true]

/-- Settles O17: the decoded `EOS` is run past its two bytes. -/
theorem endOfStreamEndsRun : Obligations.EndOfStreamEndsRun := by
  refine ⟨fun s => ⟨_, rfl, finishPrs_ended .eos s⟩, fun s hb hr ho hip hbi h0 h1 hz0 hz1 => ?_⟩
  obtain ⟨n, hn⟩ : ∃ n, s.bufLen.toNat - s.ip.toNat = n + 2 := ⟨s.bufLen.toNat - s.ip.toNat - 2, by omega⟩
  have hrest : (fetchPosition s).rest = 0 :: 0 :: bytesFrom s n (s.ip.toNat + 2) := by
    simp only [fetchPosition, hn, bytesFrom, hz0, hz1]
  obtain ⟨q, hd, hused, hctl, hqbi⟩ := decodePrs_eos (r := fetchPosition s) hbi h0 h1 hrest
  refine ⟨_, stepRunsPrsInstruction s .eos q hb hr ho hd, rfl, rfl, ?_, hqbi, ?_⟩
  · have hlt := s.bufLen.isLt
    have hused : q.used = 2 := hused
    simp [hused]
    omega
  · have hctl : q.ctl = (dropWait s).ctl := hctl.trans (by rw [dropWait_eq]; rfl)
    rw [hctl]
    rfl

/-! ### A run ends -/

/-- A step of the engine ends the run where it stands, or emits a byte at least and keeps running. -/
theorem EngineStep.progress {s t : State} (he : EngineStep s t) (hb : s.st = .busy) :
    (t.st = .done ∨ t.st = .fault) ∧ t.op = s.op ∨
    t.st = .busy ∧ t.outLen = s.outLen ∧ t.host = (dropWait s).host ∧ s.op.toNat < t.op.toNat ∧
      t.op.toNat ≤ s.outLen.toNat := by
  cases he with
  | ended u hu e ht => exact .inl ⟨.inl (by rw [ht]; rfl), by rw [ht]; exact hu.op_eq⟩
  | faulted u hu c _ ht => exact .inl ⟨.inr (by rw [ht]; rfl), by rw [ht]; exact hu.op_eq⟩
  | emitted u hu n hpos hn ht =>
    have hlt := s.outLen.isLt
    have hop : t.op.toNat = s.op.toNat + n := by rw [ht.op_toNat (hu.op_eq ▸ by omega), hu.op_eq]
    refine .inr ⟨?_, ?_, ?_, by omega, by omega⟩
    · rw [ht.frame]
      exact hu.status.1.trans hb
    · rw [ht.frame, hu.frame]
    · rw [ht.frame]
      exact hu.host

/-- Settles O31: a step that does not end the run emits a byte, of which `OUT_LEN - op` are left. -/
theorem prsdecTerminates : Obligations.PrsdecTerminates := by
  intro s
  induction hleft : s.outLen.toNat - s.op.toNat using Nat.strong_induction_on generalizing s with
  | _ left ih =>
    subst hleft
    intro hb ho hr
    obtain ⟨t, ht⟩ := exists_step_busy hb
    have hnow : s.NotResetNow := fun h => hr (List.mem_of_mem_head? h)
    rcases (step_busy_cases hb hnow ht).progress hb with ⟨hst, hop⟩ | ⟨hst, hout, hhost, hlt, hle⟩
    · exact ⟨1, t, by omega, by simp only [stepN, ht], hst, hop ▸ ho⟩
    · obtain ⟨k, u, hk, hrun, hu⟩ := ih _ (by rw [hout]; omega) t rfl hst (hout ▸ hle)
        fun h => hr ((dropWait_host_sublist s).mem (hhost ▸ h))
      rw [hout] at hk hu
      exact ⟨k + 1, u, by omega, by simp only [stepN, ht, hrun], hu⟩

end Sys2Proof.Machine
end

section
/-! The buffer after the cipher commands (42_cipher R132, R135 to R137; 44_container_sequence R170, R171): the common frame runs the
body, and the passes of the body say what each byte becomes. -/

namespace Sys2Proof.Machine

/-! ### One command -/

/-- A command whose checks pass finishes with the buffer its body leaves. -/
theorem exec_finished {i : Instr} {κ : Type} {keyOperands : State → Except Trap κ} {lengthBad : State → Bool}
    {body : κ → State → State} {s : State} {k : κ}
    (hi : exec i s = .next (whenAccepted (cipherFrame keyOperands lengthBad body) s)) (ha : accepts s = true)
    (hb : s.bufLen.toNat ≤ Config.bufMax.toNat) (hk : keyOperands s = .ok k) (hl : lengthBad s = false)
    (hf : ∀ s, body k s = { s with buf := (body k s).buf }) :
    exec i s = .next (s.finished (body k (beginCommand s)).buf) :=
  hi.trans (congrArg Host.Outcome.next (cipherCommand_finished ha hb hk hl hf))

/-- The same, with what the host then reads. -/
theorem exists_exec_finished {i : Instr} {κ : Type} {keyOperands : State → Except Trap κ} {lengthBad : State → Bool}
    {body : κ → State → State} {s : State} {k : κ}
    (hi : exec i s = .next (whenAccepted (cipherFrame keyOperands lengthBad body) s)) (ha : accepts s = true)
    (hb : s.bufLen.toNat ≤ Config.bufMax.toNat) (hk : keyOperands s = .ok k) (hl : lengthBad s = false)
    (hf : ∀ s, body k s = { s with buf := (body k s).buf }) :
    ∃ t, exec i s = .next t ∧ t = s.finished t.buf ∧ ∀ a, readBuf t a = readBuf (body k (beginCommand s)) a := by
  have hm : (body k (beginCommand s)).memEpoch = s.memEpoch := by
    rw [hf]
    rfl
  exact ⟨_, exec_finished hi ha hb hk hl hf, rfl, readBuf_finished hm⟩

theorem blockBody_beginCommand (key : Word) (s : State) :
    blockBody key (beginCommand s) = blockPass (Config.bcDec key) (s.bufLen.toNat / 8) (beginCommand s) := rfl

theorem readBuf_beginCommand (s : State) (a : Nat) : readBuf (beginCommand s) a = readBuf s a := rfl

theorem readBlock_beginCommand (s : State) (i : Nat) : readBlock (beginCommand s) i = readBlock s i := rfl

/-- A byte of a block a pass has mapped (42_cipher R137). -/
theorem readBuf_blockPass (f : Block → Block) {n i : Nat} (hi : i < n) (s : State) (j : Fin 8) :
    readBuf (blockPass f n s) (8 * i + j.val) = f (readBlock s i) j := by
  have h := congrFun (readBlock_blockPass f n s i) j
  rwa [if_pos hi] at h

/-- Settles O34: the XOR pass over the buffer's length. -/
theorem xorpassDecryptsEachByte : Obligations.XorpassDecryptsEachByte := by
  intro s key ha hb hsel
  obtain ⟨t, ht, hfin, hread⟩ := exists_exec_finished (i := .xorpass) rfl ha hb (selKey_ok hsel) rfl (xorBody_frame key)
  refine ⟨t, ht, hfin, fun a hlt => ?_, fun a hle => ?_⟩
  · rw [hread, xorBody, readBuf_xorPass]
    exact if_pos hlt
  · rw [hread, xorBody, readBuf_xorPass]
    exact if_neg (not_lt.2 hle)

/-- What the commands that run one block pass leave (42_cipher R135, R136). -/
theorem blockCommand_outcome {i : Instr} {lengthBad : State → Bool} {s : State} {key : Word}
    (hi : exec i s = .next (whenAccepted (cipherFrame selKey lengthBad blockBody) s)) (ha : accepts s = true)
    (hb : s.bufLen.toNat ≤ Config.bufMax.toNat) (hsel : s.Selects key) (hl : lengthBad s = false) :
    ∃ t, exec i s = .next t ∧ t = s.finished t.buf ∧
      (∀ (k : Nat) (j : Fin 8), k < s.bufLen.toNat / 8 → readBuf t (8 * k + j.val) = Config.bcDec key (readBlock s k) j) ∧
      (∀ a, 8 * (s.bufLen.toNat / 8) ≤ a → readBuf t a = readBuf s a) := by
  obtain ⟨t, ht, hfin, hread⟩ := exists_exec_finished hi ha hb (selKey_ok hsel) hl (blockBody_frame key)
  refine ⟨t, ht, hfin, fun k j hk => ?_, fun a hle => ?_⟩
  · rw [hread, blockBody_beginCommand, readBuf_blockPass _ hk, readBlock_beginCommand]
  · rw [hread, blockBody_beginCommand, readBuf_blockPass_above _ _ _ _ hle, readBuf_beginCommand]

/-- Settles O36: a block pass over the whole blocks. -/
theorem compatibilityModeKeepsTail : Obligations.CompatibilityModeKeepsTail :=
  fun _ _ ha hb hsel => blockCommand_outcome rfl ha hb hsel rfl

/-- Settles O35: on a multiple of 8 every byte lies in a whole block. -/
theorem standardModeDecryptsBlocks : Obligations.StandardModeDecryptsBlocks := by
  intro s key ha hb hsel h8
  obtain ⟨t, ht, hfin, hblocks, habove⟩ :=
    blockCommand_outcome (i := .bcdecStd) rfl ha hb hsel (by simp [notWholeBlocks, h8])
  exact ⟨t, ht, hfin, fun i j hlt => hblocks i j (by omega), fun a hle => habove a (by omega)⟩

/-- Settles O38: a block pass over six blocks, or the capacity check. -/
theorem headerDecryptBlocks : Obligations.HeaderDecryptBlocks := by
  intro s ha hv h48
  by_cases hcap : Config.bufMax.toNat < 48
  · refine ⟨_, rfl, ?_⟩
    rw [if_pos hcap]
    exact cipherCommand_overCapacity ha (h48 ▸ hcap)
  · obtain ⟨t, ht, hfin, hread⟩ := exists_exec_finished (i := .hdrdec) rfl ha (by omega) (headerKey_ok hv)
      (by simp [headerLengthBad, h48]) (headerBody_frame s.keys.kh)
    refine ⟨t, ht, ?_⟩
    rw [if_neg hcap]
    refine ⟨hfin, fun i j hi => ?_, fun a hle => ?_⟩
    · rw [hread, headerBody_eq, readBuf_blockPass _ hi, readBlock_beginCommand]
      rfl
    · rw [hread, headerBody_eq, readBuf_blockPass_above _ _ _ _ hle, readBuf_beginCommand]

/-! ### `GRPDEC` -/

/-- A whole block behind the XOR pass. -/
theorem readBlock_xorPass (kb : Byte) {n i : Nat} (h : 8 * i + 8 ≤ n) (s : State) :
    readBlock (xorPass kb n s) i = fun k => xorDec kb (readBuf s (8 * i + k.val)) := by
  funext k
  rw [readBlock, readBuf_xorPass, if_pos (by omega)]

/-- On an empty buffer the passes do nothing, so the body is the passes for every length. -/
theorem groupBody_eq_groupPasses (k : Word × Word) (s : State) : groupBody k s = groupPasses Config.bcDec k s := by
  unfold groupBody
  split_ifs with h
  · rfl
  · have h0 : s.bufLen.toNat = 0 := by omega
    rw [groupPasses_short (by omega), wholeBlocks, h0]
    rfl

/-- The blocks behind the passes of `GRPDEC` (44_container_sequence R170). -/
theorem readBuf_groupPasses_block (bc : Word → Block → Block) (k1 k2 : Word) {s : State} {i : Nat}
    (hi : i < s.bufLen.toNat / 8) (j : Fin 8) :
    readBuf (groupPasses bc (k1, k2) s) (8 * i + j.val) =
      if s.bufLen.toNat ≤ 102400
      then bc k2 (bc k1 fun k => xorDec (xorKeyByte k1 16) (readBuf s (8 * i + k.val))) j
      else bc k1 (fun k => xorDec (xorKeyByte k1 16) (readBuf s (8 * i + k.val))) j := by
  have hw : i < wholeBlocks s := hi
  have hx := readBlock_xorPass (xorKeyByte k1 16) (n := s.bufLen.toNat) (i := i) (by omega) s
  split_ifs with hlen
  · rw [groupPasses_short hlen, readBuf_blockPass _ hw, readBlock_blockPass, if_pos hw, hx]
  · rw [groupPasses_long hlen, readBuf_blockPass _ hw, hx]

/-- Bytes behind the last whole block see the XOR pass only (44_container_sequence R170). -/
theorem readBuf_groupPasses_above (bc : Word → Block → Block) (k1 k2 : Word) {s : State} {a : Nat}
    (ha : 8 * (s.bufLen.toNat / 8) ≤ a) :
    readBuf (groupPasses bc (k1, k2) s) a =
      if a < s.bufLen.toNat then xorDec (xorKeyByte k1 16) (readBuf s a) else readBuf s a := by
  have hw : 8 * wholeBlocks s ≤ a := ha
  by_cases hlen : s.bufLen.toNat ≤ 102400
  · rw [groupPasses_short hlen, readBuf_blockPass_above _ _ _ _ hw, readBuf_blockPass_above _ _ _ _ hw, readBuf_xorPass]
  · rw [groupPasses_long hlen, readBuf_blockPass_above _ _ _ _ hw, readBuf_xorPass]

theorem groupLengthBad_eq_false {s : State} (h : s.bufLen.toNat % 8 = 0 ∨ 102400 < s.bufLen.toNat) : groupLengthBad s = false :=
  eq_false_of_ne_true fun hbad => by
    obtain ⟨-, hle, hne⟩ := (groupLengthBad_iff s).1 hbad
    omega

/-- Settles O37: each byte through the passes, by where it lies. -/
theorem groupDecryptPasses : Obligations.GroupDecryptPasses := by
  intro s ha hb hv hlen
  obtain ⟨t, ht, hfin, hread⟩ := exists_exec_finished (i := .grpdec) rfl ha hb (groupKeys_ok hv)
    (groupLengthBad_eq_false hlen) (groupBody_frame _)
  have hpasses : ∀ a, readBuf t a = readBuf (groupPasses Config.bcDec _ (beginCommand s)) a :=
    fun a => (hread a).trans (by rw [groupBody_eq_groupPasses])
  refine ⟨t, ht, hfin, fun i j hi => ?_, fun a hle hlt => ?_, fun a hle => ?_⟩
  · rw [hpasses, readBuf_groupPasses_block (s := beginCommand s) _ _ _ hi]
    rfl
  · rw [hpasses, readBuf_groupPasses_above (s := beginCommand s) _ _ _ hle]
    exact if_pos hlt
  · have hbehind : 8 * (s.bufLen.toNat / 8) ≤ a := by omega
    rw [hpasses, readBuf_groupPasses_above (s := beginCommand s) _ _ _ hbehind]
    exact if_neg (not_lt.2 hle)

/-! ### Commands that agree -/

theorem cipherFrame_congr {κ : Type} {ko ko' : State → Except Trap κ} {lb lb' : State → Bool}
    {body body' : κ → State → State} {s : State} (hk : ko s = ko' s) (hl : lb s = lb' s)
    (hbody : ∀ k, body k (beginCommand s) = body' k (beginCommand s)) :
    cipherFrame ko lb body s = cipherFrame ko' lb' body' s := by
  simp only [cipherFrame, hk, hl, hbody]

theorem selKey_zero {s : State} (h : s.ksel = 0) : selKey s = headerKey s := by
  cases hv : s.kvalid with
  | false => rw [selKey_keyInvalid (by simp [h]) hv, headerKey_keyInvalid hv, h]; rfl
  | true => rw [selKey_ok (.inl ⟨hv, .inl ⟨h, rfl⟩⟩), headerKey_ok hv]

/-- Settles O39: the frames agree on the key, the length check and the pass. -/
theorem headerAndModesAgree : Obligations.HeaderAndModesAgree := by
  intro s ha
  refine ⟨fun hsel h48 => ?_, fun h8 => ?_⟩
  · have hbody : ∀ k, headerBody k (beginCommand s) = blockBody k (beginCommand s) := by
      intro k
      have hw : wholeBlocks (beginCommand s) = 6 := by simp [wholeBlocks, h48]
      rw [headerBody_eq, blockBody, hw]
    have hframe : cipherFrame headerKey headerLengthBad headerBody s = cipherFrame selKey notWholeBlocks blockBody s :=
      cipherFrame_congr (selKey_zero hsel).symm (by simp [headerLengthBad, notWholeBlocks, h48]) hbody
    simp only [exec, execHdrdec, execBcdecStd, whenAccepted_of_accepts _ ha, hframe]
  · have hframe : cipherFrame selKey anyLength blockBody s = cipherFrame selKey notWholeBlocks blockBody s :=
      cipherFrame_congr rfl (by simp [anyLength, notWholeBlocks, h8]) fun _ => rfl
    simp only [exec, execBcdecCmp, execBcdecStd, whenAccepted_of_accepts _ ha, hframe]

/-- What a pass leaves in `BUF` depends on what the host could read there and on nothing else. -/
theorem xorPass_buf_congr (kb : Byte) (n : Nat) {s s' : State} (hb : s.buf = s'.buf) (he : s.memEpoch = s'.memEpoch) :
    (xorPass kb n s).buf = (xorPass kb n s').buf := by
  induction n with
  | zero => exact hb
  | succ n ih =>
    have hm : (xorPass kb n s).memEpoch = (xorPass kb n s').memEpoch := by rw [xorPass_frame, xorPass_frame kb n s', he]
    simp only [xorPass, writeBuf_buf, readBuf, ih, hm]

theorem blockPass_buf_congr (f : Block → Block) (n : Nat) {s s' : State} (hb : s.buf = s'.buf) (he : s.memEpoch = s'.memEpoch) :
    (blockPass f n s).buf = (blockPass f n s').buf := by
  induction n with
  | zero => exact hb
  | succ n ih =>
    have hm : (blockPass f n s).memEpoch = (blockPass f n s').memEpoch := by rw [blockPass_frame, blockPass_frame f n s', he]
    have hr : readBlock (blockPass f n s) n = readBlock (blockPass f n s') n := by
      funext j
      simp only [readBlock, readBuf, ih, hm]
    simp only [blockPass, writeBlock_buf, ih, hr]

/-- Settles O40: the three commands run the three passes of `GRPDEC`, each on the buffer the one before it left. -/
theorem groupDecryptIsPrimitiveChain : Obligations.GroupDecryptIsPrimitiveChain := by
  intro s ha hv hb h8 hle
  have hsel1 : State.Selects { s with ksel := if s.gsel = 0 then 1 else 3 } (if s.gsel = 0 then s.keys.k1a else s.keys.k2a) := by
    split_ifs <;> simp [State.Selects, hv]
  have hsel2 : State.Selects { s with ksel := if s.gsel = 0 then 2 else 4 } (if s.gsel = 0 then s.keys.k1b else s.keys.k2b) := by
    split_ifs <;> simp [State.Selects, hv]
  have hgroup := exec_finished (i := .grpdec) rfl ha hb (groupKeys_ok hv) (groupLengthBad_eq_false (.inl h8)) (groupBody_frame _)
  rw [groupBody_eq_groupPasses, groupPasses_short (s := beginCommand s) hle] at hgroup
  have hwhole : (s.bufLen.toNat % 8 != 0) = false := by simp [h8]
  refine ⟨_, _, _, exec_finished (i := .xorpass) rfl ha hb (selKey_ok hsel1) rfl (xorBody_frame _),
    exec_finished (i := .bcdecCmp) rfl rfl hb (selKey_ok hsel1) rfl (blockBody_frame _),
    exec_finished (i := .bcdecStd) rfl rfl hb (selKey_ok hsel2) hwhole (blockBody_frame _), ?_⟩
  refine hgroup.trans (congrArg (fun b => Host.Outcome.next (s.finished b)) ?_)
  refine blockPass_buf_congr _ _ (blockPass_buf_congr _ _ (xorPass_buf_congr _ _ rfl rfl) ?_) ?_
  · rw [xorPass_frame]
    rfl
  · rw [blockPass_frame, xorPass_frame]
    rfl

end Sys2Proof.Machine
end

section
/-! Key derivation's inputs and its CRC (43_key_derivation R150, R160). The bit step is linear over XOR, so of eight steps the lower
byte goes through the table and the rest is shifted. -/

namespace Sys2Proof.Machine

/-- Settles O45: the derivation is applied to the entropy block and `KD_SIZE`, which are the same. -/
theorem keysArePureFunction : Obligations.KeysArePureFunction := by
  intro s s' t t' ha ha' hsize hent h h'
  have he : entropy s = entropy s' := funext fun i => hent i.val i.isLt
  rw [← Host.Outcome.next.inj ((exec_kderive ha).symm.trans h), ← Host.Outcome.next.inj ((exec_kderive ha').symm.trans h')]
  refine ⟨?_, rfl⟩
  show deriveKeys kdConfig (entropy s) s.kdSize = deriveKeys kdConfig (entropy s') s'.kdSize
  rw [he, hsize]

theorem crcBit_xor (x y : Word) : crcBit (x ^^^ y) = crcBit x ^^^ crcBit y := by
  have hswap : ∀ a b p q : Word, (a ^^^ p) ^^^ (b ^^^ q) = (a ^^^ b) ^^^ (p ^^^ q) := by
    intros
    ac_rfl
  simp only [crcBit, BitVec.ushiftRight_xor_distrib, BitVec.getLsbD_xor, hswap]
  congr 1
  cases x.getLsbD 0 <;> cases y.getLsbD 0 <;> rfl

theorem crcBit_of_even {x : Word} (h : x.getLsbD 0 = false) : crcBit x = x >>> 1 := by
  rw [crcBit, h]
  exact BitVec.xor_zero

theorem crcBit_iterate_xor (n : Nat) (x y : Word) : crcBit^[n] (x ^^^ y) = crcBit^[n] x ^^^ crcBit^[n] y := by
  induction n with
  | zero => rfl
  | succ n ih => simp only [Function.iterate_succ_apply', ih, crcBit_xor]

/-- As many steps as there are zero bits below only shift. -/
theorem crcBit_iterate_of_low_zero {x : Word} {n : Nat} (h : ∀ i, i < n → x.getLsbD i = false) : crcBit^[n] x = x >>> n := by
  induction n with
  | zero => simp
  | succ n ih =>
    have hbit : (x >>> n).getLsbD 0 = false := by rw [BitVec.getLsbD_ushiftRight]; exact h n (by omega)
    rw [Function.iterate_succ_apply', ih fun i hi => h i (by omega), crcBit_of_even hbit, BitVec.shiftRight_add]

/-- XOR with its own lower byte clears the lower byte of a word. -/
theorem getLsbD_xor_lower (w : Word) {i : Nat} (h : i < 8) : (w ^^^ (w &&& 0xFF)).getLsbD i = false := by
  have hff : ∀ j, j < 8 → (0xFF : Word).getLsbD j = true := by decide
  rw [BitVec.getLsbD_xor, BitVec.getLsbD_and, hff i h, Bool.and_true, Bool.xor_self]

/-- One byte of the CRC by the reflected table, whose entries are the eight bit steps of a byte (43_key_derivation R150). -/
theorem crcByte_table (c : Word) (b : Byte) : crcByte c b = (c >>> 8) ^^^ crcBit^[8] ((c ^^^ b.zeroExtend 32) &&& 0xFF) := by
  have hb : (b.zeroExtend 32 : Word) >>> 8 = 0 := by
    refine BitVec.eq_of_toNat_eq ?_
    have := b.isLt
    simp [Nat.shiftRight_eq_div_pow]
    omega
  have hff : (0xFF : Word) >>> 8 = 0 := by decide
  set w := c ^^^ b.zeroExtend 32 with hw
  have hupper : (w ^^^ (w &&& 0xFF)) >>> 8 = c >>> 8 := by
    rw [BitVec.ushiftRight_xor_distrib, BitVec.ushiftRight_and_distrib, hff, hw, BitVec.ushiftRight_xor_distrib, hb]
    simp
  calc crcByte c b = crcBit^[8] ((w ^^^ (w &&& 0xFF)) ^^^ (w &&& 0xFF)) := by
        rw [BitVec.xor_assoc, BitVec.xor_self, BitVec.xor_zero]; rfl
    _ = (c >>> 8) ^^^ crcBit^[8] (w &&& 0xFF) := by
        rw [crcBit_iterate_xor, crcBit_iterate_of_low_zero fun i => getLsbD_xor_lower w, hupper]

/-- Settles O46: the table form is the linearity of the bit step; the check values are two closed runs. -/
theorem crcTableForm : Obligations.CrcTableForm :=
  ⟨fun _ => rfl, fun _ => rfl, crcByte_table, by decide +kernel, by decide +kernel⟩

end Sys2Proof.Machine
end

section
/-! The host's side (10_state R22 to R26; 20_memory R40, R47; 60_exceptions R211): the register map, the status register and the
byte accesses. -/

namespace Sys2Proof.Machine

theorem truncate_eq_ofNat_mod (v : Word) (n : Nat) : v.truncate n = BitVec.ofNat n (v.toNat % 2 ^ n) := by
  refine BitVec.eq_of_toNat_eq ?_
  simp

/-- What a write of a register number does to the operand registers (10_state R22). -/
theorem writeOperand_eq (reg : Nat) (v : Word) (s : State) :
    writeOperand reg v s = { s with
      bufLen := if reg = 0x04 then v else s.bufLen
      outLen := if reg = 0x05 then v else s.outLen
      ksel := if reg = 0x08 then BitVec.ofNat 3 (v.toNat % 8) else s.ksel
      keyimm := if reg = 0x09 then v else s.keyimm
      shift := if reg = 0x0A then BitVec.ofNat 5 (v.toNat % 32) else s.shift
      kdSize := if reg = 0x0B then v else s.kdSize
      gsel := if reg = 0x0C then BitVec.ofNat 1 (v.toNat % 2) else s.gsel } := by
  have h3 := truncate_eq_ofNat_mod v 3
  have h5 := truncate_eq_ofNat_mod v 5
  have h1 := truncate_eq_ofNat_mod v 1
  unfold writeOperand
  split <;> simp_all

/-- Settles O50: where writes are accepted the step is `writeOperand`. -/
theorem operandWritesAreTruncated : Obligations.OperandWritesAreTruncated := by
  intro s reg v q hb hh hreg
  refine ⟨whenAccepted (writeOperand reg v) { s with host := q }, (step_quiet hb hh).trans (if_neg hreg), ?_⟩
  by_cases hf : s.st = .fault
  · rw [if_pos hf]
    exact whenAccepted_fault _ hf
  · rw [if_neg hf, whenAccepted_of_accepts _ (accepts_of_not_busy_not_fault (s := { s with host := q }) hb hf), writeOperand_eq]

/-- `STATUS` as a number (10_state R23). -/
theorem statusReg_toNat (s : State) :
    (statusReg s).toNat = s.kvalid.toNat * 16 + (s.ending.code.toNat * 4 + s.st.code.toNat) := by
  simp only [statusReg, toNat_append_eq_add, BitVec.toNat_ofBool]
  simp

/-- Settles O51: the fields of the number are its base-4 digits. -/
theorem statusLayout : Obligations.StatusLayout := by
  intro s
  have hnum := statusReg_toNat s
  have hst := s.st.code.isLt
  have hend := s.ending.code.isLt
  have hstate : (statusReg s).toNat % 4 = s.st.code.toNat := by omega
  have hending : (statusReg s).toNat / 4 % 4 = s.ending.code.toNat := by omega
  have hvalid : (statusReg s).toNat / 16 = s.kvalid.toNat := by omega
  rw [hstate, hending, hvalid]
  refine ⟨?_, ?_, ?_, ?_, ?_⟩
  · cases s.st <;> rfl
  · cases s.ending <;> rfl
  · cases s.kvalid <;> rfl
  · cases h : s.st <;> simp [doneLine, h, CoreState.code]
  · cases h : s.st <;> simp [faultLine, h, CoreState.code]

/-- What a register that is not a key register reads as, or any of them while the keys are valid (10_state R22 to R26). -/
theorem readReg_eq (reg : Nat) (s : State) :
    readReg reg s =
        if reg = 0x01 then BitVec.ofNat 32 (statusReg s).toNat
        else if reg = 0x02 then BitVec.ofNat 32 s.cause.code.toNat
        else if reg = 0x03 then s.faddr
        else if reg = 0x04 then s.bufLen
        else if reg = 0x05 then s.outLen
        else if reg = 0x06 then s.ip
        else if reg = 0x07 then s.op
        else if reg = 0x08 then BitVec.ofNat 32 s.ksel.toNat
        else if reg = 0x09 then s.keyimm
        else if reg = 0x0A then BitVec.ofNat 32 s.shift.toNat
        else if reg = 0x0B then s.kdSize
        else if reg = 0x0C then BitVec.ofNat 32 s.gsel.toNat
        else if reg = 0x10 then s.keys.kh
        else if reg = 0x11 then s.keys.k1a
        else if reg = 0x12 then s.keys.k1b
        else if reg = 0x13 then s.keys.k2a
        else if reg = 0x14 then s.keys.k2b
        else 0 := by
  unfold readReg
  split <;> simp_all

theorem hostReadReg_of_valid {reg : Nat} {s : State} (h : reg < 0x10 ∨ 0x14 < reg ∨ s.kvalid = true) :
    hostReadReg reg s = { s with hostData := readReg reg s } := by
  refine if_neg ?_
  simp only [isKeyReg, Bool.and_eq_true, decide_eq_true_eq, Bool.not_eq_true']
  rintro ⟨⟨h1, h2⟩, hv⟩
  simp [hv] at h
  omega

/-- Settles O52: the access is a read of the register map, since no key register is hidden. -/
theorem registerReads : Obligations.RegisterReads := by
  intro s reg q hb hh hreg
  refine (step_quiet hb hh).trans (congrArg Host.Outcome.next ?_)
  rw [hostReadReg_of_valid (s := { s with host := q }) hreg, readReg_eq]
  rfl

/-! ### Byte accesses -/

/-- Any byte of the buffers after a write (20_memory R40). -/
theorem readByte_writeByte (k m : HostMem) (x a : Nat) (b : Byte) (s : State) :
    readByte k x (writeByte m a b s) = if k = m ∧ x = a then b else readByte k x s := by
  cases k <;> cases m <;> simp [readByte, writeByte, readBuf, readOut, readEnt, Memory.read_set]

@[simp] theorem writeByte_st (m : HostMem) (a : Nat) (b : Byte) (s : State) : (writeByte m a b s).st = s.st := by
  rw [writeByte_frame]

@[simp] theorem writeByte_host (m : HostMem) (a : Nat) (b : Byte) (s : State) : (writeByte m a b s).host = s.host := by
  rw [writeByte_frame]

/-- Equal buffers read alike, whatever the host's side holds. -/
theorem readByte_congr {s t : State} (hb : t.buf = s.buf) (ho : t.out = s.out) (he : t.ent = s.ent) (hm : t.memEpoch = s.memEpoch)
    (k : HostMem) (x : Nat) : readByte k x t = readByte k x s := by
  cases k <;> simp only [readByte, readBuf, readOut, readEnt, hb, ho, he, hm]

theorem step_writeByte {s : State} {m : HostMem} {a : Nat} {b : Byte} {q : List HostOp} (ha : accepts s = true)
    (hc : a < capacity m) (hh : s.host = .writeByte m a b :: q) : step s = .next (writeByte m a b { s with host := q }) := by
  rw [step_quiet (not_busy_of_accepts ha) hh]
  simp only [hostMove, hostWriteByte, if_neg (not_le.2 hc)]
  exact if_pos ha

theorem step_readByte {s : State} {m : HostMem} {a : Nat} {q : List HostOp} (hb : s.st ≠ .busy) (hc : a < capacity m)
    (hh : s.host = .readByte m a :: q) :
    step s = .next { s with host := q, hostData := (readByte m a s).zeroExtend 32 } := by
  have hsame : readByte m a { s with host := q } = readByte m a s := readByte_congr rfl rfl rfl rfl m a
  rw [step_quiet hb hh]
  simp only [hostMove, hostReadByte, if_neg (not_le.2 hc), hsame]

theorem stepN_two {s t u : State} (h : step s = .next t) (h' : step t = .next u) : stepN 2 s = .next u := by
  simp only [stepN, h, h']

/-- Settles O53: one step writes the byte, the next one reads it. -/
theorem hostReadsWhatItWrote : Obligations.HostReadsWhatItWrote := by
  intro s m a b q ha hc hh
  have hread := step_readByte (s := writeByte m a b { s with host := .readByte m a :: q }) (q := q)
    (by simpa using not_busy_of_accepts ha) hc (writeByte_host m a b _)
  refine ⟨_, stepN_two (step_writeByte ha hc hh) hread, ?_, rfl, fun k x hne => ?_⟩
  · simp only [readByte_writeByte, and_self, if_true]
    exact BitVec.toNat_setWidth_of_le (by decide)
  · have hkept : readByte k x (writeByte m a b { s with host := .readByte m a :: q }) = readByte k x s := by
      rw [readByte_writeByte, if_neg hne]
      exact readByte_congr rfl rfl rfl rfl k x
    exact (readByte_congr rfl rfl rfl rfl k x).trans hkept

end Sys2Proof.Machine
end

section
/-! Range alignment (40_range_algebra R93). Cutting keeps a side a tiling of its range and never brings a part across a position
that no part crossed; the two sides being one refinement moved to each start gives the rest. -/

namespace Sys2Proof.Machine

/-! ### Tilings -/

/-- The parts of a side, in order and without a gap, from `lo` up to `hi`. -/
def Tiles : Int → Int → List Range → Prop
  | lo, hi, [] => lo = hi + 1
  | lo, hi, r :: rs => r.start = lo ∧ lo ≤ r.stop ∧ Tiles (r.stop + 1) hi rs

theorem tiles_single {lo hi : Int} (h : lo ≤ hi) : Tiles lo hi [⟨lo, hi⟩] := ⟨rfl, h, rfl⟩

theorem Tiles.cutBefore {lo hi : Int} {side : List Range} (h : Tiles lo hi side) (p : Int) : Tiles lo hi (cutBefore p side) := by
  induction side generalizing lo with
  | nil => exact h
  | cons r rs ih =>
    obtain ⟨hstart, hle, hrs⟩ := h
    by_cases hp : r.start < p ∧ p ≤ r.stop
    · rw [cutBefore_cons_inside hp]
      refine ⟨hstart, by simp only; omega, by simp, by simp only; omega, ih hrs⟩
    · rw [cutBefore_cons_outside hp]
      exact ⟨hstart, hle, ih hrs⟩

theorem Tiles.shiftSide {lo hi : Int} {side : List Range} (h : Tiles lo hi side) (d : Int) :
    Tiles (lo + d) (hi + d) (shiftSide d side) := by
  induction side generalizing lo with
  | nil =>
    have h : lo = hi + 1 := h
    show lo + d = hi + d + 1
    omega
  | cons r rs ih =>
    obtain ⟨hstart, hle, hrs⟩ := h
    have hrs := ih hrs
    rw [show r.stop + 1 + d = r.stop + d + 1 by omega] at hrs
    exact ⟨by simp only; omega, by simp only; omega, hrs⟩

/-- A position at or before a tiling cuts nothing. -/
theorem Tiles.cutBefore_of_le {lo hi p : Int} {side : List Range} (h : Tiles lo hi side) (hp : p ≤ lo) :
    Machine.cutBefore p side = side := by
  induction side generalizing lo with
  | nil => rfl
  | cons r rs ih =>
    obtain ⟨hstart, hle, hrs⟩ := h
    rw [cutBefore_cons_outside (by omega), ih hrs (by omega)]

/-- A cut adds a part at most. -/
theorem Tiles.length_cutBefore {lo hi : Int} {side : List Range} (h : Tiles lo hi side) (p : Int) :
    (Machine.cutBefore p side).length ≤ side.length + 1 := by
  induction side generalizing lo with
  | nil => exact Nat.zero_le _
  | cons r rs ih =>
    obtain ⟨hstart, hle, hrs⟩ := h
    by_cases hp : r.start < p ∧ p ≤ r.stop
    · rw [cutBefore_cons_inside hp, hrs.cutBefore_of_le (by omega)]
      rfl
    · rw [cutBefore_cons_outside hp]
      exact Nat.succ_le_succ (ih hrs)

theorem Tiles.ne_nil {lo hi : Int} {side : List Range} (h : Tiles lo hi side) (hle : lo ≤ hi) : side ≠ [] := by
  rintro rfl
  have h : lo = hi + 1 := h
  omega

/-- What R93 says of one side: its parts are no ranges turned round, they follow each other, and they reach from end to end. -/
theorem Tiles.partition {lo hi : Int} {side : List Range} (h : Tiles lo hi side) (hne : side ≠ []) :
    (∀ r ∈ side, r.start ≤ r.stop) ∧ side.head?.map Range.start = some lo ∧ side.getLast?.map Range.stop = some hi ∧
      side.IsChain (fun a b => b.start = a.stop + 1) := by
  induction side generalizing lo with
  | nil => exact absurd rfl hne
  | cons r rs ih =>
    obtain ⟨hstart, hstop, hrs⟩ := h
    have hr : r.start ≤ r.stop := by omega
    cases rs with
    | nil =>
      have hlast : r.stop + 1 = hi + 1 := hrs
      exact ⟨by simpa using hr, by simp [hstart], by simp; omega, List.IsChain.singleton r⟩
    | cons r' rs =>
      obtain ⟨hle, -, hlast, hchain⟩ := ih hrs (List.cons_ne_nil r' rs)
      refine ⟨List.forall_mem_cons.2 ⟨hr, hle⟩, by simp [hstart], ?_, List.IsChain.cons_cons hrs.1 hchain⟩
      rwa [List.getLast?_cons_cons]

/-! ### Parts across a position -/

/-- No part of a side reaches across a position. -/
def Uncrossed (x : Int) (side : List Range) : Prop := ∀ r ∈ side, ¬(r.start < x ∧ x ≤ r.stop)

theorem mem_cutBefore {p : Int} {side : List Range} {r : Range} (h : r ∈ cutBefore p side) :
    (∃ r' ∈ side, r'.start ≤ r.start ∧ r.stop ≤ r'.stop) ∧ ¬(r.start < p ∧ p ≤ r.stop) := by
  obtain ⟨r', hr', h⟩ := List.mem_flatMap.1 h
  split_ifs at h with hp
  · simp only [List.mem_cons, List.not_mem_nil, or_false] at h
    rcases h with rfl | rfl
    · exact ⟨⟨r', hr', le_rfl, by simp only; omega⟩, by simp only; omega⟩
    · exact ⟨⟨r', hr', by simp only; omega, le_rfl⟩, by simp only; omega⟩
  · obtain rfl := List.mem_singleton.1 h
    exact ⟨⟨r, hr', le_rfl, le_rfl⟩, hp⟩

theorem uncrossed_cutBefore (p : Int) (side : List Range) : Uncrossed p (cutBefore p side) := fun _ hr => (mem_cutBefore hr).2

theorem Uncrossed.cutBefore {x : Int} {side : List Range} (h : Uncrossed x side) (p : Int) : Uncrossed x (cutBefore p side) := by
  intro r hr
  obtain ⟨⟨r', hr', hstart, hstop⟩, -⟩ := mem_cutBefore hr
  have := h r' hr'
  omega

theorem Uncrossed.shiftSide {x : Int} {side : List Range} (h : Uncrossed x side) (d : Int) :
    Uncrossed (x + d) (shiftSide d side) := by
  intro r hr
  obtain ⟨r', hr', rfl⟩ := List.mem_map.1 hr
  have := h r' hr'
  simp only
  omega

/-- The same for the two sides, each with its position. -/
def BothUncrossed (x y : Int) (sides : List Range × List Range) : Prop := Uncrossed x sides.1 ∧ Uncrossed y sides.2

theorem splitAt_uncrossed {x lo hi : Int} {side side' : List Range} (h : Uncrossed x side) (hs : splitAt side lo hi = some side') :
    Uncrossed x side' := by
  unfold Machine.splitAt at hs
  simp only at hs
  split_ifs at hs
  exact Option.some.inj hs ▸ (h.cutBefore lo).cutBefore (hi + 1)

theorem splitBoth_uncrossed {x y : Int} {a b : Range} {sides sides' : List Range × List Range} (h : BothUncrossed x y sides)
    (hs : splitBoth a b sides = some sides') : BothUncrossed x y sides' := by
  obtain ⟨hx, hy⟩ := h
  unfold splitBoth at hs
  split_ifs at hs
  · simp only at hs
    split at hs
    · rename_i S D hS hD
      cases hs
      exact ⟨splitAt_uncrossed hx hS, splitAt_uncrossed hy hD⟩
    · exact nomatch hs
  · cases hs
    exact ⟨hx, hy⟩

theorem splitSelfOverlap_uncrossed {x y : Int} {sides sides' : List Range × List Range} (h : BothUncrossed x y sides)
    (hs : splitSelfOverlap sides = some sides') : BothUncrossed x y sides' := by
  unfold splitSelfOverlap at hs
  split at hs
  · exact splitBoth_uncrossed h hs
  · exact Option.some.inj hs ▸ h

theorem propagate_uncrossed {x y : Int} {sides sides' : List Range × List Range} (h : BothUncrossed x y sides)
    (hs : propagate sides = some sides') : BothUncrossed x y sides' := by
  unfold propagate at hs
  generalize List.range (max sides.1.length sides.2.length) = is at hs
  induction is generalizing sides with
  | nil => exact Option.some.inj hs ▸ h
  | cons i is ih =>
    rw [List.foldlM_cons] at hs
    obtain ⟨t, ht, hs⟩ := Option.bind_eq_some_iff.1 hs
    exact ih (splitBoth_uncrossed h ht) hs

/-- The resolver starts by cutting both sides at the cut, and what follows only refines them (40_range_algebra R88 to R92). -/
theorem alignRangesOverCut_uncrossed {src dst : Range} {cut : Int} {S D : List Range}
    (h : alignRangesOverCut src dst cut = some (S, D)) : Uncrossed cut S ∧ Uncrossed cut D := by
  unfold alignRangesOverCut at h
  split_ifs at h
  obtain ⟨t, ht, h⟩ := Option.bind_eq_some_iff.1 h
  obtain ⟨t', ht', h⟩ := Option.bind_eq_some_iff.1 h
  obtain ⟨hs, hd⟩ := splitSelfOverlap_uncrossed ⟨uncrossed_cutBefore cut _, uncrossed_cutBefore cut _⟩ ht
  obtain ⟨hs, hd⟩ := propagate_uncrossed ⟨hs.shiftSide _, hd.shiftSide _⟩ ht'
  obtain ⟨rfl, rfl⟩ := Prod.mk.inj (Option.some.inj h)
  have hs := hs.shiftSide src.start
  have hd := hd.shiftSide dst.start
  rw [neg_add_cancel_right] at hs hd
  exact ⟨hs, hd⟩

/-! ### The two sides -/

/-- One refinement of `[0, n]` by two cuts, moved to a start. -/
theorem tiles_refinement {n : Int} (hn : 0 ≤ n) (c e d : Int) :
    Tiles d (n + d) (shiftSide d (cutBefore e (cutBefore c [⟨0, n⟩]))) := by
  have h := (((tiles_single hn).cutBefore c).cutBefore e).shiftSide d
  rwa [zero_add] at h

theorem length_refinement {n : Int} (hn : 0 ≤ n) (c e : Int) : (cutBefore e (cutBefore c [⟨0, n⟩])).length ≤ 3 :=
  (((tiles_single hn).cutBefore c).length_cutBefore e).trans (Nat.succ_le_succ (cutBefore_single_length_le c _))

theorem map_rangeLength_shiftSide (d : Int) (side : List Range) : (shiftSide d side).map rangeLength = side.map rangeLength := by
  rw [shiftSide, List.map_map]
  refine List.map_congr_left fun r _ => ?_
  simp only [Function.comp_apply, rangeLength]
  omega

/-- Settles O22: both sides tile, being one refinement, and neither crosses the cut. -/
theorem rangeAlignmentInvariants : Obligations.RangeAlignmentInvariants := by
  intro src dst cut hsrc hlen
  obtain ⟨c, e, halign⟩ := alignRangesOverCut_eq hsrc hlen cut
  have hn : 0 ≤ rangeLength src - 1 := by
    have := one_le_rangeLength hsrc
    omega
  obtain ⟨hS, hD⟩ := alignRangesOverCut_uncrossed halign
  have htS := tiles_refinement hn c e src.start
  have htD := tiles_refinement hn c e dst.start
  have hendS : rangeLength src - 1 + src.start = src.stop := by unfold rangeLength; omega
  have hendD : rangeLength src - 1 + dst.start = dst.stop := by rw [hlen]; unfold rangeLength; omega
  rw [hendS] at htS
  rw [hendD] at htD
  have hneS := htS.ne_nil hsrc
  obtain ⟨hleS, hheadS, hlastS, hchainS⟩ := htS.partition hneS
  obtain ⟨hleD, hheadD, hlastD, hchainD⟩ := htD.partition (htD.ne_nil (by omega))
  refine ⟨_, _, halign, by simp [shiftSide], List.length_pos_iff.2 hneS, ?_, ?_, ?_, hheadS, hlastS, hheadD, hlastD, hchainS,
    hchainD⟩
  · rw [shiftSide, List.length_map]
    exact length_refinement hn c e
  · rw [map_rangeLength_shiftSide, map_rangeLength_shiftSide]
  · intro r hr
    rcases List.mem_append.1 hr with hr | hr
    · exact ⟨hleS r hr, hS r hr⟩
    · exact ⟨hleD r hr, hD r hr⟩

end Sys2Proof.Machine
end
